-- ==== Sys2Proof/Word.lean ====
section
/-! DEFINITION. The words of p1mini-core (00_scope.md R8): bytes, 16-bit checksums, 32-bit packed codes
and 32-bit counter values. Positions and lengths are mathematical integers (D1) and stay `Nat` or `Int`. -/

namespace Sys2Proof

/-- A byte, 0 .. 255 (R8). -/
abbrev Byte := BitVec 8

/-- A 16-bit checksum value (R130 to R133). -/
abbrev Crc := BitVec 16

/-- A 32-bit packed OBIS code (R99). -/
abbrev Code := BitVec 32

/-- A value of the millisecond counter, `TIME_BITS` = 32 wide (R7, D2). -/
abbrev Time := BitVec 32

end Sys2Proof
end

