-- ==== Sys2Proof/Syntax.lean ====
section
/-! DEFINITION. The operations of p1mini-core, one constructor per row of opcode_table.json (30_encoding.md R109), the
values that select them (R90), and the state and format codes those values are drawn from (R91, R92). -/

namespace Sys2Proof

/-- The seven states of the frame machine (10_state.md R21). Code 7 is never held and is not representable. -/
inductive Phase
  | ident | read | verify | pascii | pbin | wait | err
  deriving DecidableEq, Repr

/-- The wire format of the current telegram (10_state.md R22). Code 3 is never held and is not representable. -/
inductive Fmt
  | none | ascii | binary
  deriving DecidableEq, Repr

/-- A decimal number as the ASCII decoder reads it: `mant / 10 ^ scale`, `scale` the number of digits after the point
(30_encoding.md R102, 43_ascii_parser.md R216). -/
structure Decimal where
  mant  : Int
  scale : Nat
  deriving DecidableEq, Repr

/-- One operation of the block (00_scope.md R4). -/
inductive Instr
  /-- R130 -/
  | crcaUpd (c : Crc) (b : Byte)
  /-- R131 -/
  | crcaRng (lo hi : Nat)
  /-- R132 -/
  | crcxUpd (c : Crc) (b : Byte)
  /-- R133 -/
  | crcxRng (lo hi : Nat)
  /-- R150 -/
  | obisPack (major minor micro : Nat)
  /-- R151 -/
  | obisUnpk (code : Code)
  /-- R152 -/
  | obisParse (text : List Byte)
  /-- R155 -/
  | regAdd (text : List Byte) (h : Nat)
  /-- R156 -/
  | regLookup (code : Code)
  /-- R179 -/
  | stepIdent
  /-- R181 -/
  | stepRead
  /-- R188 to R190 -/
  | stepVerify
  /-- R210 -/
  | stepPascii
  /-- R230 -/
  | stepPbin
  /-- R191 -/
  | stepWait
  /-- R192 -/
  | stepErr
  /-- R93, R179 -/
  | lbAscii
  /-- R93, R179 -/
  | lbBinary
  /-- R93, R179; `b` the byte read -/
  | lbIllegal (b : Byte)
  /-- R182; `b` the byte `read()` delivers -/
  | rbAppend (b : Byte)
  /-- R183 -/
  | rbMark
  /-- R184; `b` the byte just appended, which the operation reads back as `buf[2]` -/
  | rbHdr (b : Byte)
  /-- R185 -/
  | rbEndA
  /-- R186; `b` the byte just appended -/
  | rbEndB (b : Byte)
  /-- R233 -/
  | tNull
  /-- R234 -/
  | tArray
  /-- R235 -/
  | tStruct
  /-- R238 -/
  | tU32
  /-- R239 -/
  | tOctet
  /-- R240 -/
  | tString
  /-- R241 -/
  | tDatetime
  /-- R236 -/
  | tScalunit
  /-- R242 -/
  | tU16
  /-- R243 -/
  | tS16
  /-- R237 -/
  | tEnum
  /-- R244; `tag` the tag byte -/
  | tIllegal (tag : Byte)
  /-- R212; the three DEC values and the FLOAT of the line -/
  | lnMeas (major minor micro : Nat) (value : Decimal)
  /-- R213; `line` the bytes of the line -/
  | lnOther (line : List Byte)
  /-- R214; `mark` the byte that ended the span -/
  | lnEnd (mark : Byte)
  deriving DecidableEq, Repr

/-- The operand ports of the function units (R113). The encoding of format `FU` gives operands no bits, so they stand
beside the index; an operation reads the ports its row names. Log entry 10. -/
structure FuArgs where
  acc   : Crc := 0#16
  b     : Byte := 0#8
  lo    : Nat := 0
  hi    : Nat := 0
  major : Nat := 0
  minor : Nat := 0
  micro : Nat := 0
  code  : Code := 0#32
  text  : List Byte := []
  h     : Nat := 0
  deriving DecidableEq, Repr

/-- What selects an operation, format by format (R90). The same byte value selects different operations in different
formats; the format is given by where the block is looking. -/
inductive Selector
  /-- Format `ST` (R91): the state register. -/
  | st (code : BitVec 3)
  /-- Format `LB` (R93): the first byte read in IDENTIFYING_MESSAGE. -/
  | lb (b : Byte)
  /-- Format `RB` (R94), the first action on every byte read in READING_MESSAGE. -/
  | rbArrive (b : Byte)
  /-- Format `RB` (R94), the classification after the append: `pos` and `crcPos` as they stand then. -/
  | rbAfter (fmt : Fmt) (pos : Nat) (crcPos : Int) (b : Byte)
  /-- Format `TLV` (R97): the tag byte. -/
  | tlv (tag : Byte)
  /-- Format `LN` (R101): the text of a line. -/
  | ln (line : List Byte)
  /-- Format `LN` (R104): the byte that ends a span. -/
  | lnBound (b : Byte)
  /-- Format `FU` (R113): the index and the operand ports. -/
  | fu (index : BitVec 4) (args : FuArgs)
  deriving DecidableEq, Repr

/-- The classes of a lead byte (R93). -/
inductive LeadByte
  | ascii | binary | illegal
  deriving DecidableEq, Repr

/-- The classes of a byte after it was appended in READING_MESSAGE (R94). -/
inductive RbClass
  | mark | hdr | endA | endB | data
  deriving DecidableEq, Repr

/-- The element handlers a tag byte selects (R97). -/
inductive TlvTag
  | null | array | struct | u32 | octet | string | datetime | scalunit | u16 | s16 | enum | illegal
  deriving DecidableEq, Repr

end Sys2Proof
end

