-- ==== Sys2Proof/Machine/Flags.lean ====
section
/-! DEFINITION. The block has no condition codes and no flag register (10_state.md R39). These are the conditions on
registers that play the part of flags; they are computed from the registers and stored nowhere. -/

namespace Sys2Proof.Machine

/-- "CRC position known" (R39): every test of the position is `crc_pos > 0` (R24, C7). -/
def crcPosKnown (crcPos : Int) : Bool := decide (0 < crcPos)

/-- The newline of an ASCII frame end stands at or after the CRC position (R185): `pos > crc_pos` after the append. -/
def pastCrcPos (pos : Nat) (crcPos : Int) : Bool := crcPosKnown crcPos && decide (crcPos < (pos : Int))

/-- The end marker of a binary frame is due (R186): `pos = crc_pos + 3` after the append. -/
def endMarkerDue (pos : Nat) (crcPos : Int) : Bool := crcPosKnown crcPos && decide ((pos : Int) = crcPos + 3)

/-- "Binary header not yet located" (R39): `cur = 0` in state PBIN. -/
def headerNotLocated (cur : Nat) : Bool := decide (cur = 0)

/-- The cursor reaches or passes the CRC position (44_tlv_parser.md R232). -/
def cursorAtEnd (cur : Nat) (crcPos : Int) : Bool := decide (crcPos ≤ (cur : Int))

end Sys2Proof.Machine
end

