-- ==== Sys2Proof/Decode.lean ====
section
/-! DEFINITION. The decoder of every format of 30_encoding.md R90, total on any selecting value and rejecting by name,
the text grammars it uses (R100 to R104), and after it the encoder, written from the same tables. -/

namespace Sys2Proof

open Sys2Proof.Machine

/-- Why a selecting value selects no operation. -/
inductive DecodeError
  /-- State code 7, never held (R21, R91). -/
  | reservedState
  /-- Function index 9 .. 15, not used (R113). -/
  | unusedFunction
  /-- A byte read in READING_MESSAGE that no class of R94 takes: data, no further action. -/
  | dataByte
  /-- An empty span is not a line (R211). -/
  | emptySpan
  /-- A line holds no terminator and no end mark (R104, R211). -/
  | boundaryInLine
  /-- A byte that ends no processing (R104). -/
  | notAnEndMark
  deriving DecidableEq, Repr

/-! ## State and format codes (R91, R92) -/

/-- The 3-bit code of a state (R91). -/
def Phase.code : Phase → BitVec 3
  | .ident => 0#3
  | .read => 1#3
  | .verify => 2#3
  | .pascii => 3#3
  | .pbin => 4#3
  | .wait => 5#3
  | .err => 6#3

/-- The state of a 3-bit code; 7 is never held (R91). -/
def Phase.ofCode (c : BitVec 3) : Option Phase :=
  match c.toNat with
  | 0 => some .ident
  | 1 => some .read
  | 2 => some .verify
  | 3 => some .pascii
  | 4 => some .pbin
  | 5 => some .wait
  | 6 => some .err
  | _ => Option.none

/-- The 2-bit code of a format (R92). -/
def Fmt.code : Fmt → BitVec 2
  | .none => 0#2
  | .ascii => 1#2
  | .binary => 2#2

/-- The operation a state selects (R91, R170). -/
def Phase.instr : Phase → Instr
  | .ident => .stepIdent
  | .read => .stepRead
  | .verify => .stepVerify
  | .pascii => .stepPascii
  | .pbin => .stepPbin
  | .wait => .stepWait
  | .err => .stepErr

/-! ## Byte classes -/

/-- The class of a lead byte (R93). -/
def leadClass (b : Byte) : LeadByte :=
  if b = 0x2F#8 then .ascii else if b = 0x7E#8 then .binary else .illegal

/-- The class of a byte after its append, tested in the order of the table of R94; `pos` and `crcPos` as they stand
after the append. At most one class of R181's two tests can apply to one byte (log entry 15). -/
def rbClass (fmt : Fmt) (pos : Nat) (crcPos : Int) (b : Byte) : RbClass :=
  match fmt with
  | .ascii =>
    if b = 0x21#8 then .mark
    else if pastCrcPos pos crcPos && decide (b = 0x0A#8) then .endA else .data
  | .binary =>
    if pos = 3 then .hdr
    else if endMarkerDue pos crcPos then .endB else .data
  | .none => .data

/-- The handler a tag byte selects (R97): eleven tags, every other value unsupported. -/
def tlvTag (tag : Byte) : TlvTag :=
  match tag.toNat with
  | 0x00 => .null
  | 0x01 => .array
  | 0x02 => .struct
  | 0x06 => .u32
  | 0x09 => .octet
  | 0x0A => .string
  | 0x0C => .datetime
  | 0x0F => .scalunit
  | 0x10 => .u16
  | 0x12 => .s16
  | 0x16 => .enum
  | _ => .illegal

/-- Line terminators (R104): `\n` and `\r`. -/
def isTerminator (b : Byte) : Bool := b == 0x0A#8 || b == 0x0D#8

/-- End marks (R104): NUL and `!`. -/
def isEndMark (b : Byte) : Bool := b == 0x00#8 || b == 0x21#8

/-- The bytes that end a span (R210, R211). -/
def isBoundary (b : Byte) : Bool := isTerminator b || isEndMark b

/-! ## Text grammars (R100 to R103) -/

/-- DIGIT (R100): bytes 0x30 .. 0x39. -/
def isDigit (b : Byte) : Bool := decide (0x30 ≤ b.toNat) && decide (b.toNat ≤ 0x39)

/-- The longest run of DIGITs at the front, and what follows it (R101: maximal munch). -/
def spanDigits : List Byte → List Byte × List Byte
  | [] => ([], [])
  | b :: bs => if isDigit b then (b :: (spanDigits bs).1, (spanDigits bs).2) else ([], b :: bs)

/-- The natural number a digit string denotes in base 10; 0 for no digits (R100, R216). -/
def digitsValue (ds : List Byte) : Nat := ds.foldl (fun v d => 10 * v + (d.toNat - 0x30)) 0

/-- DEC (R100): one or more digits. -/
def parseDec (l : List Byte) : Option (Nat × List Byte) :=
  if (spanDigits l).1.isEmpty then none else some (digitsValue (spanDigits l).1, (spanDigits l).2)

/-- One given byte. -/
def parseByte (c : Byte) : List Byte → Option (List Byte)
  | [] => none
  | b :: bs => if b = c then some bs else none

/-- A given string of bytes. -/
def parseBytes : List Byte → List Byte → Option (List Byte)
  | [], l => some l
  | c :: cs, l => (parseByte c l).bind (parseBytes cs)

/-- DEC "." DEC "." DEC (R100, R101). -/
def parseTriple (l : List Byte) : Option ((Nat × Nat × Nat) × List Byte) :=
  (parseDec l).bind fun a =>
    (parseByte 0x2E#8 a.2).bind fun l1 =>
      (parseDec l1).bind fun b =>
        (parseByte 0x2E#8 b.2).bind fun l2 =>
          (parseDec l2).map fun c => ((a.1, b.1, c.1), c.2)

/-- Format `OT` (R100): the whole string is a triple, nothing before or after. -/
def parseObisText (text : List Byte) : Option (Nat × Nat × Nat) :=
  match parseTriple text with
  | some (t, []) => some t
  | _ => none

/-- SIGN? (R102): whether the number is negative, and what follows. -/
def parseSign : List Byte → Bool × List Byte
  | [] => (false, [])
  | b :: bs => if b = 0x2D#8 then (true, bs) else if b = 0x2B#8 then (false, bs) else (false, b :: bs)

/-- A decimal of the digits before and after the point (R216): `value(I) + value(F) / 10^k` is `value(I F) / 10^k`. -/
def decimalOf (neg : Bool) (int frac : List Byte) : Decimal :=
  let m : Int := (digitsValue (int ++ frac) : Nat)
  { mant := if neg then -m else m, scale := frac.length }

/-- FLOAT (R102): `SIGN? ( DIGITS ( "." DIGIT* )? | "." DIGITS )`, longest run, at least one digit. -/
def parseFloat (l : List Byte) : Option (Decimal × List Byte) :=
  let sgn := parseSign l
  let int := spanDigits sgn.2
  match parseByte 0x2E#8 int.2 with
  | some afterPoint =>
    let frac := spanDigits afterPoint
    if int.1.isEmpty && frac.1.isEmpty then none else some (decimalOf sgn.1 int.1 frac.1, frac.2)
  | none => if int.1.isEmpty then none else some (decimalOf sgn.1 int.1 [], int.2)

/-- The literal `1-0:` that a measurement line begins with (R101). -/
def measPrefix : List Byte := [0x31#8, 0x2D#8, 0x30#8, 0x3A#8]

/-- MEAS (R101), anchored at the first byte; REST is ignored. -/
def parseMeas (line : List Byte) : Option (Nat × Nat × Nat × Decimal) :=
  (parseBytes measPrefix line).bind fun l1 =>
    (parseTriple l1).bind fun t =>
      (parseByte 0x28#8 t.2).bind fun l2 =>
        (parseFloat l2).map fun f => (t.1.1, t.1.2.1, t.1.2.2, f.1)

/-- The value of a HEXDIG (R103, R188), `none` for any other byte. -/
def hexDigit (b : Byte) : Option Nat :=
  let n := b.toNat
  if 0x30 ≤ n ∧ n ≤ 0x39 then some (n - 0x30)
  else if 0x41 ≤ n ∧ n ≤ 0x46 then some (n - 0x37)
  else if 0x61 ≤ n ∧ n ≤ 0x66 then some (n - 0x57)
  else none

/-! ## The decoder -/

/-- Format `LB` (R93). -/
def decodeLead (b : Byte) : Instr :=
  match leadClass b with
  | .ascii => .lbAscii
  | .binary => .lbBinary
  | .illegal => .lbIllegal b

/-- Format `RB` after the append (R94). -/
def decodeRb (fmt : Fmt) (pos : Nat) (crcPos : Int) (b : Byte) : Except DecodeError Instr :=
  match rbClass fmt pos crcPos b with
  | .mark => .ok .rbMark
  | .hdr => .ok (.rbHdr b)
  | .endA => .ok .rbEndA
  | .endB => .ok (.rbEndB b)
  | .data => .error .dataByte

/-- Format `TLV` (R97). -/
def decodeTlv (tag : Byte) : Instr :=
  match tlvTag tag with
  | .null => .tNull
  | .array => .tArray
  | .struct => .tStruct
  | .u32 => .tU32
  | .octet => .tOctet
  | .string => .tString
  | .datetime => .tDatetime
  | .scalunit => .tScalunit
  | .u16 => .tU16
  | .s16 => .tS16
  | .enum => .tEnum
  | .illegal => .tIllegal tag

/-- Format `LN`, a line (R101, R211). -/
def decodeLine (line : List Byte) : Except DecodeError Instr :=
  if line.isEmpty then .error .emptySpan
  else if line.any isBoundary then .error .boundaryInLine
  else
    match parseMeas line with
    | some (a, b, c, v) => .ok (.lnMeas a b c v)
    | none => .ok (.lnOther line)

/-- Format `FU` (R113): indices 0 to 8; 9 to 15 are not used. -/
def decodeFu (index : BitVec 4) (a : FuArgs) : Except DecodeError Instr :=
  match index.toNat with
  | 0 => .ok (.crcaUpd a.acc a.b)
  | 1 => .ok (.crcaRng a.lo a.hi)
  | 2 => .ok (.crcxUpd a.acc a.b)
  | 3 => .ok (.crcxRng a.lo a.hi)
  | 4 => .ok (.obisPack a.major a.minor a.micro)
  | 5 => .ok (.obisUnpk a.code)
  | 6 => .ok (.obisParse a.text)
  | 7 => .ok (.regAdd a.text a.h)
  | 8 => .ok (.regLookup a.code)
  | _ => .error .unusedFunction

/-- The decoder: from a selecting value to the operation it selects, or the name of why it selects none. -/
def decode : Selector → Except DecodeError Instr
  | .st c =>
    match Phase.ofCode c with
    | some p => .ok p.instr
    | none => .error .reservedState
  | .lb b => .ok (decodeLead b)
  | .rbArrive b => .ok (.rbAppend b)
  | .rbAfter f p c b => decodeRb f p c b
  | .tlv tag => .ok (decodeTlv tag)
  | .ln line => decodeLine line
  | .lnBound b => if isEndMark b then .ok (.lnEnd b) else .error .notAnEndMark
  | .fu i a => decodeFu i a

/-! ## The encoder -/

/-- The decimal digits of a natural number, most significant first; `fuel` bounds their number. -/
def decDigitsAux : Nat → Nat → List Byte → List Byte
  | 0, _, acc => acc
  | fuel + 1, n, acc =>
    let acc' := BitVec.ofNat 8 (0x30 + n % 10) :: acc
    if n / 10 = 0 then acc' else decDigitsAux fuel (n / 10) acc'

/-- A DEC (R100) that denotes `n`, without leading zeros. -/
def decDigits (n : Nat) : List Byte := decDigitsAux (n + 1) n []

/-- The digits of `n` with leading zeros up to at least `k` of them. -/
def paddedDigits (k n : Nat) : List Byte :=
  List.replicate (k - (decDigits n).length) 0x30#8 ++ decDigits n

/-- A FLOAT (R102) that denotes the decimal with exactly `scale` digits after the point. -/
def floatText (d : Decimal) : List Byte :=
  let ds := paddedDigits (d.scale + 1) d.mant.natAbs
  let int := ds.take (ds.length - d.scale)
  let frac := ds.drop (ds.length - d.scale)
  (if d.mant < 0 then [0x2D#8] else []) ++ int ++ (if d.scale = 0 then [] else 0x2E#8 :: frac)

/-- A measurement line (R101) with an empty REST. -/
def measText (major minor micro : Nat) (v : Decimal) : List Byte :=
  measPrefix ++ decDigits major ++ [0x2E#8] ++ decDigits minor ++ [0x2E#8] ++ decDigits micro ++ [0x28#8] ++ floatText v

/-- The encoder: a selecting value of the instruction. The RB operations that are selected by position get the least
context that selects them (R94). -/
def encode : Instr → Selector
  | .crcaUpd c b => .fu 0#4 { acc := c, b := b }
  | .crcaRng lo hi => .fu 1#4 { lo := lo, hi := hi }
  | .crcxUpd c b => .fu 2#4 { acc := c, b := b }
  | .crcxRng lo hi => .fu 3#4 { lo := lo, hi := hi }
  | .obisPack a b c => .fu 4#4 { major := a, minor := b, micro := c }
  | .obisUnpk k => .fu 5#4 { code := k }
  | .obisParse t => .fu 6#4 { text := t }
  | .regAdd t h => .fu 7#4 { text := t, h := h }
  | .regLookup k => .fu 8#4 { code := k }
  | .stepIdent => .st 0#3
  | .stepRead => .st 1#3
  | .stepVerify => .st 2#3
  | .stepPascii => .st 3#3
  | .stepPbin => .st 4#3
  | .stepWait => .st 5#3
  | .stepErr => .st 6#3
  | .lbAscii => .lb 0x2F#8
  | .lbBinary => .lb 0x7E#8
  | .lbIllegal b => .lb b
  | .rbAppend b => .rbArrive b
  | .rbMark => .rbAfter .ascii 2 0 0x21#8
  | .rbHdr b => .rbAfter .binary 3 0 b
  | .rbEndA => .rbAfter .ascii 3 2 0x0A#8
  | .rbEndB b => .rbAfter .binary 4 1 b
  | .tNull => .tlv 0x00#8
  | .tArray => .tlv 0x01#8
  | .tStruct => .tlv 0x02#8
  | .tU32 => .tlv 0x06#8
  | .tOctet => .tlv 0x09#8
  | .tString => .tlv 0x0A#8
  | .tDatetime => .tlv 0x0C#8
  | .tScalunit => .tlv 0x0F#8
  | .tU16 => .tlv 0x10#8
  | .tS16 => .tlv 0x12#8
  | .tEnum => .tlv 0x16#8
  | .tIllegal tag => .tlv tag
  | .lnMeas a b c v => .ln (measText a b c v)
  | .lnOther line => .ln line
  | .lnEnd mark => .lnBound mark

/-! ## Words of opcode_table.json -/

/-- The selecting value a word of opcode_table.json stands for. The table's formats overlap: a byte such as `0x00`
selects CRCA.UPD, STEP.IDENT and T.NULL, each in its own format, and the word does not say which. A width of 3 or 4 bits
names `ST` or `FU`; any other width is read in the fixed order ST, FU, TLV (the eleven tags), RB.MARK, LB (log entry 11). -/
def tableSelector (nbits w : Nat) : Selector :=
  let b := BitVec.ofNat 8 w
  if nbits = 3 then .st (BitVec.ofNat 3 w)
  else if nbits = 4 then .fu (BitVec.ofNat 4 w) {}
  else if b.toNat ≤ 6 then .st (BitVec.ofNat 3 w)
  else if b.toNat ≤ 8 then .fu (BitVec.ofNat 4 w) {}
  else if tlvTag b ≠ .illegal then .tlv b
  else if b = 0x21#8 then .rbAfter .ascii 2 0 b
  else .lb b

/-- The instruction the decoder reads from a word of opcode_table.json. -/
def decodeTableWord (nbits w : Nat) : Option Instr :=
  match decode (tableSelector nbits w) with
  | .ok i => some i
  | .error _ => none

end Sys2Proof
end

