-- ==== Sys2Proof/Machine/Memory.lean ====
section
/-! DEFINITION. The receive buffer's storage and the registry's storage as plain data in one canonical form (20_memory.md R60,
10_state.md R30, R35). A memory is a list of (offset, byte) cells with strictly rising offsets and no cell equal to
what an unlisted offset reads as; a registry is a list of (code, handle) entries with strictly rising codes. -/

namespace Sys2Proof.Machine

/-- What an offset below `BUF_CAP` that no cell lists reads as. The spec gives a draw per byte at reset (R40, U2).
DESIGN CHOICE, unsafe: 0x00 (log entry 6). -/
def Memory.fill : Byte := 0x00#8

/-- The byte at an offset. -/
def Memory.read : List Host.Cell → Nat → Byte
  | [], _ => Memory.fill
  | (k, v) :: m, a => if a = k then v else Memory.read m a

/-- A cell for the front of a memory, left out if it holds the fill. -/
def Memory.cons (a : Nat) (b : Byte) (m : List Host.Cell) : List Host.Cell :=
  if b = Memory.fill then m else (a, b) :: m

/-- Store a byte at an offset, keeping the canonical form. -/
def Memory.write : List Host.Cell → Nat → Byte → List Host.Cell
  | [], a, b => Memory.cons a b []
  | (k, v) :: m, a, b =>
    if a < k then Memory.cons a b ((k, v) :: m)
    else if a = k then Memory.cons a b m
    else (k, v) :: Memory.write m a b

/-- Offsets rise strictly, from at least `lo`, and no cell holds the fill. -/
def Memory.wfFrom : Nat → List Host.Cell → Bool
  | _, [] => true
  | lo, (k, v) :: m => decide (lo ≤ k) && decide (v ≠ Memory.fill) && Memory.wfFrom (k + 1) m

/-- The canonical form. -/
def Memory.wf (m : List Host.Cell) : Bool := Memory.wfFrom 0 m

/-- Every cell lies below `cap`. -/
def Memory.below (cap : Nat) (m : List Host.Cell) : Bool := m.all fun c => decide (c.1 < cap)

/-- The bytes stored from an offset on. -/
def Memory.ofBytesFrom : Nat → List Byte → List Host.Cell
  | _, [] => []
  | a, b :: bs => Memory.cons a b (Memory.ofBytesFrom (a + 1) bs)

/-- The buffer contents given byte by byte from offset 0; at most `cap` of them. -/
def Memory.ofBytes (cap : Nat) (bs : List Byte) : List Host.Cell := Memory.ofBytesFrom 0 (bs.take cap)

/-- The cells that exist in a buffer of `cap` bytes. -/
def Memory.restrict (cap : Nat) (m : List Host.Cell) : List Host.Cell := m.filter fun c => decide (c.1 < cap)

/-- The handle registered at a code, if any: the partial map itself, without the sentinel's exception (R35). -/
def Registry.find : List (Code × Nat) → Code → Option Nat
  | [], _ => none
  | (c, h) :: r, k => if k = c then some h else Registry.find r k

/-- Register a handle at a code; an earlier entry at the same code is replaced (R155: the last one wins). -/
def Registry.insert : List (Code × Nat) → Code → Nat → List (Code × Nat)
  | [], k, h => [(k, h)]
  | (c, g) :: r, k, h =>
    if k.toNat < c.toNat then (k, h) :: (c, g) :: r
    else if k = c then (k, h) :: r
    else (c, g) :: Registry.insert r k h

/-- Codes rise strictly, from at least `lo`. -/
def Registry.wfFrom : Nat → List (Code × Nat) → Bool
  | _, [] => true
  | lo, (c, _) :: r => decide (lo ≤ c.toNat) && Registry.wfFrom (c.toNat + 1) r

/-- The canonical form of a registry. -/
def Registry.wf (r : List (Code × Nat)) : Bool := Registry.wfFrom 0 r

end Sys2Proof.Machine
end

