-- ==== Sys2Proof/Config.lean ====
section
/-! DEFINITION. The parameters of p1mini-core that are the same for every machine (00_scope.md R7), and the free
values. The OPEN parameters a host sets per machine (`BUF_CAP`, `MIN_PERIOD_MS`, `PASSTHROUGH`, `DRAIN_MAX`,
`DLOG_CAP`, `REGISTRY`) are fields of State (`Conf`, `registry`), so that a claim quantifies over them. -/

namespace Sys2Proof

/-- `T_IDENT_TIMEOUT_MS` (R7): stall timeout of IDENTIFYING_MESSAGE. -/
def Config.identTimeoutMs : Nat := 60000

/-- `T_READ_TIMEOUT_MS` (R7): incomplete-telegram timeout of READING_MESSAGE. -/
def Config.readTimeoutMs : Nat := 10000

/-- `T_QUIET_MS` (R7): quiet period of ERROR_RECOVERY. -/
def Config.quietMs : Nat := 500

/-- `PROC_BUDGET_MS` (R7): not normative, no rule reads it; the budget is the draw `yield()` (R198). -/
def Config.procBudgetMs : Nat := 25

/-- `OBIS_INVALID` (R7, R99): the sentinel packed code. -/
def Config.obisInvalid : Code := 0xFFFFFFFF#32

/-- `HEX_CHUNK` (R7): OPEN, no rule reads it. No value of it can be proved. -/
opaque Config.hexChunk : Nat

/-- `ToSink` (R7, R11): OPEN, a total function of the exact rational alone. The result is the bit pattern, read as a
number, of the value in the sink's own number format. Log entry 8. -/
opaque Config.toSink : Rat → Nat

/-- The unspecified byte of a buffer read at an offset >= `BUF_CAP` (20_memory.md R62, U1): the n-th draw since the
machine was built. A free value: nothing about it can be proved. Log entry 7. -/
opaque Config.unspecifiedByte : Nat → Byte

end Sys2Proof
end

