-- ==== Sys2Proof/Machine/State.lean ====
section
/-! DEFINITION. The state of p1mini-core (10_state.md R20) as plain data, with the host's inputs and the event trace beside it
(00_scope.md R10), the reasons a step can stop, and reset (70_reset_and_hazards.md R300). -/

namespace Sys2Proof.Machine

/-- The notification channels (60_exceptions.md R283). -/
inductive Channel
  | ready | update | commError
  deriving DecidableEq, Repr

/-- The error causes with their diagnostic operands (60_exceptions.md R260 to R271). -/
inductive Cause
  /-- (a), R261 -/
  | stall
  /-- (b), R262; the byte -/
  | lead (b : Byte)
  /-- (c), R263; `buf[1]` -/
  | hdrFormat (b : Byte)
  /-- (c), R264; the byte found -/
  | hdrEnd (b : Byte)
  /-- (c), R265 -/
  | hdrCtrl
  /-- (d), R266 -/
  | overrun
  /-- (e), R267 -/
  | incomplete
  /-- (f), R268 -/
  | crc
  /-- (g), R269; the tag and `cur` -/
  | tag (tag : Byte) (cur : Nat)
  /-- (h), R270; the line; no trap -/
  | line (bytes : List Byte)
  /-- (i), R271; no trap -/
  | obisText
  deriving DecidableEq, Repr

/-- The kinds of diagnostic (60_exceptions.md R282). No rule's state change depends on one. -/
inductive Diag
  | error (c : Cause)
  /-- R190; `expected` is `none` for an ASCII field without a digit -/
  | crcMismatch (computed : Crc) (expected : Option Nat) (bytes : List Byte)
  | discard (bytes : List Byte)
  | noSink (code : Code)
  | summary (nRead nProc : Nat)
  deriving DecidableEq, Repr

/-- The events of the block (00_scope.md R10). `deliver h v` carries the exact rational; the sink receives
`Config.toSink v` (R11, log entry 8). -/
inductive Event
  | notify (k : Channel)
  | deliver (h : Nat) (v : Rat)
  | pass (b : Byte)
  | diag (d : Diag)
  deriving DecidableEq, Repr

/-- The result port of a function unit that the host invoked (R109 `MNEMONIC operands -> results`, R113). A field of the
model's own, log entry 10. -/
inductive FuResult
  | none
  | crc (r : Crc)
  | code (k : Code)
  | triple (major : BitVec 12) (minor micro : Byte)
  | sink (h : Option Nat)
  deriving DecidableEq, Repr

/-- The configuration registers (10_state.md R34) and the two other OPEN parameters that rules read (00_scope.md R7). -/
structure Conf where
  /-- `BUF_CAP`, >= 1 -/
  bufCap      : Nat
  /-- `MIN_PERIOD_MS` -/
  minPeriod   : Time
  /-- `PASSTHROUGH` -/
  passthrough : Bool
  /-- `DRAIN_MAX`, >= 1 -/
  drainMax    : Nat
  /-- `DLOG_CAP`, >= 1 -/
  dlogCap     : Nat
  deriving DecidableEq, Repr

/-- What the host does at one point of its schedule: the program of the block is its byte stream and tick schedule
(00_scope.md R4). -/
inductive Activation
  /-- `tick(t)` (R170): the counter value; the bytes that arrived since the last activation; the bytes that arrive just
  before each `avail()` of this tick (R10, D36); the answers of `yield()` (R198). Log entries 1 and 2. -/
  | tick (t : Time) (arrived : List Byte) (polls : List (List Byte)) (yields : List Bool)
  /-- A function-unit operation invoked by the host (R113). -/
  | call (index : BitVec 4) (args : FuArgs)
  /-- The host fixes the configuration, before the first tick (R302 (1)). -/
  | configure (c : Conf)
  /-- `reset(t0)` (R300) with its draws: `t_ident`, `t_read` and the bytes of `buf`. -/
  | reset (t0 tIdent tRead : Time) (bytes : List Byte)
  deriving DecidableEq, Repr

/-- Why a step stops with a fault. No run from reset reaches one (10_state.md R37); each stands for a state in which a
rule's pseudocode would leave the buffer or has no reading. All are safe: the model stops. Log entry 16. -/
inductive Fault
  /-- Raised by STEP.IDENT and RB.APPEND: a write at an offset >= `BUF_CAP`, which R63 says is never made. Safe. -/
  | writeBeyondCapacity
  /-- Raised by STEP.VERIFY and STEP.PASCII: a scan that the frame should end runs to `BUF_CAP` (R103, R218). Safe. -/
  | scanPastBuffer
  /-- Raised by STEP.VERIFY: an offset below 0, which R61 says no rule reads. Safe. -/
  | negativeOffset
  /-- Raised by STEP.VERIFY: `fmt` is `ASCII` or `BINARY` there (R190); it is `NONE`. Safe. -/
  | verifyWithoutFormat
  deriving DecidableEq, Repr

/-- Why a step refuses. The first is a meaning not written; the others are what the spec's own table marks `refuse`
(93_implementation_defined.md). All are safe. -/
inductive Refusal
  /-- An instruction that has no meaning in exec yet. -/
  | notModelled (mnemonic : String)
  /-- Raised by the fetch: a selecting value that selects nothing (R91 code 7, U14). -/
  | reservedSelector
  /-- Raised by the fetch: function index 9 .. 15, not used (R113). -/
  | unusedFunction
  /-- Raised by REG.ADD after the first tick (R303 (2), U7). -/
  | registrationAfterFirstTick
  /-- Raised by the fetch: a change of the configuration after the first tick (R303 (3), U8). -/
  | reconfigurationAfterFirstTick
  /-- Raised by the fetch: a configuration outside its range (R7, U15). -/
  | badConfiguration
  /-- Raised by RB.APPEND: `read()` when its byte is not the oldest undelivered one of the source (R10, U9). -/
  | readWithoutByte
  deriving DecidableEq, Repr

/-- The state of the block (10_state.md R20), then the fields of the model's own: the division by time of R280, the
host's inputs (R10), the count of unspecified bytes drawn, the function units' result port and the event trace. -/
structure State where
  st         : Phase
  fmt        : Fmt
  pos        : Nat
  crcPos     : Int
  cur        : Nat
  curCode    : Code
  tIdent     : Time
  tRead      : Time
  tErr       : Time
  buf        : List Host.Cell
  dlog       : List Byte
  nReadTicks : Nat
  nProcTicks : Nat
  crcA       : Option Crc
  crcX       : Option Crc
  cfg        : Conf
  registry   : List (Code × Nat)
  ticked     : Bool
  now        : Time
  src        : List Byte
  polls      : List (List Byte)
  yields     : List Bool
  sched      : List Activation
  draws      : Nat
  result     : FuResult
  trace      : List Event
  deriving DecidableEq, Repr

/-- `reset(t0)` (70_reset_and_hazards.md R300): the reset column of 10_state.md R40, with the draws `tIdent`, `tRead` and `buf` as
arguments. The configuration, the registry and the host's side are not touched, and no event is emitted. -/
def State.resetWith (t0 tIdent tRead : Time) (buf : List Host.Cell) (s : State) : State :=
  { s with
    st := .err, fmt := .none, pos := 0, crcPos := 0, cur := 0, curCode := Config.obisInvalid,
    tIdent := tIdent, tRead := tRead, tErr := t0, buf := buf, dlog := [],
    nReadTicks := 0, nProcTicks := 0, crcA := none, crcX := none, ticked := false, now := t0 }

/-- The machine as it is built, before reset. The configuration's values and the empty registry are DESIGN CHOICES,
unsafe (log entry 4): the spec leaves them OPEN (R7), and a claim quantifies over them. -/
def State.built : State :=
  { st := .err, fmt := .none, pos := 0, crcPos := 0, cur := 0, curCode := Config.obisInvalid,
    tIdent := 0#32, tRead := 0#32, tErr := 0#32, buf := [], dlog := [],
    nReadTicks := 0, nProcTicks := 0, crcA := none, crcX := none,
    cfg := { bufCap := 8193, minPeriod := 0#32, passthrough := false, drainMax := 200, dlogCap := 200 },
    registry := [], ticked := false, now := 0#32, src := [], polls := [], yields := [], sched := [],
    draws := 0, result := .none, trace := [] }

/-- The machine right after reset (R40, R300). `t0`, `t_ident`, `t_read` are 0 and no byte of `buf` is listed:
DESIGN CHOICES where the spec gives a draw, unsafe (log entries 5 and 6). -/
def State.reset : State := State.resetWith 0#32 0#32 0#32 [] State.built

end Sys2Proof.Machine
end

