-- ==== Sys2Proof/Machine/Activation.lean ====
section
/-! DEFINITION. What the next step runs: the next entry of the host's schedule is taken (log entry 1), the operation it
selects is decoded, and how a word of opcode_table.json is placed where the next step fetches it. -/

namespace Sys2Proof.Machine

/-- What the fetch finds. -/
inductive Fetched
  /-- An operation to execute, and the state it executes in. -/
  | run (i : Instr) (s : State)
  /-- A host action that is no operation of the table (configuration, reset): the state after it. -/
  | host (s : State)
  /-- Nothing can run. -/
  | refuse (r : Refusal)

/-- The inputs of a tick (R10): the counter value, the bytes that arrived, the arrivals during the tick, the yield
answers. Bytes of the previous tick's polls that were never asked for have arrived in the meantime: none is lost
(20_memory.md R75 (3), log entry 2). -/
def latchTick (t : Time) (arrived : List Byte) (polls : List (List Byte)) (yields : List Bool) (s : State) : State :=
  { s with now := t, src := s.src ++ s.polls.flatten ++ arrived, polls := polls, yields := yields }

/-- A tick selects its step by the value `st` has when it starts (42_frame_fsm.md R170). -/
def fetchTick (s : State) : Fetched :=
  match decode (.st s.st.code) with
  | .ok i => .run i { s with ticked := true }
  | .error _ => .refuse .reservedSelector

/-- A configuration in its range (00_scope.md R7, U15). -/
def Conf.legal (c : Conf) : Bool := decide (1 ≤ c.bufCap) && decide (1 ≤ c.drainMax) && decide (1 ≤ c.dlogCap)

/-- The host fixes the configuration (R302 (1)): before the first tick only (R303 (3), U8). The buffer of `BUF_CAP`
bytes exists from here on. -/
def configure (c : Conf) (s : State) : Fetched :=
  if s.ticked then .refuse .reconfigurationAfterFirstTick
  else if c.legal then .host { s with cfg := c, buf := Memory.restrict c.bufCap s.buf }
  else .refuse .badConfiguration

/-- A function-unit operation the host invokes (R113). -/
def fetchCall (index : BitVec 4) (args : FuArgs) (s : State) : Fetched :=
  match decode (.fu index args) with
  | .ok i => .run i s
  | .error _ => .refuse .unusedFunction

/-- The fetch: the next activation of the schedule. With an empty schedule the host ticks with the counter and the
inputs as they stand (log entry 3). -/
def fetch (s : State) : Fetched :=
  match s.sched with
  | [] => fetchTick s
  | .tick t arrived polls yields :: rest => fetchTick (latchTick t arrived polls yields { s with sched := rest })
  | .call index args :: rest => fetchCall index args { s with sched := rest }
  | .configure c :: rest => configure c { s with sched := rest }
  | .reset t0 tIdent tRead bytes :: rest =>
    .host (State.resetWith t0 tIdent tRead (Memory.ofBytes s.cfg.bufCap bytes) { s with sched := rest })

/-- Store bytes from an offset on. -/
def Memory.writes : List Host.Cell → Nat → List Byte → List Host.Cell
  | m, _, [] => m
  | m, a, b :: bs => Memory.writes (Memory.write m a b) (a + 1) bs

/-- The bytes of a word, the first word's bits lowest. -/
def wordBytes : Nat → Nat → List Byte
  | 0, _ => []
  | n + 1, w => BitVec.ofNat 8 w :: wordBytes n (w / 256)

/-- Place a selecting value where the next step fetches it (log entry 11): the state register for `ST`, the schedule for
`FU`, the byte source for `LB` and `RB`, the buffer at `cur` for `TLV` and `LN`. An element or a line is followed by a
true `yield()`, so that the step handles it alone. `bytes` are the element's bytes. -/
def placeSelector (sel : Selector) (bytes : List Byte) (s : State) : State :=
  match sel with
  | .st code =>
    match Phase.ofCode code with
    | some p => { s with sched := [], ticked := true, st := p, fmt := if p = .verify ∧ s.fmt = .none then .ascii else s.fmt }
    | none => s
  | .fu index args => { s with sched := [.call index args] }
  | .lb b => { s with sched := [], ticked := true, st := .ident, pos := 0, src := [b], polls := [] }
  | .rbArrive b => { s with sched := [], ticked := true, st := .read, tRead := s.now, src := [b], polls := [] }
  | .rbAfter f p c b =>
    { s with
      sched := [], ticked := true, st := .read, tRead := s.now, fmt := f, pos := p - 1, crcPos := c, src := [b], polls := [] }
  | .tlv tag =>
    { s with
      sched := [], ticked := true, st := .pbin, fmt := .binary, cur := 9, crcPos := 10,
      buf := Memory.writes s.buf 9 (tag :: bytes.drop 1), yields := [true] }
  | .ln line =>
    { s with
      sched := [], ticked := true, st := .pascii, fmt := .ascii, cur := 0, crcPos := line.length + 2,
      buf := Memory.writes s.buf 0 (line ++ [0x0A#8, 0x21#8]), yields := [true] }
  | .lnBound b =>
    { s with
      sched := [], ticked := true, st := .pascii, fmt := .ascii, cur := 0, crcPos := 1, buf := Memory.write s.buf 0 b }

end Sys2Proof.Machine
end

