-- ==== Sys2Proof/Machine/Operands.lean ====
section
/-! DEFINITION. The assembly of every operand from bytes and bits (30_encoding.md R105, 20_memory.md R64 to R68), the values of
43_ascii_parser.md R216 and 44_tlv_parser.md R238, R242, R243, and the constants the spec marks as its own reading (D17, D19). -/

namespace Sys2Proof.Machine

/-- `LE16` (R64): the byte at the lower offset is the less significant. -/
def le16 (b0 b1 : Byte) : BitVec 16 := b1 ++ b0

/-- `BE16` (R65): the byte at the lower offset is the more significant. -/
def be16 (b0 b1 : Byte) : BitVec 16 := b0 ++ b1

/-- `BE32` (R65). -/
def be32 (b0 b1 b2 b3 : Byte) : BitVec 32 := (b0 ++ b1 ++ b2 ++ b3 : BitVec 32)

/-- `LEN13` (R66): the low 5 bits of byte 1, then the 8 bits of byte 2. -/
def len13 (b1 b2 : Byte) : Nat := (b1.toNat % 32) * 256 + b2.toNat

/-- The format type of a binary frame (R95): bits 7:5 of byte 1. -/
def frameType (b1 : Byte) : BitVec 3 := b1.extractLsb' 5 3

/-- `HDR_SKIP` (44_tlv_parser.md R231, D17, U19): the bytes skipped from the control byte on, itself included. -/
def hdrSkip : Nat := 6

/-- The control byte of a binary frame (R231). -/
def controlByte : Byte := 0x13#8

/-- `OBIS_OFF` (44_tlv_parser.md R239, D19, U19): element offsets of major, minor and micro. -/
def majorOff : Nat := 4
def minorOff : Nat := 5
def microOff : Nat := 6

/-- The end marker of a binary frame (R96). -/
def frameEnd : Byte := 0x7E#8

/-- The exact rational a decimal denotes (R216). -/
def decimalValue (d : Decimal) : Rat := mkRat d.mant (10 ^ d.scale)

/-- `raw / 1000`, exactly (R238). -/
def u32Value (raw : BitVec 32) : Rat := mkRat raw.toNat 1000

/-- `raw / 10`, exactly, unsigned (R242). -/
def u16Value (raw : BitVec 16) : Rat := mkRat raw.toNat 10

/-- `sext_16(raw) / 10`, exactly (R243). -/
def s16Value (raw : BitVec 16) : Rat := mkRat raw.toInt 10

end Sys2Proof.Machine
end

