-- ==== Sys2Proof/Machine/Ops.lean ====
section
/-! DEFINITION. The shared operations: events, the environment primitives (00_scope.md R10), the buffer (20_memory.md R61 to R63),
changing state with its entry actions (42_frame_fsm.md R171 to R178), taking an error (60_exceptions.md R274) and returning from it
(R276), and dispatch (R197). -/

namespace Sys2Proof.Machine

/-- The outcome of an operation of this machine. -/
abbrev Out := Host.Outcome State Fault Refusal

/-- Inside a tick: go on from a state, or the tick is over with an outcome. -/
inductive Flow
  | go (s : State)
  | done (o : Out)

/-- Go on with `k` unless the tick is over. -/
def Flow.andThen (f : Flow) (k : State → Flow) : Flow :=
  match f with
  | .go s => k s
  | .done o => .done o

/-- The outcome of an operation run on its own. -/
def Flow.out : Flow → Out
  | .go s => .next s
  | .done o => o

/-! ## Events -/

/-- `emit e` (R10): the trace is in the order of emission (R75). -/
def emit (e : Event) (s : State) : State := { s with trace := s.trace ++ [e] }

/-- The numeric code of a cause in `Diag(ERROR, ..)` (30_encoding.md R111). -/
def Cause.code : Cause → Nat
  | .stall => 1
  | .lead _ => 2
  | .hdrFormat _ => 3
  | .hdrEnd _ => 4
  | .hdrCtrl => 5
  | .overrun => 6
  | .incomplete => 7
  | .crc => 8
  | .tag _ _ => 9
  | .line _ => 10
  | .obisText => 11

/-- The code of a notification channel (30_encoding.md R92). -/
def Channel.code : Channel → Nat
  | .ready => 0
  | .update => 1
  | .commError => 2

/-- What a value sink receives for a `Deliver` event: its handle and the converted value (R10, R11). -/
def Event.sinkCall : Event → Option (Nat × Nat)
  | .deliver h v => some (h, Config.toSink v)
  | .notify _ => none
  | .pass _ => none
  | .diag _ => none

/-! ## Environment primitives -/

/-- `Elapsed(a)` (R196): `(t - a) mod 2^32`. -/
def elapsed (s : State) (a : Time) : Nat := (s.now - a).toNat

/-- `avail()` (R10): the bytes that arrive before this poll join the source; true when a byte is undelivered. -/
def avail (s : State) : Bool × State :=
  match s.polls with
  | [] => (!s.src.isEmpty, s)
  | p :: ps => (!(s.src ++ p).isEmpty, { s with src := s.src ++ p, polls := ps })

/-- `Pass(b)` when the passthrough flag is set (R195). -/
def passByte (b : Byte) (s : State) : State :=
  if s.cfg.passthrough then emit (.pass b) s else s

/-- `read()` (R195): the oldest undelivered byte, removed, and passed through before anything it causes; `none` when the
source is empty, which the rules never ask (R10). -/
def readByte (s : State) : Option (Byte × State) :=
  match s.src with
  | [] => none
  | b :: bs => some (b, passByte b { s with src := bs })

/-- `yield()` (R198): the next answer; false when none is listed. -/
def yieldNow (s : State) : Bool × State :=
  match s.yields with
  | [] => (false, s)
  | y :: ys => (y, { s with yields := ys })

/-- How many bytes the polls of this tick can still deliver. -/
def arriving (s : State) : Nat := s.src.length + s.polls.flatten.length

/-! ## The receive buffer -/

/-- `BufRead(i)` (R61): the stored byte below `BUF_CAP`; at or above it an unspecified byte, a fresh draw (R62). -/
def bufRead (i : Nat) (s : State) : Byte × State :=
  if i < s.cfg.bufCap then (Memory.read s.buf i, s)
  else (Config.unspecifiedByte s.draws, { s with draws := s.draws + 1 })

/-- `n` bytes from an offset on, read one by one in rising order (R9, R61). -/
def bufReads : Nat → Nat → State → List Byte × State
  | 0, _, s => ([], s)
  | n + 1, i, s =>
    let r := bufRead i s
    let rs := bufReads n (i + 1) r.2
    (r.1 :: rs.1, rs.2)

/-- `buf[pos] <- b ; pos <- pos + 1` (R63). A write at or beyond `BUF_CAP` is never made by a run; it is a fault. -/
def storeByte (b : Byte) (s : State) : Flow :=
  if s.cfg.bufCap ≤ s.pos then .done (.fault .writeBeyondCapacity)
  else .go { s with buf := Memory.write s.buf s.pos b, pos := s.pos + 1 }

/-! ## Changing state -/

/-- The argument of `ChangeState` (R171): a state, and for `ERR` a cause. -/
inductive Target
  | ident | read | verify | pascii | pbin | wait
  | err (c : Cause)
  deriving DecidableEq, Repr

def Target.phase : Target → Phase
  | .ident => .ident
  | .read => .read
  | .verify => .verify
  | .pascii => .pascii
  | .pbin => .pbin
  | .wait => .wait
  | .err _ => .err

/-- The entry action of a state (R172 to R178); `old` is the state that is left. -/
def entryAction (old : Phase) (new : Target) (s : State) : State :=
  match new with
  | .ident =>
    emit (.notify .ready)
      { s with
        tIdent := s.now, pos := 0, crcPos := 0, cur := 0, curCode := Config.obisInvalid,
        nReadTicks := 0, nProcTicks := 0 }
  | .read => { s with tRead := s.now }
  | .verify => emit (.notify .update) s
  | .pascii => s
  | .pbin => s
  | .wait => if old = .err then s else emit (.diag (.summary s.nReadTicks s.nProcTicks)) s
  | .err c => emit (.notify .commError) (emit (.diag (.error c)) { s with tErr := s.now })

/-- `ChangeState(new)` (R171): the only writer of `st` besides reset. -/
def changeState (new : Target) (s : State) : State :=
  entryAction s.st new { s with st := new.phase }

/-- Taking an error (R274): `ChangeState(ERR, cause)`; nothing is saved. -/
def takeError (c : Cause) (s : State) : State := changeState (.err c) s

/-- `raise E(info)` (R9, R274): take the error and end the tick. -/
def raiseError (c : Cause) (s : State) : Flow := .done (.next (takeError c s))

/-- Flush the discard log (R31, R192). -/
def flushDlog (s : State) : State :=
  if s.dlog.isEmpty then s else { emit (.diag (.discard s.dlog)) s with dlog := [] }

/-- Returning from an error (R276): flush the discard log, then `ChangeState(WAIT)`; nothing is restored. -/
def returnFromError (s : State) : State := changeState .wait (flushDlog s)

/-! ## Registry lookup and dispatch -/

/-- `REG.LOOKUP` (41_obis.md R156): the sentinel never matches. -/
def regLookup (code : Code) (s : State) : Option Nat :=
  if code = Config.obisInvalid then none else Registry.find s.registry code

/-- `Dispatch(code, v)` (R197). -/
def dispatch (code : Code) (v : Rat) (s : State) : State :=
  match regLookup code s with
  | some h => emit (.deliver h v) s
  | none => emit (.diag (.noSink code)) s

end Sys2Proof.Machine
end

