-- ==== Sys2Proof/Machine/Obis.lean ====
section
/-! DEFINITION. The OBIS code codec and the registry operations (41_obis.md R150 to R157). -/

namespace Sys2Proof.Machine

/-- `OBIS.PACK` (R150): `(major & 0xFFF) << 16 | (minor & 0xFF) << 8 | (micro & 0xFF)`. -/
def obisPack (major minor micro : Nat) : Code :=
  BitVec.ofNat 32 ((major % 0x1000) * 0x10000 + (minor % 0x100) * 0x100 + micro % 0x100)

/-- `OBIS.UNPK` (R151): bits 27:16, 15:8 and 7:0; bits 31:28 are ignored. -/
def unpackMajor (code : Code) : BitVec 12 := code.extractLsb' 16 12
def unpackMinor (code : Code) : Byte := code.extractLsb' 8 8
def unpackMicro (code : Code) : Byte := code.extractLsb' 0 8

/-- `OBIS.PARSE` as a function of the text (R152). -/
def obisTextCode (text : List Byte) : Code :=
  match parseObisText text with
  | some (a, b, c) => obisPack a b c
  | none => Config.obisInvalid

/-- `OBIS.PARSE text -> code` (R152): a text that does not parse is reported. -/
def obisParse (text : List Byte) (s : State) : Code × State :=
  match parseObisText text with
  | some (a, b, c) => (obisPack a b c, s)
  | none => (Config.obisInvalid, emit (.diag (.error .obisText)) s)

/-- `REGISTRY[code] <- h` unless the key did not parse (R155). -/
def registryAdd (code : Code) (h : Nat) (s : State) : State :=
  if code = Config.obisInvalid then s else { s with registry := Registry.insert s.registry code h }

/-- `OBIS.PACK major, minor, micro -> code` invoked on its own. -/
def execObisPack (major minor micro : Nat) (s : State) : Out :=
  .next { s with result := .code (obisPack major minor micro) }

/-- `OBIS.UNPK code -> major, minor, micro` invoked on its own. -/
def execObisUnpk (code : Code) (s : State) : Out :=
  .next { s with result := .triple (unpackMajor code) (unpackMinor code) (unpackMicro code) }

/-- `OBIS.PARSE text -> code` invoked by the host. -/
def execObisParse (text : List Byte) (s : State) : Out :=
  .next { (obisParse text s).2 with result := .code (obisParse text s).1 }

/-- `REG.ADD text, h` (R155): before the first tick only; after it the spec's treatment is `refuse` (R303 (2), U7). -/
def execRegAdd (text : List Byte) (h : Nat) (s : State) : Out :=
  if s.ticked then .refused .registrationAfterFirstTick
  else .next (registryAdd (obisParse text s).1 h (obisParse text s).2)

/-- `REG.LOOKUP code -> h or none` invoked on its own (R156). -/
def execRegLookup (code : Code) (s : State) : Out := .next { s with result := .sink (regLookup code s) }

end Sys2Proof.Machine
end

