-- ==== Sys2Proof/Machine/Ascii.lean ====
section
/-! DEFINITION. The ASCII telegram line parser (43_ascii_parser.md R210 to R218). -/

namespace Sys2Proof.Machine

/-! ## The line handlers -/

/-- `LN.MEAS` (R212): pack the code, dispatch the value. `cur_code` is neither read nor written. -/
def lnMeas (major minor micro : Nat) (v : Decimal) (s : State) : State :=
  dispatch (obisPack major minor micro) (decimalValue v) s

/-- `LN.OTHER` (R213): a diagnostic and nothing else. -/
def lnOther (line : List Byte) (s : State) : State := emit (.diag (.error (.line line))) s

/-- `LN.END` (R214): `ChangeState(WAIT)`. -/
def lnEnd (s : State) : State := changeState .wait s

/-- The handler of a line of at least one byte (R210). -/
def lineAction (line : List Byte) (s : State) : State :=
  match parseMeas line with
  | some (a, b, c, v) => lnMeas a b c v s
  | none => lnOther line s

/-! ## The step -/

/-- Skip leading line terminators (R210); `n` offsets are left before `BUF_CAP`. `none` when the buffer ends. -/
def skipTerminators (m : List Host.Cell) : Nat → Nat → Option Nat
  | 0, _ => none
  | n + 1, i => if isTerminator (Memory.read m i) then skipTerminators m n (i + 1) else some i

/-- Find the byte that ends the span (R210, R211). `none` when the buffer ends. -/
def findBoundary (m : List Host.Cell) : Nat → Nat → Option Nat
  | 0, _ => none
  | n + 1, i => if isBoundary (Memory.read m i) then some i else findBoundary m n (i + 1)

/-- The stored bytes of a span. -/
def spanBytes (m : List Host.Cell) (lo hi : Nat) : List Byte :=
  (List.range (hi - lo)).map fun k => Memory.read m (lo + k)

/-- The handling of the span `[c, e)` once it is delimited (R210): the line, then the end mark or the cursor. -/
def spanAction (c e : Nat) (s : State) : Flow :=
  let s1 := { s with cur := c }
  let s2 := if e ≠ c then lineAction (spanBytes s.buf c e) s1 else s1
  if isEndMark (Memory.read s.buf e) then .done (.next (lnEnd s2)) else .go { s2 with cur := e + 1 }

/-- One round of `STEP.PASCII` (R210). -/
def asciiRound (s : State) : Flow :=
  match skipTerminators s.buf (s.cfg.bufCap - s.cur) s.cur with
  | none => .done (.fault .scanPastBuffer)
  | some c =>
    match findBoundary s.buf (s.cfg.bufCap - c) c with
    | none => .done (.fault .scanPastBuffer)
    | some e => spanAction c e s

/-- The rounds of `STEP.PASCII` until `yield()` (R210). Every round moves `cur` forward; `fuel` exceeds the offsets left. -/
def asciiLoop : Nat → State → Flow
  | 0, _ => .done (.fault .scanPastBuffer)
  | fuel + 1, s =>
    (asciiRound s).andThen fun s1 =>
      match yieldNow s1 with
      | (true, s2) => .done (.next s2)
      | (false, s2) => asciiLoop fuel s2

/-- `STEP.PASCII` (R210). -/
def stepPascii (s : State) : Out :=
  (asciiLoop (s.cfg.bufCap - s.cur + 1) { s with nProcTicks := s.nProcTicks + 1 }).out

/-! ## The meanings -/

def execStepPascii (s : State) : Out := stepPascii s

/-- `LN.MEAS` on its own. -/
def execLnMeas (major minor micro : Nat) (v : Decimal) (s : State) : Out := .next (lnMeas major minor micro v s)

/-- `LN.OTHER` on its own. -/
def execLnOther (line : List Byte) (s : State) : Out := .next (lnOther line s)

/-- `LN.END` on its own; both end marks act alike. -/
def execLnEnd (_mark : Byte) (s : State) : Out := .next (lnEnd s)

end Sys2Proof.Machine
end

