-- ==== Sys2Proof/Machine/Crc.lean ====
section
/-! DEFINITION. The checksum engine (40_crc.md R130 to R139). -/

namespace Sys2Proof.Machine

/-- One shift step of a reflected CRC (R138): toward bit 0, with the polynomial when bit 0 was 1. -/
def crcShift (poly x : Crc) : Crc := if x.getLsbD 0 then (x >>> 1) ^^^ poly else x >>> 1

/-- A byte enters the low 8 bits, then eight shift steps (R138). -/
def crcUpd (poly c : Crc) (b : Byte) : Crc :=
  (crcShift poly (crcShift poly (crcShift poly (crcShift poly
    (crcShift poly (crcShift poly (crcShift poly (crcShift poly (c ^^^ b.setWidth 16)))))))))

/-- The reflected polynomial of CRCA (R130). -/
def polyA : Crc := 0xA001#16

/-- The reflected polynomial of CRCX (R132). -/
def polyX : Crc := 0x8408#16

/-- `CRCA.UPD` (R130). -/
def crcaUpd (c : Crc) (b : Byte) : Crc := crcUpd polyA c b

/-- `CRCX.UPD` (R132). -/
def crcxUpd (c : Crc) (b : Byte) : Crc := crcUpd polyX c b

/-- `CRCA` of a byte sequence (R131): seed 0x0000, no final exclusive-or. -/
def crcaBytes (bs : List Byte) : Crc := bs.foldl crcaUpd 0x0000#16

/-- `CRCX` of a byte sequence (R133): seed 0xFFFF, output exclusive-ored with 0xFFFF. -/
def crcxBytes (bs : List Byte) : Crc := bs.foldl crcxUpd 0xFFFF#16 ^^^ 0xFFFF#16

/-- The loop of R131 over `n` offsets from `i` on: the accumulator `crcA` takes one byte per round. -/
def crcaLoop : Nat → Nat → State → State
  | 0, _, s => s
  | n + 1, i, s =>
    let r := bufRead i s
    crcaLoop n (i + 1) { r.2 with crcA := r.2.crcA.map fun c => crcaUpd c r.1 }

/-- `CRCA.RNG lo, hi` (R131): the accumulator is created at the seed and does not outlive the call (R33). -/
def crcaRange (lo hi : Nat) (s : State) : Crc × State :=
  let t := crcaLoop (hi - lo) lo { s with crcA := some 0x0000#16 }
  (t.crcA.getD 0x0000#16, { t with crcA := none })

/-- The loop of R133. -/
def crcxLoop : Nat → Nat → State → State
  | 0, _, s => s
  | n + 1, i, s =>
    let r := bufRead i s
    crcxLoop n (i + 1) { r.2 with crcX := r.2.crcX.map fun c => crcxUpd c r.1 }

/-- `CRCX.RNG lo, hi` (R133). -/
def crcxRange (lo hi : Nat) (s : State) : Crc × State :=
  let t := crcxLoop (hi - lo) lo { s with crcX := some 0xFFFF#16 }
  (t.crcX.getD 0xFFFF#16 ^^^ 0xFFFF#16, { t with crcX := none })

/-- `CRCA.UPD c, b -> c'` invoked by the host: the result goes to the result port (log entry 10). -/
def execCrcaUpd (c : Crc) (b : Byte) (s : State) : Out := .next { s with result := .crc (crcaUpd c b) }

/-- `CRCA.RNG lo, hi -> r` invoked by the host. -/
def execCrcaRng (lo hi : Nat) (s : State) : Out :=
  .next { (crcaRange lo hi s).2 with result := .crc (crcaRange lo hi s).1 }

/-- `CRCX.UPD c, b -> c'` invoked by the host. -/
def execCrcxUpd (c : Crc) (b : Byte) (s : State) : Out := .next { s with result := .crc (crcxUpd c b) }

/-- `CRCX.RNG lo, hi -> r` invoked by the host. -/
def execCrcxRng (lo hi : Nat) (s : State) : Out :=
  .next { (crcxRange lo hi s).2 with result := .crc (crcxRange lo hi s).1 }

end Sys2Proof.Machine
end

