-- ==== Sys2Proof/Machine/Reading.lean ====
section
/-! DEFINITION. The lead-byte operations (30_encoding.md R93, 42_frame_fsm.md R179) and the reading-phase byte actions
(42_frame_fsm.md R182 to R186). -/

namespace Sys2Proof.Machine

/-- `LB.ASCII` (R93): `fmt <- ASCII`. -/
def lbAscii (s : State) : Flow := .go { s with fmt := .ascii }

/-- `LB.BINARY` (R93): `fmt <- BINARY`. -/
def lbBinary (s : State) : Flow := .go { s with fmt := .binary }

/-- `LB.ILLEGAL` (R93, R262): the byte is consumed and not stored. -/
def lbIllegal (b : Byte) (s : State) : Flow := raiseError (.lead b) s

/-- The operation a lead byte selects (R93). -/
def lbAction (b : Byte) (s : State) : Flow :=
  match leadClass b with
  | .ascii => lbAscii s
  | .binary => lbBinary s
  | .illegal => lbIllegal b s

/-- `RB.APPEND` (R182): overrun is tested before the read; then the byte is read and stored. -/
def rbAppend (b : Byte) (s : State) : Flow :=
  if s.pos = s.cfg.bufCap then raiseError .overrun s
  else
    match readByte s with
    | some (x, s1) => if x = b then storeByte b s1 else .done (.refused .readWithoutByte)
    | none => .done (.refused .readWithoutByte)

/-- `RB.MARK` (R183): `crc_pos <- pos`. -/
def rbMark (s : State) : Flow := .go { s with crcPos := (s.pos : Int) }

/-- `RB.HDR` (R184): check the format type of `buf[1]`, then `crc_pos <- LEN13 - 1`. -/
def rbHdr (s : State) : Flow :=
  let r1 := bufRead 1 s
  if frameType r1.1 ≠ 0b101#3 then raiseError (.hdrFormat r1.1) r1.2
  else
    let r2 := bufRead 2 r1.2
    .go { r2.2 with crcPos := (len13 r1.1 r2.1 : Int) - 1 }

/-- `RB.END.A` (R185): the frame is complete. -/
def rbEndA (s : State) : Flow := .done (.next (changeState .verify s))

/-- `RB.END.B` (R186): the byte must be the end marker. -/
def rbEndB (b : Byte) (s : State) : Flow :=
  if b = frameEnd then .done (.next (changeState .verify s)) else raiseError (.hdrEnd b) s

/-- The action on a byte after its append (R94, R181). -/
def rbAction (b : Byte) (s : State) : Flow :=
  match rbClass s.fmt s.pos s.crcPos b with
  | .mark => rbMark s
  | .hdr => rbHdr s
  | .endA => rbEndA s
  | .endB => rbEndB b s
  | .data => .go s

/-- `LB.ASCII` on its own. -/
def execLbAscii (s : State) : Out := (lbAscii s).out

/-- `LB.BINARY` on its own. -/
def execLbBinary (s : State) : Out := (lbBinary s).out

/-- `LB.ILLEGAL` on its own. -/
def execLbIllegal (b : Byte) (s : State) : Out := (lbIllegal b s).out

/-- `RB.APPEND` on its own. -/
def execRbAppend (b : Byte) (s : State) : Out := (rbAppend b s).out

/-- `RB.MARK` on its own. -/
def execRbMark (s : State) : Out := (rbMark s).out

/-- `RB.HDR` on its own; the operand is the byte just appended, read back as `buf[2]`. -/
def execRbHdr (_b : Byte) (s : State) : Out := (rbHdr s).out

/-- `RB.END.A` on its own. -/
def execRbEndA (s : State) : Out := (rbEndA s).out

/-- `RB.END.B` on its own. -/
def execRbEndB (b : Byte) (s : State) : Out := (rbEndB b s).out

end Sys2Proof.Machine
end

