-- ==== Sys2Proof/Machine/Fsm.lean ====
section
/-! DEFINITION. The steps of the five states that are not decoders (42_frame_fsm.md R179 to R192). -/

namespace Sys2Proof.Machine

/-! ## READING_MESSAGE -/

/-- The loop of `STEP.READ` (R181): while a byte is available, append it and act on it. `fuel` exceeds the number of
bytes that can still arrive, one of which every round consumes. -/
def readLoop : Nat → State → Flow
  | 0, s => .go s
  | fuel + 1, s =>
    match avail s with
    | (false, s1) => .go s1
    | (true, s1) =>
      match s1.src with
      | [] => .done (.refused .readWithoutByte)
      | b :: _ => (rbAppend b s1).andThen fun s2 => (rbAction b s2).andThen fun s3 => readLoop fuel s3

/-- The reading timeout (R187): tested after the loop of a tick that has not ended. -/
def readTimeout (s : State) : State :=
  if elapsed s s.tRead > Config.readTimeoutMs then takeError .incomplete s else s

/-- `STEP.READ` (R181). -/
def stepRead (s : State) : Out :=
  match readLoop (arriving s + 1) { s with nReadTicks := s.nReadTicks + 1 } with
  | .go s1 => .next (readTimeout s1)
  | .done o => o

/-! ## IDENTIFYING_MESSAGE -/

/-- `STEP.IDENT` (R179), with the fall-through into `STEP.READ` (R180). -/
def stepIdent (s : State) : Out :=
  match avail s with
  | (false, s1) =>
    if elapsed s1 s1.tIdent > Config.identTimeoutMs then .next (takeError .stall s1) else .next s1
  | (true, s1) =>
    match readByte s1 with
    | none => .refused .readWithoutByte
    | some (b, s2) =>
      match (lbAction b s2).andThen (storeByte b) with
      | .go s3 => stepRead (changeState .read s3)
      | .done o => o

/-! ## VERIFYING_CRC -/

/-- The hex text at an offset (R103, R188): the value of the digits read so far, `none` before the first; `n` offsets are
left before `BUF_CAP`. The result is `none` when the text runs to the end of the buffer, which no frame's does. -/
def hexScan (m : List Host.Cell) : Nat → Nat → Option Nat → Option (Option Nat)
  | 0, _, _ => none
  | n + 1, i, v =>
    match hexDigit (Memory.read m i) with
    | some d => hexScan m n (i + 1) (some (16 * v.getD 0 + d))
    | none => some v

/-- The outcome of the verification (R190). -/
def verifyOutcome (computed : Crc) (expected : Option Nat) (dest : Target) (s : State) : State :=
  if expected = some computed.toNat then changeState dest s
  else
    let r := bufReads s.pos 0 s
    takeError .crc (emit (.diag (.crcMismatch computed expected r.1)) r.2)

/-- `STEP.VERIFY`, ASCII part (R188). -/
def verifyAscii (s : State) : Out :=
  let p := s.crcPos.toNat
  match hexScan s.buf (s.cfg.bufCap - p) p none with
  | none => .fault .scanPastBuffer
  | some expected =>
    let r := crcaRange 0 p s
    .next (verifyOutcome r.1 expected .pascii r.2)

/-- `STEP.VERIFY`, binary part (R189). -/
def verifyBinary (s : State) : Out :=
  let p := s.crcPos.toNat
  let b0 := bufRead p s
  let b1 := bufRead (p + 1) b0.2
  let r := crcxRange 1 p b1.2
  .next (verifyOutcome r.1 (some (le16 b0.1 b1.1).toNat) .pbin r.2)

/-- `STEP.VERIFY` (R188 to R190). `fmt` is ASCII or BINARY and `crc_pos >= 1` in every state a run reaches (R24). -/
def stepVerify (s : State) : Out :=
  if s.crcPos < 0 then .fault .negativeOffset
  else
    match s.fmt with
    | .ascii => verifyAscii s
    | .binary => verifyBinary s
    | .none => .fault .verifyWithoutFormat

/-! ## WAITING -/

/-- `STEP.WAIT` (R191). -/
def stepWait (s : State) : Out :=
  if s.cfg.minPeriod.toNat ≤ elapsed s s.tIdent then .next (changeState .ident s) else .next s

/-! ## ERROR_RECOVERY -/

/-- Discard one byte into the log, flushing a full log first (R192). -/
def discardByte (b : Byte) (s : State) : State :=
  let s1 := if s.dlog.length = s.cfg.dlogCap then flushDlog s else s
  { s1 with dlog := s1.dlog ++ [b] }

/-- The loop of `STEP.ERR` (R192): `avail()` is asked before the bound is tested. The number is of the bytes discarded. -/
def drainLoop : Nat → State → Nat × State
  | 0, s => (0, (avail s).2)
  | k + 1, s =>
    match avail s with
    | (false, s1) => (0, s1)
    | (true, s1) =>
      match readByte s1 with
      | none => (0, s1)
      | some (b, s2) =>
        let r := drainLoop k (discardByte b s2)
        (r.1 + 1, r.2)

/-- `STEP.ERR` (R192). -/
def stepErr (s : State) : Out :=
  let r := drainLoop s.cfg.drainMax s
  if 0 < r.1 then .next { r.2 with tErr := r.2.now }
  else if Config.quietMs ≤ elapsed r.2 r.2.tErr then .next (returnFromError r.2)
  else .next r.2

/-! ## The meanings -/

def execStepIdent (s : State) : Out := stepIdent s
def execStepRead (s : State) : Out := stepRead s
def execStepVerify (s : State) : Out := stepVerify s
def execStepWait (s : State) : Out := stepWait s
def execStepErr (s : State) : Out := stepErr s

end Sys2Proof.Machine
end

