-- ==== Sys2Proof/Machine/Tlv.lean ====
section
/-! DEFINITION. The binary tag-length-value parser (44_tlv_parser.md R230 to R248). -/

namespace Sys2Proof.Machine

/-- `cur <- cur + n`. -/
def advance (n : Nat) (s : State) : State := { s with cur := s.cur + n }

/-- `BE16(i)` from the buffer (R65), read in rising order. -/
def readBe16 (i : Nat) (s : State) : BitVec 16 × State :=
  let r0 := bufRead i s
  let r1 := bufRead (i + 1) r0.2
  (be16 r0.1 r1.1, r1.2)

/-- `BE32(i)` from the buffer (R65), read in rising order. -/
def readBe32 (i : Nat) (s : State) : BitVec 32 × State :=
  let r0 := bufRead i s
  let r1 := bufRead (i + 1) r0.2
  let r2 := bufRead (i + 2) r1.2
  let r3 := bufRead (i + 3) r2.2
  (be32 r0.1 r1.1 r2.1 r3.1, r3.2)

/-! ## The element handlers -/

/-- `T.NULL` (R233). -/
def tNull (s : State) : State := advance 1 s

/-- `T.ARRAY` (R234): the count byte is not read. -/
def tArray (s : State) : State := advance 2 s

/-- `T.STRUCT` (R235): the member count is not read. -/
def tStruct (s : State) : State := advance 2 s

/-- `T.SCALUNIT` (R236): the scaler byte is not read. -/
def tScalunit (s : State) : State := advance 2 s

/-- `T.ENUM` (R237): the unit byte is not read. -/
def tEnum (s : State) : State := advance 2 s

/-- `T.STRING` (R240): `cur <- cur + 2 + L`. -/
def tString (s : State) : State :=
  let r := bufRead (s.cur + 1) s
  advance (2 + r.1.toNat) r.2

/-- `T.DATETIME` (R241): the tag and twelve bytes. -/
def tDatetime (s : State) : State := advance 13 s

/-- `cur_code` from the three bytes of a length-6 octet string (R239). -/
def rememberCode (s : State) : State :=
  let a := bufRead (s.cur + majorOff) s
  let b := bufRead (s.cur + minorOff) a.2
  let c := bufRead (s.cur + microOff) b.2
  { c.2 with curCode := obisPack a.1.toNat b.1.toNat c.1.toNat }

/-- `T.OCTET` (R239). -/
def tOctet (s : State) : State :=
  let r := bufRead (s.cur + 1) s
  advance (2 + r.1.toNat) (if r.1 = 6#8 then rememberCode r.2 else r.2)

/-- `T.U32` (R238): dispatch `raw / 1000`, advance 5. -/
def tU32 (s : State) : State :=
  let r := readBe32 (s.cur + 1) s
  advance 5 (dispatch r.2.curCode (u32Value r.1) r.2)

/-- `T.U16` (R242): dispatch `raw / 10`, advance 3. -/
def tU16 (s : State) : State :=
  let r := readBe16 (s.cur + 1) s
  advance 3 (dispatch r.2.curCode (u16Value r.1) r.2)

/-- `T.S16` (R243): dispatch the sign-extended `raw / 10`, advance 3. -/
def tS16 (s : State) : State :=
  let r := readBe16 (s.cur + 1) s
  advance 3 (dispatch r.2.curCode (s16Value r.1) r.2)

/-- `T.ILLEGAL` (R244): `raise EC_TAG(tag, cur)`; `cur` stays. -/
def tIllegal (tag : Byte) (s : State) : Flow := raiseError (.tag tag s.cur) s

/-- The handler a tag byte selects (R97). -/
def tlvAction (tag : Byte) (s : State) : Flow :=
  match tlvTag tag with
  | .null => .go (tNull s)
  | .array => .go (tArray s)
  | .struct => .go (tStruct s)
  | .u32 => .go (tU32 s)
  | .octet => .go (tOctet s)
  | .string => .go (tString s)
  | .datetime => .go (tDatetime s)
  | .scalunit => .go (tScalunit s)
  | .u16 => .go (tU16 s)
  | .s16 => .go (tS16 s)
  | .enum => .go (tEnum s)
  | .illegal => tIllegal tag s

/-! ## The step -/

/-- The scan for the control byte (R231): `n` offsets are left before `crc_pos`; the cursor stops at the control byte
or at the end of the scan. -/
def controlScan : Nat → State → State
  | 0, s => s
  | n + 1, s =>
    let r := bufRead s.cur s
    if r.1 = controlByte then r.2 else controlScan n (advance 1 r.2)

/-- Locating the first element (R231). -/
def locateFirst (s : State) : Flow :=
  let s1 := controlScan (s.crcPos - 3).toNat { s with cur := 3 }
  if cursorAtEnd s1.cur s1.crcPos then raiseError .hdrCtrl s1 else .go (advance hdrSkip s1)

/-- One round of `STEP.PBIN` (R230): the end test, then the element at the cursor. -/
def tlvRound (s : State) : Flow :=
  if cursorAtEnd s.cur s.crcPos then .done (.next (changeState .wait s))
  else
    let r := bufRead s.cur s
    tlvAction r.1 r.2

/-- The rounds of `STEP.PBIN` until `yield()` (R230). Every element moves `cur` forward; `fuel` exceeds the offsets left
before `crc_pos`. DESIGN CHOICE: a true `yield()` after the element that carries `cur` to or past `crc_pos` ends the tick in
`PBIN`, as R230 and R198 say, though the row of 42_frame_fsm.md R193 names only `cur < crc_pos` (log entry 29). -/
def tlvLoop : Nat → State → Flow
  | 0, s => .go s
  | fuel + 1, s =>
    (tlvRound s).andThen fun s1 =>
      match yieldNow s1 with
      | (true, s2) => .done (.next s2)
      | (false, s2) => tlvLoop fuel s2

/-- `STEP.PBIN` (R230). -/
def stepPbin (s : State) : Out :=
  let s1 := { s with nProcTicks := s.nProcTicks + 1 }
  let f := if headerNotLocated s1.cur then locateFirst s1 else .go s1
  (f.andThen fun s2 => tlvLoop ((s2.crcPos - s2.cur).toNat + 1) s2).out

/-! ## The meanings -/

def execStepPbin (s : State) : Out := stepPbin s
def execTNull (s : State) : Out := .next (tNull s)
def execTArray (s : State) : Out := .next (tArray s)
def execTStruct (s : State) : Out := .next (tStruct s)
def execTU32 (s : State) : Out := .next (tU32 s)
def execTOctet (s : State) : Out := .next (tOctet s)
def execTString (s : State) : Out := .next (tString s)
def execTDatetime (s : State) : Out := .next (tDatetime s)
def execTScalunit (s : State) : Out := .next (tScalunit s)
def execTU16 (s : State) : Out := .next (tU16 s)
def execTS16 (s : State) : Out := .next (tS16 s)
def execTEnum (s : State) : Out := .next (tEnum s)
def execTIllegal (tag : Byte) (s : State) : Out := (tIllegal tag s).out

end Sys2Proof.Machine
end

