-- ==== Sys2Proof/Machine/Dispatch.lean ====
section
/-! DEFINITION. From an operation to its meaning, one arm per constructor of Instr. -/

namespace Sys2Proof.Machine

def exec (i : Instr) (s : State) : Host.Outcome State Fault Refusal :=
  match i with
  | .crcaUpd c b => Sys2Proof.Machine.execCrcaUpd c b s
  | .crcaRng lo hi => Sys2Proof.Machine.execCrcaRng lo hi s
  | .crcxUpd c b => Sys2Proof.Machine.execCrcxUpd c b s
  | .crcxRng lo hi => Sys2Proof.Machine.execCrcxRng lo hi s
  | .obisPack major minor micro => Sys2Proof.Machine.execObisPack major minor micro s
  | .obisUnpk code => Sys2Proof.Machine.execObisUnpk code s
  | .obisParse text => Sys2Proof.Machine.execObisParse text s
  | .regAdd text h => Sys2Proof.Machine.execRegAdd text h s
  | .regLookup code => Sys2Proof.Machine.execRegLookup code s
  | .stepIdent => Sys2Proof.Machine.execStepIdent s
  | .stepRead => Sys2Proof.Machine.execStepRead s
  | .stepVerify => Sys2Proof.Machine.execStepVerify s
  | .stepPascii => Sys2Proof.Machine.execStepPascii s
  | .stepPbin => Sys2Proof.Machine.execStepPbin s
  | .stepWait => Sys2Proof.Machine.execStepWait s
  | .stepErr => Sys2Proof.Machine.execStepErr s
  | .lbAscii => Sys2Proof.Machine.execLbAscii s
  | .lbBinary => Sys2Proof.Machine.execLbBinary s
  | .lbIllegal b => Sys2Proof.Machine.execLbIllegal b s
  | .rbAppend b => Sys2Proof.Machine.execRbAppend b s
  | .rbMark => Sys2Proof.Machine.execRbMark s
  | .rbHdr b => Sys2Proof.Machine.execRbHdr b s
  | .rbEndA => Sys2Proof.Machine.execRbEndA s
  | .rbEndB b => Sys2Proof.Machine.execRbEndB b s
  | .tNull => Sys2Proof.Machine.execTNull s
  | .tArray => Sys2Proof.Machine.execTArray s
  | .tStruct => Sys2Proof.Machine.execTStruct s
  | .tU32 => Sys2Proof.Machine.execTU32 s
  | .tOctet => Sys2Proof.Machine.execTOctet s
  | .tString => Sys2Proof.Machine.execTString s
  | .tDatetime => Sys2Proof.Machine.execTDatetime s
  | .tScalunit => Sys2Proof.Machine.execTScalunit s
  | .tU16 => Sys2Proof.Machine.execTU16 s
  | .tS16 => Sys2Proof.Machine.execTS16 s
  | .tEnum => Sys2Proof.Machine.execTEnum s
  | .tIllegal tag => Sys2Proof.Machine.execTIllegal tag s
  | .lnMeas major minor micro value => Sys2Proof.Machine.execLnMeas major minor micro value s
  | .lnOther line => Sys2Proof.Machine.execLnOther line s
  | .lnEnd mark => Sys2Proof.Machine.execLnEnd mark s

end Sys2Proof.Machine
end

