-- ==== Sys2Proof/Machine/Step.lean ====
section
/-! DEFINITION. One step: fetch what the host's schedule selects and run it. -/

namespace Sys2Proof.Machine

/-- One activation of the block (00_scope.md R3): a tick, a function-unit call, or a host action. -/
def step (s : State) : Host.Outcome State Fault Refusal :=
  match fetch s with
  | .run i s1 => exec i s1
  | .host s1 => .next s1
  | .refuse r => .refused r

/-- The state with a word of opcode_table.json placed where `step` fetches its next instruction (log entry 11). -/
def State.withFetchWord (s : State) (nbits w : Nat) : State :=
  placeSelector (tableSelector nbits w) (wordBytes ((nbits + 7) / 8) w) s

end Sys2Proof.Machine
end

