-- ==== Sys2Proof/Safety.lean ====
section
/-! DEFINITION. What a safe run is, in the terms the statements use: the invariant of 10_state.md R37 with the frame
invariants of R24 and R25, what a tick's trace holds, and the views of a state that the whole-machine rules compare. -/

namespace Sys2Proof.Machine

/-- A byte of the receive buffer below `BUF_CAP`. -/
abbrev State.at (s : State) (i : Nat) : Byte := Memory.read s.buf i

/-- What is in the buffer while a frame is read (10_state.md R37 (3), R24): the lead byte agrees with `fmt`; an ASCII
`crc_pos` stands behind a `!`; a binary `crc_pos` is the header's, and the end marker is not yet due. -/
def ReadingInv (s : State) : Prop :=
  1 ≤ s.pos ∧ s.cur = 0 ∧ s.curCode = Config.obisInvalid ∧
  ((s.fmt = .ascii ∧ s.at 0 = 0x2F#8 ∧
      (s.crcPos = 0 ∨ (2 ≤ s.crcPos ∧ s.crcPos ≤ s.pos ∧ s.at (s.crcPos.toNat - 1) = 0x21#8))) ∨
   (s.fmt = .binary ∧ s.at 0 = 0x7E#8 ∧ (s.pos < 3 → s.crcPos = 0) ∧
      (3 ≤ s.pos → frameType (s.at 1) = 0b101#3 ∧ s.crcPos = (len13 (s.at 1) (s.at 2) : Int) - 1 ∧
        (0 < s.crcPos → (s.pos : Int) < s.crcPos + 3))))

/-- A complete frame in the buffer (10_state.md R24, 20_memory.md R73, R74). -/
def FrameInv (s : State) : Prop :=
  1 ≤ s.crcPos ∧ s.crcPos < s.pos ∧
  ((s.fmt = .ascii ∧ s.at 0 = 0x2F#8 ∧ s.at (s.crcPos.toNat - 1) = 0x21#8 ∧ s.at (s.pos - 1) = 0x0A#8) ∨
   (s.fmt = .binary ∧ (s.pos : Int) = s.crcPos + 3 ∧ s.at 0 = 0x7E#8 ∧ s.at (s.crcPos.toNat + 2) = 0x7E#8 ∧
      frameType (s.at 1) = 0b101#3 ∧ s.crcPos = (len13 (s.at 1) (s.at 2) : Int) - 1))

/-- What each state of the frame machine holds (10_state.md R37 (2) to (4), R25). -/
def PhaseInv (s : State) : Prop :=
  match s.st with
  | .ident => s.pos = 0 ∧ s.crcPos = 0 ∧ s.cur = 0 ∧ s.curCode = Config.obisInvalid
  | .read => ReadingInv s
  | .verify => FrameInv s ∧ s.cur = 0 ∧ s.curCode = Config.obisInvalid
  | .pascii => FrameInv s ∧ s.fmt = .ascii ∧ (s.cur : Int) + 1 ≤ s.crcPos
  | .pbin => FrameInv s ∧ s.fmt = .binary ∧ (s.cur = 0 ∨ 9 ≤ s.cur) ∧ s.cur ≤ 8446
  | .wait => True
  | .err => True

/-- The invariant of a state between two activations (10_state.md R37). -/
structure Inv (s : State) : Prop where
  /-- R7: the configuration is in its range. -/
  cfgLegal : s.cfg.legal = true
  /-- The buffer is in canonical form, inside `BUF_CAP`. -/
  bufWf : Memory.wf s.buf = true
  bufBelow : Memory.below s.cfg.bufCap s.buf = true
  /-- The registry is in canonical form; R37 (7): no entry at the sentinel. -/
  regWf : Registry.wf s.registry = true
  regSentinel : Registry.find s.registry Config.obisInvalid = none
  /-- R37 (1). -/
  posBound : s.pos ≤ s.cfg.bufCap
  /-- R37 (6). -/
  dlogEmpty : s.st ≠ .err → s.dlog = []
  /-- R31. -/
  dlogBound : s.dlog.length ≤ s.cfg.dlogCap
  /-- R33: no accumulator exists between operations. -/
  noAcc : s.crcA = none ∧ s.crcX = none
  /-- R300: before the first tick the machine is as reset left it. -/
  boot : s.ticked = false → s.st = .err ∧ s.pos = 0 ∧ s.dlog = []
  /-- R37 (2) to (4). -/
  phase : PhaseInv s

/-- The next activation is a tick (42_frame_fsm.md R170): from the schedule, or with an empty schedule. -/
def nextIsTick (s : State) : Bool :=
  match s.sched with
  | [] => true
  | .tick _ _ _ _ :: _ => true
  | .call _ _ :: _ => false
  | .configure _ :: _ => false
  | .reset _ _ _ _ :: _ => false

/-- The deliveries of a trace, in order (00_scope.md R10). -/
def deliveries : List Event → List (Nat × Rat)
  | [] => []
  | .deliver h v :: es => (h, v) :: deliveries es
  | .notify _ :: es => deliveries es
  | .pass _ :: es => deliveries es
  | .diag _ :: es => deliveries es

/-- The notifications of a trace, in order. -/
def notifications : List Event → List Channel
  | [] => []
  | .notify k :: es => k :: notifications es
  | .deliver _ _ :: es => notifications es
  | .pass _ :: es => notifications es
  | .diag _ :: es => notifications es

/-- Whether an event is a `Pass`. -/
def Event.isPass : Event → Bool
  | .pass _ => true
  | .notify _ => false
  | .deliver _ _ => false
  | .diag _ => false

/-- The state without the passthrough side channel: the flag off and no `Pass` in the trace (42_frame_fsm.md R195). -/
def State.withoutPass (s : State) : State :=
  { s with cfg := { s.cfg with passthrough := false }, trace := s.trace.filter fun e => !e.isPass }

/-- A function of the state applied to an outcome's next state. -/
def mapNext (f : State → State) : Out → Out
  | .next s => .next (f s)
  | .fault r => .fault r
  | .refused r => .refused r

/-- The bytes of the buffer from `lo` up to, not including, `hi`. -/
def State.bytes (s : State) (lo hi : Nat) : List Byte := (List.range (hi - lo)).map fun k => s.at (lo + k)

/-- The natural number a digit string denotes, written with the library's positional value (30_encoding.md R100). -/
def decimalNat (ds : List Byte) : Nat := Nat.ofDigits 10 (ds.reverse.map fun d => d.toNat - 0x30)

/-- A DEC (30_encoding.md R100): one or more digits. -/
def isDec (ds : List Byte) : Prop := ds ≠ [] ∧ ∀ d ∈ ds, isDigit d = true

/-- The event a dispatch emits (42_frame_fsm.md R197): at the sentinel none is registered (41_obis.md R156). -/
def dispatchEvent (s : State) (code : Code) (v : Rat) : Event :=
  match (if code = Config.obisInvalid then none else Registry.find s.registry code) with
  | some h => .deliver h v
  | none => .diag (.noSink code)

end Sys2Proof.Machine
end

