-- ==== Sys2Proof/WellFormed.lean ====
section
/-! DEFINITION. Which terms of `Instr` are operations the block can select: the operand of a default row is not a value
another row takes (30_encoding.md R106), a line is a line (43_ascii_parser.md R211), an end mark is one (R104), a range is a range
(40_crc.md R131). -/

namespace Sys2Proof

/-- The byte of LB.ILLEGAL is neither lead byte (R93). -/
def wfLead (b : Byte) : Bool := decide (leadClass b = .illegal)

/-- The tag of T.ILLEGAL is none of the eleven (R97, R244). -/
def wfTag (tag : Byte) : Bool := decide (tlvTag tag = .illegal)

/-- A line of LN.OTHER is not empty, holds no boundary and is no measurement line (R211, R213). -/
def wfOther (line : List Byte) : Bool :=
  !line.isEmpty && !line.any isBoundary && (parseMeas line).isNone

/-- A range of a CRC function has `lo <= hi` (R131); that `hi <= BUF_CAP` depends on the machine. -/
def wfRange (lo hi : Nat) : Bool := decide (lo ≤ hi)

/-- The check of every instruction. -/
def wellFormed : Instr → Bool
  | .crcaRng lo hi => wfRange lo hi
  | .crcxRng lo hi => wfRange lo hi
  | .lbIllegal b => wfLead b
  | .tIllegal tag => wfTag tag
  | .lnOther line => wfOther line
  | .lnEnd mark => isEndMark mark
  | .crcaUpd _ _ => true
  | .crcxUpd _ _ => true
  | .obisPack _ _ _ => true
  | .obisUnpk _ => true
  | .obisParse _ => true
  | .regAdd _ _ => true
  | .regLookup _ => true
  | .stepIdent => true
  | .stepRead => true
  | .stepVerify => true
  | .stepPascii => true
  | .stepPbin => true
  | .stepWait => true
  | .stepErr => true
  | .lbAscii => true
  | .lbBinary => true
  | .rbAppend _ => true
  | .rbMark => true
  | .rbHdr _ => true
  | .rbEndA => true
  | .rbEndB _ => true
  | .tNull => true
  | .tArray => true
  | .tStruct => true
  | .tU32 => true
  | .tOctet => true
  | .tString => true
  | .tDatetime => true
  | .tScalunit => true
  | .tU16 => true
  | .tS16 => true
  | .tEnum => true
  | .lnMeas _ _ _ _ => true

end Sys2Proof
end

