-- ==== Sys2Proof/Certificates/Slice0/Obligations.lean ====
section
/-! DEFINITION. The statements for the provers, about the machine and about no program. Each docstring names the rules of
spec/ it formalises. `exec i s = .next t` with `t` written as an update of `s` says the result and the frame at once:
every field the update does not name, the buffer among them, is unchanged. -/

open Sys2Proof Sys2Proof.Machine

/-! ## Reset, the invariant, every tick completes -/

/-- 70_reset_and_hazards.md R300: the reset column, every draw an argument; nothing is emitted, the configuration and the registry
stay. -/
def Obligations.ResetLoadsTheResetColumn : Prop :=
  ∀ (t0 tIdent tRead : Time) (buf : List Host.Cell) (s : State),
    (s.resetWith t0 tIdent tRead buf).st.code = 6#3 ∧
    (s.resetWith t0 tIdent tRead buf).fmt.code = 0#2 ∧
    (s.resetWith t0 tIdent tRead buf).pos = 0 ∧
    (s.resetWith t0 tIdent tRead buf).crcPos = 0 ∧
    (s.resetWith t0 tIdent tRead buf).cur = 0 ∧
    (s.resetWith t0 tIdent tRead buf).curCode = 0xFFFFFFFF#32 ∧
    (s.resetWith t0 tIdent tRead buf).tErr = t0 ∧
    (s.resetWith t0 tIdent tRead buf).dlog = [] ∧
    (s.resetWith t0 tIdent tRead buf).nReadTicks = 0 ∧
    (s.resetWith t0 tIdent tRead buf).nProcTicks = 0 ∧
    (s.resetWith t0 tIdent tRead buf).tIdent = tIdent ∧
    (s.resetWith t0 tIdent tRead buf).tRead = tRead ∧
    (s.resetWith t0 tIdent tRead buf).buf = buf ∧
    (s.resetWith t0 tIdent tRead buf).crcA = none ∧
    (s.resetWith t0 tIdent tRead buf).crcX = none ∧
    (s.resetWith t0 tIdent tRead buf).cfg = s.cfg ∧
    (s.resetWith t0 tIdent tRead buf).registry = s.registry ∧
    (s.resetWith t0 tIdent tRead buf).trace = s.trace

/-- The invariant holds at `State.reset`, and after a reset with any draws of a state that has it. -/
def Obligations.ResetMeetsTheInvariant : Prop :=
  Inv State.reset ∧
  ∀ (s : State) (t0 tIdent tRead : Time) (bytes : List Byte), Inv s →
    Inv (s.resetWith t0 tIdent tRead (Memory.ofBytes s.cfg.bufCap bytes))

/-- 10_state.md R37 (1) to (4), (6), (7), R24, R25: every step, whatever the host does, keeps the invariant. -/
def Obligations.EveryStepKeepsTheInvariant : Prop :=
  ∀ s t : State, Inv s → step s = .next t → Inv t

/-- 42_frame_fsm.md R170, 60_exceptions.md R278: the operation a state selects always ends in a next state, and so does a tick; no
input makes one stop. -/
def Obligations.EveryTickCompletes : Prop :=
  ∀ s : State, Inv s →
    (∃ t, exec s.st.instr s = .next t) ∧ (nextIsTick s = true → ∃ t, step s = .next t ∧ t.ticked = true)

/-! ## Decoding -/

/-- Decode and encode agree on every well-formed instruction, every operand at every value. -/
def Obligations.DecodeOfEncodeIsTheInstruction : Prop :=
  ∀ i : Instr, wellFormed i = true → decode (encode i) = .ok i

/-- Words written out from 30_encoding.md R91, R93, R94, R97, R101, R104, R113. -/
def Obligations.SpecWordsDecodeAsTabulated : Prop :=
  decode (.st 6#3) = .ok .stepErr ∧ decode (.st 0#3) = .ok .stepIdent ∧ decode (.st 7#3) = .error .reservedState ∧
  decode (.lb 0x2F#8) = .ok .lbAscii ∧ decode (.lb 0x7E#8) = .ok .lbBinary ∧ decode (.lb 0x41#8) = .ok (.lbIllegal 0x41#8) ∧
  decode (.rbAfter .ascii 5 0 0x21#8) = .ok .rbMark ∧ decode (.rbAfter .binary 3 0 0x5D#8) = .ok (.rbHdr 0x5D#8) ∧
  decode (.rbAfter .ascii 6 5 0x0A#8) = .ok .rbEndA ∧ decode (.rbAfter .ascii 6 0 0x0A#8) = .error .dataByte ∧
  decode (.rbAfter .binary 95 92 0x7E#8) = .ok (.rbEndB 0x7E#8) ∧
  decode (.tlv 0x06#8) = .ok .tU32 ∧ decode (.tlv 0x16#8) = .ok .tEnum ∧ decode (.tlv 0x13#8) = .ok (.tIllegal 0x13#8) ∧
  decode (.lnBound 0x21#8) = .ok (.lnEnd 0x21#8) ∧
  decode (.fu 8#4 { code := 5#32 }) = .ok (.regLookup 5#32) ∧ decode (.fu 9#4 {}) = .error .unusedFunction

/-- A step runs the decoded operation: the one `st` selects at the start of a tick (42_frame_fsm.md R170), or the function-unit
operation the host invokes (R113); or it is the host's reset (70_reset_and_hazards.md R300). What the step adds is the model's own taking
of the inputs, and a reset that keeps the host's side (log entries 1 to 3, 12, 13). -/
def Obligations.StepRunsTheSelectedOperation : Prop :=
  (∀ (s : State) (i : Instr), s.sched = [] → decode (.st s.st.code) = .ok i → step s = exec i { s with ticked := true }) ∧
  (∀ (s : State) (i : Instr) (t : Time) (arrived : List Byte) (polls : List (List Byte)) (yields : List Bool)
      (rest : List Activation),
    s.sched = .tick t arrived polls yields :: rest → decode (.st s.st.code) = .ok i →
    step s = exec i
      { s with
        sched := rest, now := t, src := s.src ++ s.polls.flatten ++ arrived, polls := polls, yields := yields,
        ticked := true }) ∧
  (∀ (s : State) (i : Instr) (index : BitVec 4) (args : FuArgs) (rest : List Activation),
    s.sched = .call index args :: rest → decode (.fu index args) = .ok i → step s = exec i { s with sched := rest }) ∧
  (∀ (s : State) (t0 tIdent tRead : Time) (bytes : List Byte) (rest : List Activation),
    s.sched = .reset t0 tIdent tRead bytes :: rest →
    step s = .next (State.resetWith t0 tIdent tRead (Memory.ofBytes s.cfg.bufCap bytes) { s with sched := rest }))

/-- Inside a tick the lead byte, the byte read, the tag and the line select the operation they decode to
(30_encoding.md R93, R94, R97, R101). -/
def Obligations.TickRunsTheDecodedHandlers : Prop :=
  (∀ (b : Byte) (s : State), (lbAction b s).out = exec (decodeLead b) s) ∧
  (∀ (b : Byte) (s : State) (i : Instr), decode (.rbAfter s.fmt s.pos s.crcPos b) = .ok i → (rbAction b s).out = exec i s) ∧
  (∀ (b : Byte) (s : State), decode (.rbAfter s.fmt s.pos s.crcPos b) = .error .dataByte → rbAction b s = .go s) ∧
  (∀ (tag : Byte) (s : State), (tlvAction tag s).out = exec (decodeTlv tag) s) ∧
  (∀ (line : List Byte) (s : State) (i : Instr), decode (.ln line) = .ok i → exec i s = .next (lineAction line s))

/-- 44_tlv_parser.md R230, R232: once the header is located, the end test first, then exactly the element at the cursor. A true
`yield()` ends the tick there, also when the element reached `crc_pos` (log entry 29); a false one, or none listed (log entry 2), goes
on with the next round. -/
def Obligations.ProcessingTickRunsTheElementAtTheCursor : Prop :=
  (∀ s : State, 1 ≤ s.cur → s.crcPos ≤ (s.cur : Int) →
    exec .stepPbin s =
      .next { s with
        nProcTicks := s.nProcTicks + 1, st := .wait,
        trace := s.trace ++ (if s.st = .err then [] else [.diag (.summary s.nReadTicks (s.nProcTicks + 1))]) }) ∧
  (∀ s t : State,
    1 ≤ s.cur → (s.cur : Int) < s.crcPos → s.cur < s.cfg.bufCap → tlvTag (s.at s.cur) ≠ .illegal →
    exec (decodeTlv (s.at s.cur)) { s with nProcTicks := s.nProcTicks + 1 } = .next t →
    (∀ ys, s.yields = true :: ys → exec .stepPbin s = .next { t with yields := ys }) ∧
    (∀ ys, s.yields = false :: ys →
      exec .stepPbin s = exec .stepPbin { t with yields := ys, nProcTicks := s.nProcTicks }) ∧
    (s.yields = [] → exec .stepPbin s = exec .stepPbin { t with nProcTicks := s.nProcTicks })) ∧
  (∀ s : State,
    1 ≤ s.cur → (s.cur : Int) < s.crcPos → s.cur < s.cfg.bufCap → tlvTag (s.at s.cur) = .illegal →
    exec .stepPbin s = exec (.tIllegal (s.at s.cur)) { s with nProcTicks := s.nProcTicks + 1 })

/-! ## The checksum engine -/

/-- 40_crc.md R130, R132 with R138: the byte enters the low 8 bits, then eight conditional right shifts. -/
def Obligations.CrcUpdateIsEightReflectedShifts : Prop :=
  ∀ (c : Crc) (b : Byte) (s : State),
    exec (.crcaUpd c b) s = .next { s with
      result := .crc ((fun x : Crc => if x.getLsbD 0 then (x >>> 1) ^^^ 0xA001#16 else x >>> 1)^[8] (c ^^^ b.zeroExtend 16)) } ∧
    exec (.crcxUpd c b) s = .next { s with
      result := .crc ((fun x : Crc => if x.getLsbD 0 then (x >>> 1) ^^^ 0x8408#16 else x >>> 1)^[8] (c ^^^ b.zeroExtend 16)) }

/-- 40_crc.md R131, R133: the checksum of the bytes of the range, seed and output constant as stated; nothing but the result port
changes (log entry 10). -/
def Obligations.CrcRangeFoldsTheUpdate : Prop :=
  (∀ (lo hi : Nat) (s : State), lo ≤ hi → hi ≤ s.cfg.bufCap → s.crcA = none →
    exec (.crcaRng lo hi) s = .next { s with result := .crc ((s.bytes lo hi).foldl crcaUpd 0x0000#16) }) ∧
  (∀ (lo hi : Nat) (s : State), lo ≤ hi → hi ≤ s.cfg.bufCap → s.crcX = none →
    exec (.crcxRng lo hi) s = .next { s with result := .crc ((s.bytes lo hi).foldl crcxUpd 0xFFFF#16 ^^^ 0xFFFF#16) })

/-- 40_crc.md R135: over the empty input both functions give their seed and transform identity, 0x0000. -/
def Obligations.CrcOfEmptyRangeIsZero : Prop :=
  ∀ (lo : Nat) (s : State), s.crcA = none → s.crcX = none →
    exec (.crcaRng lo lo) s = .next { s with result := .crc 0x0000#16 } ∧
    exec (.crcxRng lo lo) s = .next { s with result := .crc 0x0000#16 }

/-- 40_crc.md R136: two sequences of the same length that differ in exactly one byte have different checksums. -/
def Obligations.CrcSeesEverySingleByteCorruption : Prop :=
  ∀ (before after : List Byte) (b b' : Byte), b ≠ b' →
    crcaBytes (before ++ b :: after) ≠ crcaBytes (before ++ b' :: after) ∧
    crcxBytes (before ++ b :: after) ≠ crcxBytes (before ++ b' :: after)

/-- 40_crc.md R131, R133, corner cases: appending the checksum, low byte first, gives the constants 0x0000 and 0x0F47;
`CRCA` does not see zero bytes in front of a message. -/
def Obligations.CrcResiduesAndLeadingZeros : Prop :=
  (∀ m : List Byte, crcaBytes (m ++ [(crcaBytes m).extractLsb' 0 8, (crcaBytes m).extractLsb' 8 8]) = 0x0000#16) ∧
  (∀ m : List Byte, crcxBytes (m ++ [(crcxBytes m).extractLsb' 0 8, (crcxBytes m).extractLsb' 8 8]) = 0x0F47#16) ∧
  (∀ (n : Nat) (m : List Byte), crcaBytes (List.replicate n 0x00#8 ++ m) = crcaBytes m)

/-! ## The OBIS codec and the registry -/

/-- 41_obis.md R150, R151: the document's own expression, and the three fields. -/
def Obligations.ObisPackAndUnpackResults : Prop :=
  (∀ (a b c : Nat) (s : State),
    exec (.obisPack a b c) s = .next { s with
      result := .code (BitVec.ofNat 32 (((a &&& 0xFFF) <<< 16) ||| ((b &&& 0xFF) <<< 8) ||| (c &&& 0xFF))) }) ∧
  (∀ (k : Code) (s : State),
    exec (.obisUnpk k) s = .next { s with
      result := .triple (BitVec.ofNat 12 (k.toNat / 65536)) (BitVec.ofNat 8 (k.toNat / 256)) (BitVec.ofNat 8 k.toNat) })

/-- 41_obis.md R153: unpack after pack masks, pack after unpack clears bits 31:28, two codes are equal exactly when the
masked triples are; and no triple packs to the sentinel (30_encoding.md R99). -/
def Obligations.ObisCodecLaws : Prop :=
  (∀ a b c : Nat,
    (unpackMajor (obisPack a b c)).toNat = a &&& 0xFFF ∧
    (unpackMinor (obisPack a b c)).toNat = b &&& 0xFF ∧
    (unpackMicro (obisPack a b c)).toNat = c &&& 0xFF) ∧
  (∀ k : Code,
    obisPack (unpackMajor k).toNat (unpackMinor k).toNat (unpackMicro k).toNat = k &&& 0x0FFFFFFF#32) ∧
  (∀ a b c a' b' c' : Nat,
    obisPack a b c = obisPack a' b' c' ↔
      a &&& 0xFFF = a' &&& 0xFFF ∧ b &&& 0xFF = b' &&& 0xFF ∧ c &&& 0xFF = c' &&& 0xFF) ∧
  (∀ a b c : Nat, obisPack a b c ≠ 0xFFFFFFFF#32)

/-- 41_obis.md R152, 30_encoding.md R100: exactly the texts DEC "." DEC "." DEC parse; every other text gives the sentinel and
one diagnostic. -/
def Obligations.ObisParseAcceptsExactlyTriples : Prop :=
  (∀ (d1 d2 d3 : List Byte) (s : State), isDec d1 → isDec d2 → isDec d3 →
    exec (.obisParse (d1 ++ 0x2E#8 :: (d2 ++ 0x2E#8 :: d3))) s =
      .next { s with result := .code (obisPack (decimalNat d1) (decimalNat d2) (decimalNat d3)) }) ∧
  (∀ (text : List Byte) (s : State),
    (¬ ∃ d1 d2 d3, isDec d1 ∧ isDec d2 ∧ isDec d3 ∧ text = d1 ++ 0x2E#8 :: (d2 ++ 0x2E#8 :: d3)) →
    exec (.obisParse text) s =
      .next { s with result := .code 0xFFFFFFFF#32, trace := s.trace ++ [.diag (.error .obisText)] })

/-- 41_obis.md R155, R156: before the first tick a registration under a text that parses makes the lookup of its code, and
of no other code, give the new handle, an earlier one at the code being replaced; a text that does not parse stores nothing. -/
def Obligations.RegisteringSetsOneLookup : Prop :=
  (∀ (text : List Byte) (h : Nat) (s : State), s.ticked = false → obisTextCode text ≠ 0xFFFFFFFF#32 →
    ∃ r, exec (.regAdd text h) s = .next { s with registry := r } ∧
      ∀ k : Code, Registry.find r k = if k = obisTextCode text then some h else Registry.find s.registry k) ∧
  (∀ (text : List Byte) (h : Nat) (s : State), s.ticked = false → obisTextCode text = 0xFFFFFFFF#32 →
    exec (.regAdd text h) s = .next { s with trace := s.trace ++ [.diag (.error .obisText)] })

/-- 70_reset_and_hazards.md R303 (2), (3) with 93_implementation_defined.md U7, U8, U15, treatment `refuse`: registration and
reconfiguration after the first tick stop by name, and so do a configuration out of range and an unused function index;
a configuration in range (00_scope.md R7) before the first tick is taken, the buffer restricted to it; 30_encoding.md R113: the index.
DRAIN_MAX or DLOG_CAP 0 and the restriction are the model's choice (log entry 12). U9: RB.APPEND stops by name when its operand is not the oldest byte of the
source (log entry 17). -/
def Obligations.HostContractIsKeptByRefusal : Prop :=
  (∀ (text : List Byte) (h : Nat) (s : State), s.ticked = true →
    exec (.regAdd text h) s = .refused .registrationAfterFirstTick) ∧
  (∀ (s : State) (c : Conf) (rest : List Activation), s.sched = .configure c :: rest → s.ticked = true →
    step s = .refused .reconfigurationAfterFirstTick) ∧
  (∀ (s : State) (c : Conf) (rest : List Activation), s.sched = .configure c :: rest → s.ticked = false →
    (c.bufCap = 0 ∨ c.drainMax = 0 ∨ c.dlogCap = 0) → step s = .refused .badConfiguration) ∧
  (∀ (s : State) (c : Conf) (rest : List Activation), s.sched = .configure c :: rest → s.ticked = false →
    1 ≤ c.bufCap → 1 ≤ c.drainMax → 1 ≤ c.dlogCap →
    step s = .next { s with sched := rest, cfg := c, buf := Memory.restrict c.bufCap s.buf }) ∧
  (∀ (s : State) (index : BitVec 4) (args : FuArgs) (rest : List Activation), s.sched = .call index args :: rest →
    9 ≤ index.toNat → step s = .refused .unusedFunction) ∧
  (∀ (b : Byte) (s : State), s.pos ≠ s.cfg.bufCap → s.src.head? ≠ some b →
    exec (.rbAppend b) s = .refused .readWithoutByte)

/-- 41_obis.md R156: the sentinel matches nothing; any other code gives its entry; no side effect. -/
def Obligations.LookupNeverMatchesTheSentinel : Prop :=
  ∀ (k : Code) (s : State),
    exec (.regLookup k) s =
      .next { s with result := .sink (if k = 0xFFFFFFFF#32 then none else Registry.find s.registry k) }

/-! ## The environment, the buffer and the shared operations -/

/-- 42_frame_fsm.md R196: the distance in milliseconds, correct across a wrap of the counter. -/
def Obligations.ElapsedIsRightAcrossTheWrap : Prop :=
  ∀ (s : State) (a : Time) (n : Nat), n < 2 ^ 32 → s.now = a + BitVec.ofNat 32 n → elapsed s a = n

/-- 20_memory.md R61, R62: below `BUF_CAP` the stored byte and no side effect; at or above it a fresh draw and nothing else. -/
def Obligations.BufferReadsInsideAndBeyond : Prop :=
  ∀ (i : Nat) (s : State),
    (i < s.cfg.bufCap → bufRead i s = (s.at i, s)) ∧
    (s.cfg.bufCap ≤ i → bufRead i s = (Config.unspecifiedByte s.draws, { s with draws := s.draws + 1 }))

/-- 60_exceptions.md R274: taking an error writes `st` and `t_err`, emits the diagnostic and then the notification, ends the
tick, and changes nothing else. -/
def Obligations.RaiseSavesNothing : Prop :=
  ∀ (c : Cause) (s : State),
    raiseError c s = .done (.next
      { s with st := .err, tErr := s.now, trace := s.trace ++ [.diag (.error c), .notify .commError] })

/-! ## The steps -/

/-- 42_frame_fsm.md R191, R172: the period runs from the entry of IDENTIFYING_MESSAGE; its next entry resets the cycle. -/
def Obligations.WaitEndsWhenThePeriodHasElapsed : Prop :=
  ∀ s : State,
    exec .stepWait s =
      .next (if s.cfg.minPeriod.toNat ≤ elapsed s s.tIdent then
        { s with
          st := .ident, tIdent := s.now, pos := 0, crcPos := 0, cur := 0, curCode := 0xFFFFFFFF#32,
          nReadTicks := 0, nProcTicks := 0, trace := s.trace ++ [.notify .ready] }
      else s)

/-- 42_frame_fsm.md R192, 60_exceptions.md R276: when no byte is available, ERROR_RECOVERY is left for WAITING once 500 ms have
passed, the log flushed and no summary emitted; otherwise nothing but the poll happens. -/
def Obligations.RecoveryEndsAfterTheQuietPeriod : Prop :=
  ∀ s : State, s.st = .err → (avail s).1 = false →
    exec .stepErr s =
      .next (if 500 ≤ elapsed s s.tErr then
        { (avail s).2 with
          st := .wait, dlog := [], trace := s.trace ++ (if s.dlog = [] then [] else [.diag (.discard s.dlog)]) }
      else (avail s).2)

/-- 42_frame_fsm.md R192, 20_memory.md R72: a tick that finds bytes discards at most `DRAIN_MAX` of them one by one, forwards each when
`PASSTHROUGH` is set, flushes a full log before a byte goes into it, restarts the quiet period and stays. First for bytes that are
all there when the tick starts; then, bytes arriving at any poll (log entry 2), unrolled by one round: the rest of the tick is the same
step with one discard less left and the quiet period restarted, and with none left only the poll of the loop's test happens. -/
def Obligations.RecoveryDiscardsAndRestartsTheQuietPeriod : Prop :=
  (∀ s : State, s.polls = [] → s.src ≠ [] → 1 ≤ s.cfg.drainMax → 1 ≤ s.cfg.dlogCap →
    exec .stepErr s =
      .next { (s.src.take s.cfg.drainMax).foldl (fun (u : State) (b : Byte) =>
          if u.dlog.length = s.cfg.dlogCap then
            { u with
              dlog := [b],
              trace := u.trace ++ (if s.cfg.passthrough then [.pass b] else []) ++ [.diag (.discard u.dlog)] }
          else
            { u with dlog := u.dlog ++ [b], trace := u.trace ++ (if s.cfg.passthrough then [.pass b] else []) }) s with
        src := s.src.drop s.cfg.drainMax, tErr := s.now }) ∧
  (∀ (s s1 : State) (b : Byte) (rest : List Byte) (k : Nat),
    avail s = (true, s1) → s1.src = b :: rest → s.cfg.drainMax = k + 1 → 1 ≤ s.cfg.dlogCap →
    exec .stepErr s =
      mapNext (fun t => { t with cfg := s.cfg })
        (exec .stepErr { s1 with
          src := rest, tErr := s.now, cfg := { s.cfg with drainMax := k },
          dlog := (if s.dlog.length = s.cfg.dlogCap then [] else s.dlog) ++ [b],
          trace := s.trace ++ (if s.cfg.passthrough then [.pass b] else []) ++
            (if s.dlog.length = s.cfg.dlogCap then [.diag (.discard s.dlog)] else []) })) ∧
  (∀ s : State, s.cfg.drainMax = 0 → s.tErr = s.now → exec .stepErr s = .next (avail s).2)

/-- 60_exceptions.md R277, 42_frame_fsm.md R193: STEP.ERR completes in every state; it goes to WAITING or leaves `st`, and it touches
nothing of the frame. -/
def Obligations.RecoveryNeverRaises : Prop :=
  ∀ s : State, ∃ t, exec .stepErr s = .next t ∧ (t.st = s.st ∨ t.st = .wait) ∧
    t = { s with
      st := t.st, tErr := t.tErr, dlog := t.dlog, src := t.src, polls := t.polls, trace := t.trace }

/-- 42_frame_fsm.md R179, R180: without a byte the stall timeout fires when more than 60000 ms have passed, and only then. A byte
that is available is examined whatever the time: an illegal lead byte is consumed, not stored, and raises; a legal one selects the
format, is stored, and the same tick goes on with STEP.READ. -/
def Obligations.IdentStallsOrTakesTheLeadByte : Prop :=
  (∀ s : State, (avail s).1 = false →
    exec .stepIdent s =
      .next (if 60000 < elapsed s s.tIdent then
        { (avail s).2 with st := .err, tErr := s.now, trace := s.trace ++ [.diag (.error .stall), .notify .commError] }
      else (avail s).2)) ∧
  (∀ (s : State) (b : Byte) (rest : List Byte), (avail s).2.src = b :: rest → b ≠ 0x2F#8 → b ≠ 0x7E#8 →
    exec .stepIdent s =
      .next { (avail s).2 with
        src := rest, st := .err, tErr := s.now,
        trace := s.trace ++ (if s.cfg.passthrough then [.pass b] else []) ++ [.diag (.error (.lead b)), .notify .commError] }) ∧
  (∀ (s : State) (rest : List Byte), (avail s).2.src = 0x2F#8 :: rest → s.pos < s.cfg.bufCap →
    exec .stepIdent s =
      exec .stepRead { (avail s).2 with
        src := rest, st := .read, fmt := .ascii, tRead := s.now,
        buf := Memory.write s.buf s.pos 0x2F#8, pos := s.pos + 1,
        trace := s.trace ++ (if s.cfg.passthrough then [.pass 0x2F#8] else []) }) ∧
  (∀ (s : State) (rest : List Byte), (avail s).2.src = 0x7E#8 :: rest → s.pos < s.cfg.bufCap →
    exec .stepIdent s =
      exec .stepRead { (avail s).2 with
        src := rest, st := .read, fmt := .binary, tRead := s.now,
        buf := Memory.write s.buf s.pos 0x7E#8, pos := s.pos + 1,
        trace := s.trace ++ (if s.cfg.passthrough then [.pass 0x7E#8] else []) })

/-- 42_frame_fsm.md R181, R187: the reading step, unrolled by one round. When no byte is available the tick counts itself and tests the
10 s timeout. At the capacity an available byte raises EC_OVERRUN; otherwise it is appended, then the operation it selects acts: a
data byte, a mark and a good header go on with the loop, a frame end and a bad header end the tick. -/
def Obligations.ReadHandlesTheNextByte : Prop :=
  (∀ s : State, (avail s).1 = false →
    exec .stepRead s =
      .next (if 10000 < elapsed s s.tRead then
        { (avail s).2 with
          nReadTicks := s.nReadTicks + 1, st := .err, tErr := s.now,
          trace := s.trace ++ [.diag (.error .incomplete), .notify .commError] }
      else { (avail s).2 with nReadTicks := s.nReadTicks + 1 })) ∧
  (∀ (s s1 : State) (b : Byte) (rest : List Byte), avail s = (true, s1) → s1.src = b :: rest →
    (s.pos = s.cfg.bufCap →
      exec .stepRead s =
        .next { s1 with
          nReadTicks := s.nReadTicks + 1, st := .err, tErr := s.now,
          trace := s.trace ++ [.diag (.error .overrun), .notify .commError] }) ∧
    (s.pos < s.cfg.bufCap → ∀ s2, exec (.rbAppend b) { s1 with nReadTicks := s.nReadTicks + 1 } = .next s2 →
      (decode (.rbAfter s2.fmt s2.pos s2.crcPos b) = .error .dataByte →
        exec .stepRead s = exec .stepRead { s2 with nReadTicks := s.nReadTicks }) ∧
      (decode (.rbAfter s2.fmt s2.pos s2.crcPos b) = .ok .rbMark → ∀ t, exec .rbMark s2 = .next t →
        exec .stepRead s = exec .stepRead { t with nReadTicks := s.nReadTicks }) ∧
      (decode (.rbAfter s2.fmt s2.pos s2.crcPos b) = .ok (.rbHdr b) → (s2.at 1).toNat / 32 = 5 →
        ∀ t, exec (.rbHdr b) s2 = .next t → exec .stepRead s = exec .stepRead { t with nReadTicks := s.nReadTicks }) ∧
      (decode (.rbAfter s2.fmt s2.pos s2.crcPos b) = .ok (.rbHdr b) → (s2.at 1).toNat / 32 ≠ 5 →
        exec .stepRead s = exec (.rbHdr b) s2) ∧
      (decode (.rbAfter s2.fmt s2.pos s2.crcPos b) = .ok .rbEndA → exec .stepRead s = exec .rbEndA s2) ∧
      (decode (.rbAfter s2.fmt s2.pos s2.crcPos b) = .ok (.rbEndB b) → exec .stepRead s = exec (.rbEndB b) s2)))

/-- 42_frame_fsm.md R181, R182, 30_encoding.md R94: bytes of an ASCII telegram before its first `!` that fit in the buffer are all
appended at `pos`, a newline among them doing nothing; no other byte of the buffer changes. -/
def Obligations.ReadAppendsEveryDataByte : Prop :=
  ∀ s : State, Memory.wf s.buf = true → s.polls = [] → s.fmt = .ascii → s.crcPos = 0 → s.cfg.passthrough = false →
    (∀ b ∈ s.src, b ≠ 0x21#8) → s.pos + s.src.length ≤ s.cfg.bufCap → elapsed s s.tRead ≤ 10000 →
    ∃ m, exec .stepRead s =
        .next { s with nReadTicks := s.nReadTicks + 1, src := [], buf := m, pos := s.pos + s.src.length } ∧
      (∀ (k : Nat) (h : k < s.src.length), Memory.read m (s.pos + k) = s.src[k]) ∧
      (∀ a : Nat, a < s.pos ∨ s.pos + s.src.length ≤ a → Memory.read m a = s.at a)

/-- 42_frame_fsm.md R182, 60_exceptions.md R266: more bytes than the buffer holds without a frame end fill the buffer in order, and the
next available byte raises EC_OVERRUN before any write past the capacity; it stays in the source. -/
def Obligations.OverrunIsRaisedBeforeAnyWrite : Prop :=
  ∀ s : State, Memory.wf s.buf = true → s.polls = [] → s.fmt = .ascii → s.crcPos = 0 → s.cfg.passthrough = false →
    (∀ b ∈ s.src, b ≠ 0x21#8) → s.pos ≤ s.cfg.bufCap → s.cfg.bufCap < s.pos + s.src.length →
    ∃ m, exec .stepRead s =
        .next { s with
          nReadTicks := s.nReadTicks + 1, src := s.src.drop (s.cfg.bufCap - s.pos), buf := m, pos := s.cfg.bufCap,
          st := .err, tErr := s.now, trace := s.trace ++ [.diag (.error .overrun), .notify .commError] } ∧
      (∀ (k : Nat) (h : k < s.src.length), s.pos + k < s.cfg.bufCap → Memory.read m (s.pos + k) = s.src[k]) ∧
      (∀ a : Nat, a < s.pos ∨ s.cfg.bufCap ≤ a → Memory.read m a = s.at a)

/-- 42_frame_fsm.md R182, with `read()` of R195 and the buffer of 20_memory.md R63: a full buffer raises before the read; otherwise the
byte is read, passed through, and stored at `pos`. -/
def Obligations.AppendStoresTheByteRead : Prop :=
  (∀ (b : Byte) (s : State), s.pos = s.cfg.bufCap →
    exec (.rbAppend b) s =
      .next { s with st := .err, tErr := s.now, trace := s.trace ++ [.diag (.error .overrun), .notify .commError] }) ∧
  (∀ (b : Byte) (rest : List Byte) (s : State), s.src = b :: rest → s.pos < s.cfg.bufCap →
    exec (.rbAppend b) s =
      .next { s with
        src := rest, buf := Memory.write s.buf s.pos b, pos := s.pos + 1,
        trace := s.trace ++ (if s.cfg.passthrough then [.pass b] else []) }) ∧
  (∀ (s : State) (b : Byte) (a : Nat), Memory.wf s.buf = true →
    Memory.read (Memory.write s.buf s.pos b) a = if a = s.pos then b else s.at a)

/-- 30_encoding.md R93: which lead byte selects which operation; the two legal ones write `fmt` and nothing else, every other byte
raises EC_LEAD. -/
def Obligations.LeadByteOperations : Prop :=
  ∀ (s : State) (b : Byte),
    decode (.lb b) = .ok (if b = 0x2F#8 then .lbAscii else if b = 0x7E#8 then .lbBinary else .lbIllegal b) ∧
    exec .lbAscii s = .next { s with fmt := .ascii } ∧
    exec .lbBinary s = .next { s with fmt := .binary } ∧
    exec (.lbIllegal b) s =
      .next { s with st := .err, tErr := s.now, trace := s.trace ++ [.diag (.error (.lead b)), .notify .commError] }

/-- 42_frame_fsm.md R184, 20_memory.md R66: the format type is checked, then `crc_pos` is the 13-bit length minus 1, possibly 0 or -1.
With three bytes stored the buffer has at least three. -/
def Obligations.HeaderGivesTheCrcPosition : Prop :=
  (∀ (b : Byte) (s : State), 3 ≤ s.cfg.bufCap → (s.at 1).toNat / 32 = 5 →
    exec (.rbHdr b) s =
      .next { s with crcPos := (((s.at 1).toNat % 32 * 256 + (s.at 2).toNat : Nat) : Int) - 1 }) ∧
  (∀ (b : Byte) (s : State), 3 ≤ s.cfg.bufCap → (s.at 1).toNat / 32 ≠ 5 →
    exec (.rbHdr b) s =
      .next { s with
        st := .err, tErr := s.now, trace := s.trace ++ [.diag (.error (.hdrFormat (s.at 1))), .notify .commError] })

/-- 30_encoding.md R94, 42_frame_fsm.md R183, R185, R186: the class of a byte after its append, in the order of the table; then `!`
records the position and nothing else, the newline after the CRC completes an ASCII frame with `Notify(UPDATE)`, and at a binary
frame's end the end marker completes it and any other byte raises EC_HDR_END. -/
def Obligations.ReadingBytesAreClassedAndActedOn : Prop :=
  (∀ b : Byte, decode (.rbArrive b) = .ok (.rbAppend b)) ∧
  (∀ (fmt : Fmt) (pos : Nat) (crcPos : Int) (b : Byte),
    decode (.rbAfter fmt pos crcPos b) =
      if fmt = .ascii ∧ b = 0x21#8 then .ok .rbMark
      else if fmt = .binary ∧ pos = 3 then .ok (.rbHdr b)
      else if fmt = .ascii ∧ 0 < crcPos ∧ crcPos < pos ∧ b = 0x0A#8 then .ok .rbEndA
      else if fmt = .binary ∧ 0 < crcPos ∧ pos = crcPos + 3 then .ok (.rbEndB b)
      else .error .dataByte) ∧
  ∀ s : State,
    exec .rbMark s = .next { s with crcPos := (s.pos : Int) } ∧
    exec .rbEndA s = .next { s with st := .verify, trace := s.trace ++ [.notify .update] } ∧
    ∀ b : Byte, exec (.rbEndB b) s =
      .next (if b = 0x7E#8 then { s with st := .verify, trace := s.trace ++ [.notify .update] }
      else { s with st := .err, tErr := s.now, trace := s.trace ++ [.diag (.error (.hdrEnd b)), .notify .commError] })

/-- 42_frame_fsm.md R188, R190: the longest run of hexadecimal digits at `crc_pos`, as a number without limit, against `CRCA` of
the bytes before it; no digit equals nothing. -/
def Obligations.VerifyAsciiComparesTheHexField : Prop :=
  ∀ (s : State) (p : Nat) (ds : List Byte) (expected : Option Nat) (computed : Crc),
    s.fmt = .ascii → s.crcPos = (p : Int) → s.crcA = none → s.pos ≤ s.cfg.bufCap →
    s.bytes p (p + ds.length) = ds → (∀ d ∈ ds, (hexDigit d).isSome = true) →
    p + ds.length < s.cfg.bufCap → hexDigit (s.at (p + ds.length)) = none →
    expected = (if ds = [] then none else some (Nat.ofDigits 16 (ds.reverse.map fun d => (hexDigit d).getD 0))) →
    computed = (s.bytes 0 p).foldl crcaUpd 0x0000#16 →
    exec .stepVerify s =
      .next (if expected = some computed.toNat then { s with st := .pascii }
      else { s with
        st := .err, tErr := s.now,
        trace := s.trace ++ [.diag (.crcMismatch computed expected (s.bytes 0 s.pos)), .diag (.error .crc), .notify .commError] })

/-- 42_frame_fsm.md R189, R190: the little-endian field at `crc_pos` against `CRCX` of the bytes from offset 1 to `crc_pos`. -/
def Obligations.VerifyBinaryComparesTheLittleEndianField : Prop :=
  ∀ (s : State) (p : Nat) (computed : Crc),
    s.fmt = .binary → s.crcPos = (p : Int) → s.crcX = none → s.pos ≤ s.cfg.bufCap → p + 2 ≤ s.cfg.bufCap →
    computed = (s.bytes 1 p).foldl crcxUpd 0xFFFF#16 ^^^ 0xFFFF#16 →
    exec .stepVerify s =
      .next (if (s.at p).toNat + 256 * (s.at (p + 1)).toNat = computed.toNat then { s with st := .pbin }
      else { s with
        st := .err, tErr := s.now,
        trace := s.trace ++
          [.diag (.crcMismatch computed (some ((s.at p).toNat + 256 * (s.at (p + 1)).toNat)) (s.bytes 0 s.pos)),
            .diag (.error .crc), .notify .commError] })

/-! ## The ASCII line parser -/

/-- 43_ascii_parser.md R212, R213, R214 with 42_frame_fsm.md R197: a measurement line dispatches its value, another line is a
diagnostic, an end mark goes to WAITING. -/
def Obligations.LineHandlers : Prop :=
  (∀ (a b c : Nat) (v : Decimal) (s : State),
    exec (.lnMeas a b c v) s =
      .next { s with trace := s.trace ++ [dispatchEvent s (obisPack a b c) ((v.mant : Rat) / 10 ^ v.scale)] }) ∧
  (∀ (line : List Byte) (s : State),
    exec (.lnOther line) s = .next { s with trace := s.trace ++ [.diag (.error (.line line))] }) ∧
  (∀ (mark : Byte) (s : State),
    exec (.lnEnd mark) s =
      .next { s with
        st := .wait,
        trace := s.trace ++ (if s.st = .err then [] else [.diag (.summary s.nReadTicks s.nProcTicks)]) })

/-- 30_encoding.md R102, 43_ascii_parser.md R216: SIGN? (DIGITS ("." DIGIT*)? | "." DIGITS), longest run, its value exact. -/
def Obligations.FloatDenotesItsDigits : Prop :=
  (∀ (sgn int frac rest : List Byte) (k : Int),
    (sgn = [] ∧ k = 1 ∨ sgn = [0x2B#8] ∧ k = 1 ∨ sgn = [0x2D#8] ∧ k = -1) →
    (∀ d ∈ int, isDigit d = true) → (∀ d ∈ frac, isDigit d = true) → int ≠ [] ∨ frac ≠ [] →
    (∀ b ∈ rest.head?, isDigit b = false) →
    ∃ v, parseFloat (sgn ++ int ++ 0x2E#8 :: (frac ++ rest)) = some (v, rest) ∧
      decimalValue v = (k : Rat) * ((decimalNat int : Rat) + (decimalNat frac : Rat) / 10 ^ frac.length)) ∧
  (∀ (sgn int rest : List Byte) (k : Int),
    (sgn = [] ∧ k = 1 ∨ sgn = [0x2B#8] ∧ k = 1 ∨ sgn = [0x2D#8] ∧ k = -1) →
    isDec int → (∀ b ∈ rest.head?, isDigit b = false ∧ b ≠ 0x2E#8) →
    ∃ v, parseFloat (sgn ++ int ++ rest) = some (v, rest) ∧ decimalValue v = (k : Rat) * (decimalNat int : Rat)) ∧
  (∀ (sgn rest : List Byte), sgn = [] ∨ sgn = [0x2B#8] ∨ sgn = [0x2D#8] →
    (∀ b ∈ rest.head?, isDigit b = false) →
    (sgn = [] → ∀ b ∈ rest.head?, b ≠ 0x2B#8 ∧ b ≠ 0x2D#8) →
    (rest.head? = some 0x2E#8 → ∀ b ∈ rest.tail.head?, isDigit b = false) →
    parseFloat (sgn ++ rest) = none)

/-- 30_encoding.md R101: a line is a measurement line exactly when a prefix of it is `1-0:` DEC "." DEC "." DEC "(" FLOAT. -/
def Obligations.MeasurementLineGrammar : Prop :=
  ∀ (line : List Byte) (a b c : Nat) (v : Decimal),
    parseMeas line = some (a, b, c, v) ↔
      ∃ d1 d2 d3 tail rest, isDec d1 ∧ isDec d2 ∧ isDec d3 ∧
        line = [0x31#8, 0x2D#8, 0x30#8, 0x3A#8] ++ d1 ++ [0x2E#8] ++ d2 ++ [0x2E#8] ++ d3 ++ [0x28#8] ++ tail ∧
        a = decimalNat d1 ∧ b = decimalNat d2 ∧ c = decimalNat d3 ∧ parseFloat tail = some (v, rest)

/-- 43_ascii_parser.md R210, R211: one round. Leading terminators are skipped, the span ends at the first boundary, a line of at
least one byte is handled, an end mark ends the processing with the cursor at the span's start, and otherwise the cursor
stands behind the terminator when the tick yields, or the next round follows; with no answer listed it follows too (log entry 2). -/
def Obligations.AsciiRoundHandlesTheNextLine : Prop :=
  ∀ (s s2 : State) (c e : Nat),
    s.cur ≤ c → c ≤ e → e < s.cfg.bufCap →
    (∀ a, s.cur ≤ a → a < c → isTerminator (s.at a) = true) → isTerminator (s.at c) = false →
    (∀ a, c ≤ a → a < e → isBoundary (s.at a) = false) → isBoundary (s.at e) = true →
    (c = e → s2 = { s with nProcTicks := s.nProcTicks + 1, cur := c }) →
    (c ≠ e → ∀ i, decode (.ln (s.bytes c e)) = .ok i → exec i { s with nProcTicks := s.nProcTicks + 1, cur := c } = .next s2) →
    (isEndMark (s.at e) = true → exec .stepPascii s = exec (.lnEnd (s.at e)) s2) ∧
    (isEndMark (s.at e) = false → ∀ ys, s.yields = true :: ys →
      exec .stepPascii s = .next { s2 with cur := e + 1, yields := ys }) ∧
    (isEndMark (s.at e) = false → ∀ ys, s.yields = false :: ys →
      exec .stepPascii s = exec .stepPascii { s2 with cur := e + 1, yields := ys, nProcTicks := s.nProcTicks }) ∧
    (isEndMark (s.at e) = false → s.yields = [] →
      exec .stepPascii s = exec .stepPascii { s2 with cur := e + 1, nProcTicks := s.nProcTicks })

/-- 43_ascii_parser.md R217: stopping an ASCII processing tick anywhere and going on in the next changes no delivery and not
where the processing ends. -/
def Obligations.AsciiProcessingIsResumable : Prop :=
  ∀ (s t u : State) (ys : List Bool), Inv s → s.st = .pascii →
    exec .stepPascii { s with yields := [] } = .next t → exec .stepPascii { s with yields := ys } = .next u →
    t.st = .wait ∧
    ((u.st = .wait ∧ deliveries u.trace = deliveries t.trace ∧ u.cur = t.cur) ∨
     (u.st = .pascii ∧ ∃ t', exec .stepPascii { u with yields := [] } = .next t' ∧
       t'.st = .wait ∧ deliveries t'.trace = deliveries t.trace ∧ t'.cur = t.cur))

/-! ## The binary parser -/

/-- 44_tlv_parser.md R233 to R237, R241: the elements that only advance; what they skip is not read. -/
def Obligations.ElementsThatOnlyAdvance : Prop :=
  ∀ s : State,
    exec .tNull s = .next { s with cur := s.cur + 1 } ∧
    exec .tArray s = .next { s with cur := s.cur + 2 } ∧
    exec .tStruct s = .next { s with cur := s.cur + 2 } ∧
    exec .tScalunit s = .next { s with cur := s.cur + 2 } ∧
    exec .tEnum s = .next { s with cur := s.cur + 2 } ∧
    exec .tDatetime s = .next { s with cur := s.cur + 13 }

/-- 44_tlv_parser.md R239, R240: the length byte moves the cursor; a length-6 octet string, and nothing else, sets the current
code, from element offsets 4, 5 and 6. -/
def Obligations.OctetAndStringElements : Prop :=
  (∀ s : State, s.cur + 1 < s.cfg.bufCap →
    exec .tString s = .next { s with cur := s.cur + 2 + (s.at (s.cur + 1)).toNat }) ∧
  (∀ s : State, s.cur + 1 < s.cfg.bufCap → s.at (s.cur + 1) ≠ 6#8 →
    exec .tOctet s = .next { s with cur := s.cur + 2 + (s.at (s.cur + 1)).toNat }) ∧
  (∀ s : State, s.cur + 6 < s.cfg.bufCap → s.at (s.cur + 1) = 6#8 →
    exec .tOctet s =
      .next { s with
        cur := s.cur + 8,
        curCode := BitVec.ofNat 32 ((s.at (s.cur + 4)).toNat * 65536 + (s.at (s.cur + 5)).toNat * 256 + (s.at (s.cur + 6)).toNat) })

/-- 44_tlv_parser.md R238, R242, R243, 20_memory.md R65: the big-endian value, exactly divided, dispatched to the current code. -/
def Obligations.ValueElementsDispatch : Prop :=
  (∀ s : State, s.cur + 4 < s.cfg.bufCap →
    exec .tU32 s =
      .next { s with
        cur := s.cur + 5,
        trace := s.trace ++ [dispatchEvent s s.curCode
          ((((s.at (s.cur + 1)).toNat * 16777216 + (s.at (s.cur + 2)).toNat * 65536 + (s.at (s.cur + 3)).toNat * 256 +
            (s.at (s.cur + 4)).toNat : Nat) : Rat) / 1000)] }) ∧
  (∀ s : State, s.cur + 2 < s.cfg.bufCap →
    exec .tU16 s =
      .next { s with
        cur := s.cur + 3,
        trace := s.trace ++ [dispatchEvent s s.curCode
          ((((s.at (s.cur + 1)).toNat * 256 + (s.at (s.cur + 2)).toNat : Nat) : Rat) / 10)] }) ∧
  (∀ (s : State) (raw : Nat), s.cur + 2 < s.cfg.bufCap →
    raw = (s.at (s.cur + 1)).toNat * 256 + (s.at (s.cur + 2)).toNat →
    exec .tS16 s =
      .next { s with
        cur := s.cur + 3,
        trace := s.trace ++ [dispatchEvent s s.curCode
          (((if raw < 32768 then (raw : Int) else (raw : Int) - 65536 : Int) : Rat) / 10)] })

/-- 20_memory.md R61, R62, 44_tlv_parser.md R247: an operation whose bytes lie at or beyond `BUF_CAP` completes as any other, on the
bytes `bufRead` gives one by one in rising order, each of them there a free value and a draw (log entry 7). Here for every offset:
the value elements, the two elements with a length, the header check, and the checksum ranges, whose `hi < lo` is empty (log entry
24). Nothing else changes. -/
def Obligations.ReadsBeyondTheBufferComplete : Prop :=
  (∀ (i : Nat) (s : State), s.cfg.bufCap ≤ i →
    bufRead i s = (Config.unspecifiedByte s.draws, { s with draws := s.draws + 1 })) ∧
  (∀ (s s1 s2 s3 s4 : State) (b1 b2 b3 b4 : Byte),
    bufRead (s.cur + 1) s = (b1, s1) → bufRead (s.cur + 2) s1 = (b2, s2) →
    bufRead (s.cur + 3) s2 = (b3, s3) → bufRead (s.cur + 4) s3 = (b4, s4) →
    exec .tU32 s = .next { s with
      cur := s.cur + 5, draws := s4.draws,
      trace := s.trace ++ [dispatchEvent s s.curCode
        (((b1.toNat * 16777216 + b2.toNat * 65536 + b3.toNat * 256 + b4.toNat : Nat) : Rat) / 1000)] }) ∧
  (∀ (s s1 s2 : State) (b1 b2 : Byte),
    bufRead (s.cur + 1) s = (b1, s1) → bufRead (s.cur + 2) s1 = (b2, s2) →
    exec .tU16 s = .next { s with
      cur := s.cur + 3, draws := s2.draws,
      trace := s.trace ++ [dispatchEvent s s.curCode (((b1.toNat * 256 + b2.toNat : Nat) : Rat) / 10)] } ∧
    exec .tS16 s = .next { s with
      cur := s.cur + 3, draws := s2.draws,
      trace := s.trace ++ [dispatchEvent s s.curCode (((b1 ++ b2 : BitVec 16).toInt : Rat) / 10)] }) ∧
  (∀ (s s1 : State) (len : Byte), bufRead (s.cur + 1) s = (len, s1) →
    exec .tString s = .next { s with cur := s.cur + 2 + len.toNat, draws := s1.draws } ∧
    (len ≠ 6#8 → exec .tOctet s = .next { s with cur := s.cur + 2 + len.toNat, draws := s1.draws }) ∧
    (len = 6#8 → ∀ (s2 s3 s4 : State) (a b c : Byte),
      bufRead (s.cur + 4) s1 = (a, s2) → bufRead (s.cur + 5) s2 = (b, s3) → bufRead (s.cur + 6) s3 = (c, s4) →
      exec .tOctet s = .next { s with
        cur := s.cur + 8, draws := s4.draws,
        curCode := BitVec.ofNat 32 (a.toNat * 65536 + b.toNat * 256 + c.toNat) })) ∧
  (∀ (s s1 : State) (b b1 : Byte), bufRead 1 s = (b1, s1) →
    (b1.toNat / 32 ≠ 5 → exec (.rbHdr b) s =
      .next { s with
        draws := s1.draws, st := .err, tErr := s.now,
        trace := s.trace ++ [.diag (.error (.hdrFormat b1)), .notify .commError] }) ∧
    (b1.toNat / 32 = 5 → ∀ (s2 : State) (b2 : Byte), bufRead 2 s1 = (b2, s2) → exec (.rbHdr b) s =
      .next { s with draws := s2.draws, crcPos := ((b1.toNat % 32 * 256 + b2.toNat : Nat) : Int) - 1 })) ∧
  (∀ (i : Nat) (s : State), bufReads 0 i s = ([], s)) ∧
  (∀ (n i : Nat) (s s1 s2 : State) (b : Byte) (bs : List Byte),
    bufRead i s = (b, s1) → bufReads n (i + 1) s1 = (bs, s2) → bufReads (n + 1) i s = (b :: bs, s2)) ∧
  (∀ (lo hi : Nat) (s s1 : State) (bs : List Byte), bufReads (hi - lo) lo s = (bs, s1) →
    s1.draws = s.draws + (hi - max lo s.cfg.bufCap) ∧
    exec (.crcaRng lo hi) s = .next { s with
      result := .crc (bs.foldl crcaUpd 0x0000#16), crcA := none, draws := s1.draws } ∧
    exec (.crcxRng lo hi) s = .next { s with
      result := .crc (bs.foldl crcxUpd 0xFFFF#16 ^^^ 0xFFFF#16), crcX := none, draws := s1.draws })

/-- 44_tlv_parser.md R244: `raise EC_TAG(tag, cur)`; the cursor stays at the tag. -/
def Obligations.UnsupportedTagRaises : Prop :=
  ∀ (tag : Byte) (s : State),
    exec (.tIllegal tag) s =
      .next { s with st := .err, tErr := s.now, trace := s.trace ++ [.diag (.error (.tag tag s.cur)), .notify .commError] }

/-- 44_tlv_parser.md R231, R232: the first `0x13` at offsets 3 .. `crc_pos - 1` and the six bytes from it on; none raises
EC_HDR_CTRL with the cursor at max(3, `crc_pos`); a first tag at or beyond `crc_pos` ends the processing. -/
def Obligations.HeaderLocation : Prop :=
  ∀ (s : State) (p : Nat), s.st = .pbin → s.cur = 0 → s.crcPos = (p : Int) → p ≤ s.cfg.bufCap →
    ((∀ a, 3 ≤ a → a < p → s.at a ≠ 0x13#8) →
      exec .stepPbin s =
        .next { s with
          nProcTicks := s.nProcTicks + 1, cur := max 3 p, st := .err, tErr := s.now,
          trace := s.trace ++ [.diag (.error .hdrCtrl), .notify .commError] }) ∧
    (∀ c, 3 ≤ c → c < p → s.at c = 0x13#8 → (∀ a, 3 ≤ a → a < c → s.at a ≠ 0x13#8) →
      (p ≤ c + 6 → exec .stepPbin s =
        .next { s with
          nProcTicks := s.nProcTicks + 1, cur := c + 6, st := .wait,
          trace := s.trace ++ [.diag (.summary s.nReadTicks (s.nProcTicks + 1))] }) ∧
      (c + 6 < p → exec .stepPbin s = exec .stepPbin { s with cur := c + 6 }))

/-- STEP.PBIN completes in every state (42_frame_fsm.md R170); it stays, goes to WAITING or raises, and writes the cursor, the current
code, the counter, `st` and `t_err`, its inputs and the trace, nothing else (44_tlv_parser.md R230). -/
def Obligations.BinaryProcessingAlwaysCompletes : Prop :=
  ∀ s : State, ∃ t, exec .stepPbin s = .next t ∧ (t.st = s.st ∨ t.st = .wait ∨ t.st = .err) ∧
    t = { s with
      st := t.st, tErr := t.tErr, cur := t.cur, curCode := t.curCode, nProcTicks := s.nProcTicks + 1, yields := t.yields,
      draws := t.draws, trace := t.trace }

/-- 44_tlv_parser.md R248: stopping a binary processing tick anywhere and going on in the next changes no delivery, no final current
code and not how the processing ends. -/
def Obligations.BinaryProcessingIsResumable : Prop :=
  ∀ (s t u : State) (ys : List Bool), Inv s → s.st = .pbin →
    exec .stepPbin { s with yields := [] } = .next t → exec .stepPbin { s with yields := ys } = .next u →
    t.st ≠ .pbin ∧
    ((u.st = t.st ∧ deliveries u.trace = deliveries t.trace ∧ u.curCode = t.curCode ∧ u.cur = t.cur) ∨
     (u.st = .pbin ∧ ∃ t', exec .stepPbin { u with yields := [] } = .next t' ∧
       t'.st = t.st ∧ deliveries t'.trace = deliveries t.trace ∧ t'.curCode = t.curCode ∧ t'.cur = t.cur))

/-! ## Whole-machine rules -/

/-- 42_frame_fsm.md R193, R194: what one tick can do to `st` (IDENT and READ being one tick when a lead byte is accepted), and
which processing state follows a verified frame. A yield may leave PBIN in PBIN with the cursor at `crc_pos` (log entry 29). -/
def Obligations.TicksFollowTheTransitionTable : Prop :=
  ∀ s t : State, nextIsTick s = true → step s = .next t →
    (s.st, t.st) ∈
      [(.ident, .ident), (.ident, .read), (.ident, .verify), (.ident, .err),
       (.read, .read), (.read, .verify), (.read, .err),
       (.verify, .pascii), (.verify, .pbin), (.verify, .err),
       (.pascii, .pascii), (.pascii, .wait),
       (.pbin, .pbin), (.pbin, .wait), (.pbin, .err),
       (.wait, .wait), (.wait, .ident),
       (.err, .err), ((.err, .wait) : Phase × Phase)] ∧
    (s.st = .verify → t.st = .pascii → s.fmt = .ascii) ∧ (s.st = .verify → t.st = .pbin → s.fmt = .binary)

/-- 60_exceptions.md R283: a tick emits exactly the notification of the state it enters, and none when it enters none that notifies. -/
def Obligations.NotificationsFollowTheStateEntered : Prop :=
  ∀ s t : State, nextIsTick s = true → step s = .next t →
    ∃ new, t.trace = s.trace ++ new ∧
      notifications new =
        (if t.st = s.st then [] else
          match t.st with
          | .ident => [.ready]
          | .verify => [.update]
          | .err => [.commError]
          | .read => []
          | .pascii => []
          | .pbin => []
          | .wait => [])

/-- 10_state.md R37 (5), 42_frame_fsm.md R190: only the two processing steps, a measurement line and the three value elements deliver;
in particular no verification does, whatever its outcome. -/
def Obligations.OnlyTheDecodersDeliver : Prop :=
  ∀ (i : Instr) (s t : State), exec i s = .next t →
    i = .stepPascii ∨ i = .stepPbin ∨ i = .tU32 ∨ i = .tU16 ∨ i = .tS16 ∨ (∃ a b c v, i = .lnMeas a b c v) ∨
    deliveries t.trace = deliveries s.trace

/-- 10_state.md R34, R35, 20_memory.md R79: after the first tick no tick and no call changes the configuration or the registry. -/
def Obligations.ConfigurationAndRegistryAreFixed : Prop :=
  ∀ s t : State, s.ticked = true → (∀ a b c d rest, s.sched ≠ .reset a b c d :: rest) → step s = .next t →
    t.cfg = s.cfg ∧ t.registry = s.registry ∧ t.ticked = true

/-- 20_memory.md R63, R78: only IDENT, READ and RB.APPEND write the buffer; they leave every byte below `pos` and every byte at or
beyond `BUF_CAP`, and never move `pos` past `BUF_CAP`. -/
def Obligations.BufferIsWrittenOnlyAtThePosition : Prop :=
  ∀ (i : Instr) (s t : State), Memory.wf s.buf = true → s.pos ≤ s.cfg.bufCap → exec i s = .next t →
    ((i ≠ .stepIdent ∧ i ≠ .stepRead ∧ ∀ b, i ≠ .rbAppend b) → t.buf = s.buf) ∧
    (∀ a, a < s.pos ∨ s.cfg.bufCap ≤ a → t.at a = s.at a) ∧
    t.pos ≤ t.cfg.bufCap

/-- The frame of the steps whose results are stated piecewise (42_frame_fsm.md R179 to R190, 43_ascii_parser.md R210): the fields
each may write; every other one is unchanged. Of STEP.PBIN and STEP.ERR their completion statements say the same. -/
def Obligations.StepsWriteOnlyTheirRegisters : Prop :=
  (∀ s t : State, exec .stepIdent s = .next t →
    t = { s with
      st := t.st, fmt := t.fmt, pos := t.pos, crcPos := t.crcPos, tRead := t.tRead, tErr := t.tErr, buf := t.buf,
      nReadTicks := t.nReadTicks, src := t.src, polls := t.polls, draws := t.draws, trace := t.trace }) ∧
  (∀ s t : State, exec .stepRead s = .next t →
    t = { s with
      st := t.st, pos := t.pos, crcPos := t.crcPos, tErr := t.tErr, buf := t.buf,
      nReadTicks := s.nReadTicks + 1, src := t.src, polls := t.polls, draws := t.draws, trace := t.trace }) ∧
  (∀ s t : State, s.crcA = none → s.crcX = none → exec .stepVerify s = .next t →
    t = { s with st := t.st, tErr := t.tErr, draws := t.draws, trace := t.trace }) ∧
  (∀ s t : State, exec .stepPascii s = .next t →
    t = { s with st := t.st, cur := t.cur, nProcTicks := s.nProcTicks + 1, yields := t.yields, trace := t.trace })

/-- 42_frame_fsm.md R195: the passthrough is "a pure side channel with no effect on parsing": every operation does the same with
the flag off, the `Pass` events apart. -/
def Obligations.PassthroughHasNoEffect : Prop :=
  ∀ (i : Instr) (s : State),
    mapNext State.withoutPass (exec i s) = mapNext State.withoutPass (exec i s.withoutPass)

/-- 60_exceptions.md R282: no state change depends on an event emitted before; the trace is only appended to. -/
def Obligations.TraceIsOnlyAppendedTo : Prop :=
  ∀ (i : Instr) (s : State) (past : List Event),
    exec i { s with trace := past ++ s.trace } = mapNext (fun t => { t with trace := past ++ t.trace }) (exec i s)
end

