-- ==== Sys2Proof/Laws/Memory.lean ====
section
/-! SUPPORT. The laws of the buffer's and the registry's storage: a read after a write, and that every operation keeps the
canonical form. -/

namespace Sys2Proof.Machine

namespace Memory

@[simp] theorem read_nil (a : Nat) : read [] a = fill := rfl

theorem read_cons_cell (k a : Nat) (v : Byte) (m : List Host.Cell) :
    read ((k, v) :: m) a = if a = k then v else read m a := rfl

theorem wfFrom_mono {lo lo' : Nat} {m : List Host.Cell} (h : lo' ≤ lo) (hm : wfFrom lo m = true) :
    wfFrom lo' m = true := by
  cases m with
  | nil => rfl
  | cons c m =>
    simp only [wfFrom, Bool.and_eq_true, decide_eq_true_eq] at hm ⊢
    exact ⟨⟨h.trans hm.1.1, hm.1.2⟩, hm.2⟩

/-- Below the first listed offset every byte is the fill. -/
theorem read_of_lt {lo a : Nat} {m : List Host.Cell} (hm : wfFrom lo m = true) (h : a < lo) : read m a = fill := by
  induction m generalizing lo with
  | nil => rfl
  | cons c m ih =>
    obtain ⟨k, v⟩ := c
    simp only [wfFrom, Bool.and_eq_true, decide_eq_true_eq] at hm
    rw [read_cons_cell, if_neg (by omega), ih hm.2 (by omega)]

theorem read_cons {a lo : Nat} {m : List Host.Cell} (b : Byte) (hm : wfFrom lo m = true) (h : a < lo) (i : Nat) :
    read (cons a b m) i = if i = a then b else read m i := by
  unfold cons
  split
  · next hb =>
    split
    · next hi => rw [hi, hb]; exact read_of_lt hm h
    · rfl
  · rfl

theorem wfFrom_cons {a lo : Nat} {m : List Host.Cell} (b : Byte) (hm : wfFrom (a + 1) m = true) (h : lo ≤ a) :
    wfFrom lo (cons a b m) = true := by
  unfold cons
  split
  · exact wfFrom_mono (by omega) hm
  · next hb => simp [wfFrom, h, hb, hm]

theorem wfFrom_write {lo a : Nat} {m : List Host.Cell} (b : Byte) (hm : wfFrom lo m = true) (h : lo ≤ a) :
    wfFrom lo (write m a b) = true := by
  induction m generalizing lo with
  | nil => exact wfFrom_cons b rfl h
  | cons c m ih =>
    obtain ⟨k, v⟩ := c
    have hm' := hm
    simp only [wfFrom, Bool.and_eq_true, decide_eq_true_eq] at hm
    simp only [write]
    split
    · next hak => exact wfFrom_cons b (by simp [wfFrom, hm.1.2, hm.2]; omega) h
    · split
      · next hak => subst hak; exact wfFrom_cons b hm.2 h
      · simp only [wfFrom, Bool.and_eq_true, decide_eq_true_eq]
        exact ⟨hm.1, ih hm.2 (by omega)⟩

/-- A write keeps the canonical form. -/
theorem wf_write {m : List Host.Cell} (a : Nat) (b : Byte) (hm : wf m = true) : wf (write m a b) = true :=
  wfFrom_write b hm (Nat.zero_le a)

theorem read_write_from {lo : Nat} {m : List Host.Cell} (hm : wfFrom lo m = true) (a i : Nat) (b : Byte) :
    read (write m a b) i = if i = a then b else read m i := by
  induction m generalizing lo with
  | nil => exact read_cons (lo := a + 1) b rfl (by omega) i
  | cons c m ih =>
    obtain ⟨k, v⟩ := c
    have hm' := hm
    simp only [wfFrom, Bool.and_eq_true, decide_eq_true_eq] at hm
    simp only [write]
    split
    · next hak => exact read_cons (lo := k) b (by simp [wfFrom, hm.1.2, hm.2]) hak i
    · split
      · next hak =>
        subst hak
        rw [read_cons b hm.2 (by omega), read_cons_cell]
        split <;> rfl
      · next h1 h2 =>
        rw [read_cons_cell, ih hm.2, read_cons_cell]
        split
        · next hi => rw [if_neg (by omega)]
        · rfl

/-- A read after a write: the byte written there, every other byte as before. -/
theorem read_write {m : List Host.Cell} (hm : wf m = true) (a i : Nat) (b : Byte) :
    read (write m a b) i = if i = a then b else read m i :=
  read_write_from hm a i b

theorem below_cons {cap a : Nat} {b : Byte} {m : List Host.Cell} (ha : a < cap) (hm : below cap m = true) :
    below cap (cons a b m) = true := by
  unfold cons
  split
  · exact hm
  · simp only [below, List.all_cons, Bool.and_eq_true, decide_eq_true_eq] at hm ⊢
    exact ⟨ha, hm⟩

/-- A write below `cap` stays below `cap`. -/
theorem below_write {cap a : Nat} {m : List Host.Cell} (b : Byte) (ha : a < cap) (hm : below cap m = true) :
    below cap (write m a b) = true := by
  induction m with
  | nil => exact below_cons ha rfl
  | cons c m ih =>
    obtain ⟨k, v⟩ := c
    have hm' := hm
    simp only [below, List.all_cons, Bool.and_eq_true, decide_eq_true_eq] at hm
    simp only [write]
    split
    · exact below_cons ha hm'
    · split
      · exact below_cons ha hm.2
      · simp only [below, List.all_cons, Bool.and_eq_true, decide_eq_true_eq]
        exact ⟨hm.1, ih hm.2⟩

theorem wfFrom_ofBytesFrom (a : Nat) (bs : List Byte) : wfFrom a (ofBytesFrom a bs) = true := by
  induction bs generalizing a with
  | nil => rfl
  | cons b bs ih => exact wfFrom_cons b (ih (a + 1)) (le_refl a)

/-- Contents given byte by byte are in canonical form. -/
theorem wf_ofBytes (cap : Nat) (bs : List Byte) : wf (ofBytes cap bs) = true :=
  wfFrom_ofBytesFrom 0 _

theorem below_ofBytesFrom {cap a : Nat} {bs : List Byte} (h : a + bs.length ≤ cap) :
    below cap (ofBytesFrom a bs) = true := by
  induction bs generalizing a with
  | nil => rfl
  | cons b bs ih =>
    simp only [List.length_cons] at h
    exact below_cons (by omega) (ih (by omega))

theorem below_ofBytes (cap : Nat) (bs : List Byte) : below cap (ofBytes cap bs) = true :=
  below_ofBytesFrom (by simp [List.length_take])

theorem wfFrom_filter {lo : Nat} {m : List Host.Cell} (p : Host.Cell → Bool) (hm : wfFrom lo m = true) :
    wfFrom lo (m.filter p) = true := by
  induction m generalizing lo with
  | nil => rfl
  | cons c m ih =>
    simp only [wfFrom, Bool.and_eq_true, decide_eq_true_eq] at hm
    simp only [List.filter_cons]
    split
    · simp only [wfFrom, Bool.and_eq_true, decide_eq_true_eq]
      exact ⟨hm.1, ih hm.2⟩
    · exact wfFrom_mono (by omega) (ih hm.2)

/-- Restricting a memory keeps the canonical form. -/
theorem wf_restrict {m : List Host.Cell} (cap : Nat) (hm : wf m = true) : wf (restrict cap m) = true :=
  wfFrom_filter _ hm

theorem below_restrict (cap : Nat) (m : List Host.Cell) : below cap (restrict cap m) = true := by
  simp [below, restrict]

/-- Two memories in canonical form that read alike everywhere are equal. -/
theorem ext_of_read {lo : Nat} {m m' : List Host.Cell} (hm : wfFrom lo m = true) (hm' : wfFrom lo m' = true)
    (h : ∀ a, read m a = read m' a) : m = m' := by
  induction m generalizing lo m' with
  | nil =>
    cases m' with
    | nil => rfl
    | cons c m' =>
      simp only [wfFrom, Bool.and_eq_true, decide_eq_true_eq] at hm'
      have := h c.1
      rw [read_nil, read_cons_cell, if_pos rfl] at this
      exact absurd this.symm hm'.1.2
  | cons c m ih =>
    obtain ⟨k, v⟩ := c
    simp only [wfFrom, Bool.and_eq_true, decide_eq_true_eq] at hm
    cases m' with
    | nil =>
      have := h k
      rw [read_nil, read_cons_cell, if_pos rfl] at this
      exact absurd this hm.1.2
    | cons c' m' =>
      obtain ⟨k', v'⟩ := c'
      simp only [wfFrom, Bool.and_eq_true, decide_eq_true_eq] at hm'
      have hk : k = k' := by
        rcases Nat.lt_trichotomy k k' with hlt | heq | hgt
        · have := h k
          rw [read_cons_cell, if_pos rfl, read_cons_cell, if_neg (by omega), read_of_lt hm'.2 (by omega)] at this
          exact absurd this hm.1.2
        · exact heq
        · have := h k'
          rw [read_cons_cell, if_neg (by omega), read_of_lt hm.2 (by omega), read_cons_cell, if_pos rfl] at this
          exact absurd this.symm hm'.1.2
      subst hk
      have hv : v = v' := by
        have := h k
        rwa [read_cons_cell, if_pos rfl, read_cons_cell, if_pos rfl] at this
      subst hv
      rw [ih hm.2 hm'.2 fun a => ?_]
      rcases Nat.lt_or_ge a (k + 1) with ha | ha
      · rw [read_of_lt hm.2 ha, read_of_lt hm'.2 ha]
      · have := h a
        rwa [read_cons_cell, if_neg (by omega), read_cons_cell, if_neg (by omega)] at this

end Memory

namespace Registry

/-- Registering replaces the entry at the code and no other (R155). -/
theorem find_insert (r : List (Code × Nat)) (k j : Code) (h : Nat) :
    find (insert r k h) j = if j = k then some h else find r j := by
  induction r with
  | nil => rfl
  | cons e r ih =>
    obtain ⟨c, g⟩ := e
    simp only [insert]
    split
    · rfl
    · split
      · next hkc => subst hkc; simp only [find]; split <;> rfl
      · next hkc =>
        simp only [find, ih]
        split
        · next hjc => rw [if_neg (fun hjk => hkc (hjk.symm.trans hjc))]
        · rfl

theorem wfFrom_insert {lo : Nat} {r : List (Code × Nat)} (k : Code) (h : Nat) (hr : wfFrom lo r = true)
    (hlo : lo ≤ k.toNat) : wfFrom lo (insert r k h) = true := by
  induction r generalizing lo with
  | nil => simp [insert, wfFrom, hlo]
  | cons e r ih =>
    obtain ⟨c, g⟩ := e
    simp only [wfFrom, Bool.and_eq_true, decide_eq_true_eq] at hr
    simp only [insert]
    split
    · next hlt => simp [wfFrom, hlo, hr.2]; omega
    · split
      · next hkc => subst hkc; simp [wfFrom, hlo, hr.2]
      · next hge hne =>
        simp only [wfFrom, Bool.and_eq_true, decide_eq_true_eq]
        have : c.toNat ≠ k.toNat := fun he => hne (BitVec.eq_of_toNat_eq he.symm)
        exact ⟨hr.1, ih hr.2 (by omega)⟩

/-- Registering keeps the canonical form. -/
theorem wf_insert {r : List (Code × Nat)} (k : Code) (h : Nat) (hr : wf r = true) : wf (insert r k h) = true :=
  wfFrom_insert k h hr (Nat.zero_le _)

end Registry

end Sys2Proof.Machine
end

