-- ==== Sys2Proof/Laws/State.lean ====
section
/-! SUPPORT. One lemma per field for each named update of the state: what the update leaves and what it sets. -/

namespace Sys2Proof.Machine

@[simp] theorem emit_st (e : Event) (s : State) : (emit e s).st = s.st := rfl
@[simp] theorem emit_fmt (e : Event) (s : State) : (emit e s).fmt = s.fmt := rfl
@[simp] theorem emit_pos (e : Event) (s : State) : (emit e s).pos = s.pos := rfl
@[simp] theorem emit_crcPos (e : Event) (s : State) : (emit e s).crcPos = s.crcPos := rfl
@[simp] theorem emit_cur (e : Event) (s : State) : (emit e s).cur = s.cur := rfl
@[simp] theorem emit_curCode (e : Event) (s : State) : (emit e s).curCode = s.curCode := rfl
@[simp] theorem emit_tIdent (e : Event) (s : State) : (emit e s).tIdent = s.tIdent := rfl
@[simp] theorem emit_tRead (e : Event) (s : State) : (emit e s).tRead = s.tRead := rfl
@[simp] theorem emit_tErr (e : Event) (s : State) : (emit e s).tErr = s.tErr := rfl
@[simp] theorem emit_buf (e : Event) (s : State) : (emit e s).buf = s.buf := rfl
@[simp] theorem emit_dlog (e : Event) (s : State) : (emit e s).dlog = s.dlog := rfl
@[simp] theorem emit_nReadTicks (e : Event) (s : State) : (emit e s).nReadTicks = s.nReadTicks := rfl
@[simp] theorem emit_nProcTicks (e : Event) (s : State) : (emit e s).nProcTicks = s.nProcTicks := rfl
@[simp] theorem emit_crcA (e : Event) (s : State) : (emit e s).crcA = s.crcA := rfl
@[simp] theorem emit_crcX (e : Event) (s : State) : (emit e s).crcX = s.crcX := rfl
@[simp] theorem emit_cfg (e : Event) (s : State) : (emit e s).cfg = s.cfg := rfl
@[simp] theorem emit_registry (e : Event) (s : State) : (emit e s).registry = s.registry := rfl
@[simp] theorem emit_ticked (e : Event) (s : State) : (emit e s).ticked = s.ticked := rfl
@[simp] theorem emit_now (e : Event) (s : State) : (emit e s).now = s.now := rfl
@[simp] theorem emit_src (e : Event) (s : State) : (emit e s).src = s.src := rfl
@[simp] theorem emit_polls (e : Event) (s : State) : (emit e s).polls = s.polls := rfl
@[simp] theorem emit_yields (e : Event) (s : State) : (emit e s).yields = s.yields := rfl
@[simp] theorem emit_sched (e : Event) (s : State) : (emit e s).sched = s.sched := rfl
@[simp] theorem emit_draws (e : Event) (s : State) : (emit e s).draws = s.draws := rfl
@[simp] theorem emit_result (e : Event) (s : State) : (emit e s).result = s.result := rfl
@[simp] theorem emit_trace (e : Event) (s : State) : (emit e s).trace = s.trace ++ [e] := rfl

@[simp] theorem advance_st (n : Nat) (s : State) : (advance n s).st = s.st := rfl
@[simp] theorem advance_fmt (n : Nat) (s : State) : (advance n s).fmt = s.fmt := rfl
@[simp] theorem advance_pos (n : Nat) (s : State) : (advance n s).pos = s.pos := rfl
@[simp] theorem advance_crcPos (n : Nat) (s : State) : (advance n s).crcPos = s.crcPos := rfl
@[simp] theorem advance_cur (n : Nat) (s : State) : (advance n s).cur = s.cur + n := rfl
@[simp] theorem advance_curCode (n : Nat) (s : State) : (advance n s).curCode = s.curCode := rfl
@[simp] theorem advance_tIdent (n : Nat) (s : State) : (advance n s).tIdent = s.tIdent := rfl
@[simp] theorem advance_tRead (n : Nat) (s : State) : (advance n s).tRead = s.tRead := rfl
@[simp] theorem advance_tErr (n : Nat) (s : State) : (advance n s).tErr = s.tErr := rfl
@[simp] theorem advance_buf (n : Nat) (s : State) : (advance n s).buf = s.buf := rfl
@[simp] theorem advance_dlog (n : Nat) (s : State) : (advance n s).dlog = s.dlog := rfl
@[simp] theorem advance_nReadTicks (n : Nat) (s : State) : (advance n s).nReadTicks = s.nReadTicks := rfl
@[simp] theorem advance_nProcTicks (n : Nat) (s : State) : (advance n s).nProcTicks = s.nProcTicks := rfl
@[simp] theorem advance_crcA (n : Nat) (s : State) : (advance n s).crcA = s.crcA := rfl
@[simp] theorem advance_crcX (n : Nat) (s : State) : (advance n s).crcX = s.crcX := rfl
@[simp] theorem advance_cfg (n : Nat) (s : State) : (advance n s).cfg = s.cfg := rfl
@[simp] theorem advance_registry (n : Nat) (s : State) : (advance n s).registry = s.registry := rfl
@[simp] theorem advance_ticked (n : Nat) (s : State) : (advance n s).ticked = s.ticked := rfl
@[simp] theorem advance_now (n : Nat) (s : State) : (advance n s).now = s.now := rfl
@[simp] theorem advance_src (n : Nat) (s : State) : (advance n s).src = s.src := rfl
@[simp] theorem advance_polls (n : Nat) (s : State) : (advance n s).polls = s.polls := rfl
@[simp] theorem advance_yields (n : Nat) (s : State) : (advance n s).yields = s.yields := rfl
@[simp] theorem advance_sched (n : Nat) (s : State) : (advance n s).sched = s.sched := rfl
@[simp] theorem advance_draws (n : Nat) (s : State) : (advance n s).draws = s.draws := rfl
@[simp] theorem advance_result (n : Nat) (s : State) : (advance n s).result = s.result := rfl
@[simp] theorem advance_trace (n : Nat) (s : State) : (advance n s).trace = s.trace := rfl

@[simp] theorem takeError_st (c : Cause) (s : State) : (takeError c s).st = .err := by simp [takeError, changeState, entryAction, Target.phase]
@[simp] theorem takeError_fmt (c : Cause) (s : State) : (takeError c s).fmt = s.fmt := by simp [takeError, changeState, entryAction, Target.phase]
@[simp] theorem takeError_pos (c : Cause) (s : State) : (takeError c s).pos = s.pos := by simp [takeError, changeState, entryAction, Target.phase]
@[simp] theorem takeError_crcPos (c : Cause) (s : State) : (takeError c s).crcPos = s.crcPos := by simp [takeError, changeState, entryAction, Target.phase]
@[simp] theorem takeError_cur (c : Cause) (s : State) : (takeError c s).cur = s.cur := by simp [takeError, changeState, entryAction, Target.phase]
@[simp] theorem takeError_curCode (c : Cause) (s : State) : (takeError c s).curCode = s.curCode := by simp [takeError, changeState, entryAction, Target.phase]
@[simp] theorem takeError_tIdent (c : Cause) (s : State) : (takeError c s).tIdent = s.tIdent := by simp [takeError, changeState, entryAction, Target.phase]
@[simp] theorem takeError_tRead (c : Cause) (s : State) : (takeError c s).tRead = s.tRead := by simp [takeError, changeState, entryAction, Target.phase]
@[simp] theorem takeError_tErr (c : Cause) (s : State) : (takeError c s).tErr = s.now := by simp [takeError, changeState, entryAction, Target.phase]
@[simp] theorem takeError_buf (c : Cause) (s : State) : (takeError c s).buf = s.buf := by simp [takeError, changeState, entryAction, Target.phase]
@[simp] theorem takeError_dlog (c : Cause) (s : State) : (takeError c s).dlog = s.dlog := by simp [takeError, changeState, entryAction, Target.phase]
@[simp] theorem takeError_nReadTicks (c : Cause) (s : State) : (takeError c s).nReadTicks = s.nReadTicks := by simp [takeError, changeState, entryAction, Target.phase]
@[simp] theorem takeError_nProcTicks (c : Cause) (s : State) : (takeError c s).nProcTicks = s.nProcTicks := by simp [takeError, changeState, entryAction, Target.phase]
@[simp] theorem takeError_crcA (c : Cause) (s : State) : (takeError c s).crcA = s.crcA := by simp [takeError, changeState, entryAction, Target.phase]
@[simp] theorem takeError_crcX (c : Cause) (s : State) : (takeError c s).crcX = s.crcX := by simp [takeError, changeState, entryAction, Target.phase]
@[simp] theorem takeError_cfg (c : Cause) (s : State) : (takeError c s).cfg = s.cfg := by simp [takeError, changeState, entryAction, Target.phase]
@[simp] theorem takeError_registry (c : Cause) (s : State) : (takeError c s).registry = s.registry := by simp [takeError, changeState, entryAction, Target.phase]
@[simp] theorem takeError_ticked (c : Cause) (s : State) : (takeError c s).ticked = s.ticked := by simp [takeError, changeState, entryAction, Target.phase]
@[simp] theorem takeError_now (c : Cause) (s : State) : (takeError c s).now = s.now := by simp [takeError, changeState, entryAction, Target.phase]
@[simp] theorem takeError_src (c : Cause) (s : State) : (takeError c s).src = s.src := by simp [takeError, changeState, entryAction, Target.phase]
@[simp] theorem takeError_polls (c : Cause) (s : State) : (takeError c s).polls = s.polls := by simp [takeError, changeState, entryAction, Target.phase]
@[simp] theorem takeError_yields (c : Cause) (s : State) : (takeError c s).yields = s.yields := by simp [takeError, changeState, entryAction, Target.phase]
@[simp] theorem takeError_sched (c : Cause) (s : State) : (takeError c s).sched = s.sched := by simp [takeError, changeState, entryAction, Target.phase]
@[simp] theorem takeError_draws (c : Cause) (s : State) : (takeError c s).draws = s.draws := by simp [takeError, changeState, entryAction, Target.phase]
@[simp] theorem takeError_result (c : Cause) (s : State) : (takeError c s).result = s.result := by simp [takeError, changeState, entryAction, Target.phase]
@[simp] theorem takeError_trace (c : Cause) (s : State) : (takeError c s).trace = s.trace ++ [.diag (.error c), .notify .commError] := by simp [takeError, changeState, entryAction, Target.phase]

@[simp] theorem passByte_st (b : Byte) (s : State) : (passByte b s).st = s.st := by unfold passByte; split <;> rfl
@[simp] theorem passByte_fmt (b : Byte) (s : State) : (passByte b s).fmt = s.fmt := by unfold passByte; split <;> rfl
@[simp] theorem passByte_pos (b : Byte) (s : State) : (passByte b s).pos = s.pos := by unfold passByte; split <;> rfl
@[simp] theorem passByte_crcPos (b : Byte) (s : State) : (passByte b s).crcPos = s.crcPos := by unfold passByte; split <;> rfl
@[simp] theorem passByte_cur (b : Byte) (s : State) : (passByte b s).cur = s.cur := by unfold passByte; split <;> rfl
@[simp] theorem passByte_curCode (b : Byte) (s : State) : (passByte b s).curCode = s.curCode := by unfold passByte; split <;> rfl
@[simp] theorem passByte_tIdent (b : Byte) (s : State) : (passByte b s).tIdent = s.tIdent := by unfold passByte; split <;> rfl
@[simp] theorem passByte_tRead (b : Byte) (s : State) : (passByte b s).tRead = s.tRead := by unfold passByte; split <;> rfl
@[simp] theorem passByte_tErr (b : Byte) (s : State) : (passByte b s).tErr = s.tErr := by unfold passByte; split <;> rfl
@[simp] theorem passByte_buf (b : Byte) (s : State) : (passByte b s).buf = s.buf := by unfold passByte; split <;> rfl
@[simp] theorem passByte_dlog (b : Byte) (s : State) : (passByte b s).dlog = s.dlog := by unfold passByte; split <;> rfl
@[simp] theorem passByte_nReadTicks (b : Byte) (s : State) : (passByte b s).nReadTicks = s.nReadTicks := by unfold passByte; split <;> rfl
@[simp] theorem passByte_nProcTicks (b : Byte) (s : State) : (passByte b s).nProcTicks = s.nProcTicks := by unfold passByte; split <;> rfl
@[simp] theorem passByte_crcA (b : Byte) (s : State) : (passByte b s).crcA = s.crcA := by unfold passByte; split <;> rfl
@[simp] theorem passByte_crcX (b : Byte) (s : State) : (passByte b s).crcX = s.crcX := by unfold passByte; split <;> rfl
@[simp] theorem passByte_cfg (b : Byte) (s : State) : (passByte b s).cfg = s.cfg := by unfold passByte; split <;> rfl
@[simp] theorem passByte_registry (b : Byte) (s : State) : (passByte b s).registry = s.registry := by unfold passByte; split <;> rfl
@[simp] theorem passByte_ticked (b : Byte) (s : State) : (passByte b s).ticked = s.ticked := by unfold passByte; split <;> rfl
@[simp] theorem passByte_now (b : Byte) (s : State) : (passByte b s).now = s.now := by unfold passByte; split <;> rfl
@[simp] theorem passByte_src (b : Byte) (s : State) : (passByte b s).src = s.src := by unfold passByte; split <;> rfl
@[simp] theorem passByte_polls (b : Byte) (s : State) : (passByte b s).polls = s.polls := by unfold passByte; split <;> rfl
@[simp] theorem passByte_yields (b : Byte) (s : State) : (passByte b s).yields = s.yields := by unfold passByte; split <;> rfl
@[simp] theorem passByte_sched (b : Byte) (s : State) : (passByte b s).sched = s.sched := by unfold passByte; split <;> rfl
@[simp] theorem passByte_draws (b : Byte) (s : State) : (passByte b s).draws = s.draws := by unfold passByte; split <;> rfl
@[simp] theorem passByte_result (b : Byte) (s : State) : (passByte b s).result = s.result := by unfold passByte; split <;> rfl
@[simp] theorem passByte_trace (b : Byte) (s : State) : (passByte b s).trace = s.trace ++ (if s.cfg.passthrough then [.pass b] else []) := by
  unfold passByte; split <;> simp

@[simp] theorem dispatch_st (k : Code) (v : Rat) (s : State) : (dispatch k v s).st = s.st := by unfold dispatch; split <;> rfl
@[simp] theorem dispatch_fmt (k : Code) (v : Rat) (s : State) : (dispatch k v s).fmt = s.fmt := by unfold dispatch; split <;> rfl
@[simp] theorem dispatch_pos (k : Code) (v : Rat) (s : State) : (dispatch k v s).pos = s.pos := by unfold dispatch; split <;> rfl
@[simp] theorem dispatch_crcPos (k : Code) (v : Rat) (s : State) : (dispatch k v s).crcPos = s.crcPos := by unfold dispatch; split <;> rfl
@[simp] theorem dispatch_cur (k : Code) (v : Rat) (s : State) : (dispatch k v s).cur = s.cur := by unfold dispatch; split <;> rfl
@[simp] theorem dispatch_curCode (k : Code) (v : Rat) (s : State) : (dispatch k v s).curCode = s.curCode := by unfold dispatch; split <;> rfl
@[simp] theorem dispatch_tIdent (k : Code) (v : Rat) (s : State) : (dispatch k v s).tIdent = s.tIdent := by unfold dispatch; split <;> rfl
@[simp] theorem dispatch_tRead (k : Code) (v : Rat) (s : State) : (dispatch k v s).tRead = s.tRead := by unfold dispatch; split <;> rfl
@[simp] theorem dispatch_tErr (k : Code) (v : Rat) (s : State) : (dispatch k v s).tErr = s.tErr := by unfold dispatch; split <;> rfl
@[simp] theorem dispatch_buf (k : Code) (v : Rat) (s : State) : (dispatch k v s).buf = s.buf := by unfold dispatch; split <;> rfl
@[simp] theorem dispatch_dlog (k : Code) (v : Rat) (s : State) : (dispatch k v s).dlog = s.dlog := by unfold dispatch; split <;> rfl
@[simp] theorem dispatch_nReadTicks (k : Code) (v : Rat) (s : State) : (dispatch k v s).nReadTicks = s.nReadTicks := by unfold dispatch; split <;> rfl
@[simp] theorem dispatch_nProcTicks (k : Code) (v : Rat) (s : State) : (dispatch k v s).nProcTicks = s.nProcTicks := by unfold dispatch; split <;> rfl
@[simp] theorem dispatch_crcA (k : Code) (v : Rat) (s : State) : (dispatch k v s).crcA = s.crcA := by unfold dispatch; split <;> rfl
@[simp] theorem dispatch_crcX (k : Code) (v : Rat) (s : State) : (dispatch k v s).crcX = s.crcX := by unfold dispatch; split <;> rfl
@[simp] theorem dispatch_cfg (k : Code) (v : Rat) (s : State) : (dispatch k v s).cfg = s.cfg := by unfold dispatch; split <;> rfl
@[simp] theorem dispatch_registry (k : Code) (v : Rat) (s : State) : (dispatch k v s).registry = s.registry := by unfold dispatch; split <;> rfl
@[simp] theorem dispatch_ticked (k : Code) (v : Rat) (s : State) : (dispatch k v s).ticked = s.ticked := by unfold dispatch; split <;> rfl
@[simp] theorem dispatch_now (k : Code) (v : Rat) (s : State) : (dispatch k v s).now = s.now := by unfold dispatch; split <;> rfl
@[simp] theorem dispatch_src (k : Code) (v : Rat) (s : State) : (dispatch k v s).src = s.src := by unfold dispatch; split <;> rfl
@[simp] theorem dispatch_polls (k : Code) (v : Rat) (s : State) : (dispatch k v s).polls = s.polls := by unfold dispatch; split <;> rfl
@[simp] theorem dispatch_yields (k : Code) (v : Rat) (s : State) : (dispatch k v s).yields = s.yields := by unfold dispatch; split <;> rfl
@[simp] theorem dispatch_sched (k : Code) (v : Rat) (s : State) : (dispatch k v s).sched = s.sched := by unfold dispatch; split <;> rfl
@[simp] theorem dispatch_draws (k : Code) (v : Rat) (s : State) : (dispatch k v s).draws = s.draws := by unfold dispatch; split <;> rfl
@[simp] theorem dispatch_result (k : Code) (v : Rat) (s : State) : (dispatch k v s).result = s.result := by unfold dispatch; split <;> rfl

@[simp] theorem flushDlog_st (s : State) : (flushDlog s).st = s.st := by unfold flushDlog; split <;> rfl
@[simp] theorem flushDlog_fmt (s : State) : (flushDlog s).fmt = s.fmt := by unfold flushDlog; split <;> rfl
@[simp] theorem flushDlog_pos (s : State) : (flushDlog s).pos = s.pos := by unfold flushDlog; split <;> rfl
@[simp] theorem flushDlog_crcPos (s : State) : (flushDlog s).crcPos = s.crcPos := by unfold flushDlog; split <;> rfl
@[simp] theorem flushDlog_cur (s : State) : (flushDlog s).cur = s.cur := by unfold flushDlog; split <;> rfl
@[simp] theorem flushDlog_curCode (s : State) : (flushDlog s).curCode = s.curCode := by unfold flushDlog; split <;> rfl
@[simp] theorem flushDlog_tIdent (s : State) : (flushDlog s).tIdent = s.tIdent := by unfold flushDlog; split <;> rfl
@[simp] theorem flushDlog_tRead (s : State) : (flushDlog s).tRead = s.tRead := by unfold flushDlog; split <;> rfl
@[simp] theorem flushDlog_tErr (s : State) : (flushDlog s).tErr = s.tErr := by unfold flushDlog; split <;> rfl
@[simp] theorem flushDlog_buf (s : State) : (flushDlog s).buf = s.buf := by unfold flushDlog; split <;> rfl
@[simp] theorem flushDlog_dlog (s : State) : (flushDlog s).dlog = [] := by
  unfold flushDlog; split
  · next h => simpa using h
  · rfl
@[simp] theorem flushDlog_nReadTicks (s : State) : (flushDlog s).nReadTicks = s.nReadTicks := by unfold flushDlog; split <;> rfl
@[simp] theorem flushDlog_nProcTicks (s : State) : (flushDlog s).nProcTicks = s.nProcTicks := by unfold flushDlog; split <;> rfl
@[simp] theorem flushDlog_crcA (s : State) : (flushDlog s).crcA = s.crcA := by unfold flushDlog; split <;> rfl
@[simp] theorem flushDlog_crcX (s : State) : (flushDlog s).crcX = s.crcX := by unfold flushDlog; split <;> rfl
@[simp] theorem flushDlog_cfg (s : State) : (flushDlog s).cfg = s.cfg := by unfold flushDlog; split <;> rfl
@[simp] theorem flushDlog_registry (s : State) : (flushDlog s).registry = s.registry := by unfold flushDlog; split <;> rfl
@[simp] theorem flushDlog_ticked (s : State) : (flushDlog s).ticked = s.ticked := by unfold flushDlog; split <;> rfl
@[simp] theorem flushDlog_now (s : State) : (flushDlog s).now = s.now := by unfold flushDlog; split <;> rfl
@[simp] theorem flushDlog_src (s : State) : (flushDlog s).src = s.src := by unfold flushDlog; split <;> rfl
@[simp] theorem flushDlog_polls (s : State) : (flushDlog s).polls = s.polls := by unfold flushDlog; split <;> rfl
@[simp] theorem flushDlog_yields (s : State) : (flushDlog s).yields = s.yields := by unfold flushDlog; split <;> rfl
@[simp] theorem flushDlog_sched (s : State) : (flushDlog s).sched = s.sched := by unfold flushDlog; split <;> rfl
@[simp] theorem flushDlog_draws (s : State) : (flushDlog s).draws = s.draws := by unfold flushDlog; split <;> rfl
@[simp] theorem flushDlog_result (s : State) : (flushDlog s).result = s.result := by unfold flushDlog; split <;> rfl

@[simp] theorem changeState_st (n : Target) (s : State) : (changeState n s).st = n.phase := by cases n <;> unfold changeState entryAction <;> first | rfl | (dsimp only; split <;> rfl)
@[simp] theorem changeState_fmt (n : Target) (s : State) : (changeState n s).fmt = s.fmt := by cases n <;> unfold changeState entryAction <;> first | rfl | (dsimp only; split <;> rfl)
@[simp] theorem changeState_buf (n : Target) (s : State) : (changeState n s).buf = s.buf := by cases n <;> unfold changeState entryAction <;> first | rfl | (dsimp only; split <;> rfl)
@[simp] theorem changeState_dlog (n : Target) (s : State) : (changeState n s).dlog = s.dlog := by cases n <;> unfold changeState entryAction <;> first | rfl | (dsimp only; split <;> rfl)
@[simp] theorem changeState_crcA (n : Target) (s : State) : (changeState n s).crcA = s.crcA := by cases n <;> unfold changeState entryAction <;> first | rfl | (dsimp only; split <;> rfl)
@[simp] theorem changeState_crcX (n : Target) (s : State) : (changeState n s).crcX = s.crcX := by cases n <;> unfold changeState entryAction <;> first | rfl | (dsimp only; split <;> rfl)
@[simp] theorem changeState_cfg (n : Target) (s : State) : (changeState n s).cfg = s.cfg := by cases n <;> unfold changeState entryAction <;> first | rfl | (dsimp only; split <;> rfl)
@[simp] theorem changeState_registry (n : Target) (s : State) : (changeState n s).registry = s.registry := by cases n <;> unfold changeState entryAction <;> first | rfl | (dsimp only; split <;> rfl)
@[simp] theorem changeState_ticked (n : Target) (s : State) : (changeState n s).ticked = s.ticked := by cases n <;> unfold changeState entryAction <;> first | rfl | (dsimp only; split <;> rfl)
@[simp] theorem changeState_now (n : Target) (s : State) : (changeState n s).now = s.now := by cases n <;> unfold changeState entryAction <;> first | rfl | (dsimp only; split <;> rfl)
@[simp] theorem changeState_src (n : Target) (s : State) : (changeState n s).src = s.src := by cases n <;> unfold changeState entryAction <;> first | rfl | (dsimp only; split <;> rfl)
@[simp] theorem changeState_polls (n : Target) (s : State) : (changeState n s).polls = s.polls := by cases n <;> unfold changeState entryAction <;> first | rfl | (dsimp only; split <;> rfl)
@[simp] theorem changeState_yields (n : Target) (s : State) : (changeState n s).yields = s.yields := by cases n <;> unfold changeState entryAction <;> first | rfl | (dsimp only; split <;> rfl)
@[simp] theorem changeState_sched (n : Target) (s : State) : (changeState n s).sched = s.sched := by cases n <;> unfold changeState entryAction <;> first | rfl | (dsimp only; split <;> rfl)
@[simp] theorem changeState_draws (n : Target) (s : State) : (changeState n s).draws = s.draws := by cases n <;> unfold changeState entryAction <;> first | rfl | (dsimp only; split <;> rfl)
@[simp] theorem changeState_result (n : Target) (s : State) : (changeState n s).result = s.result := by cases n <;> unfold changeState entryAction <;> first | rfl | (dsimp only; split <;> rfl)

@[simp] theorem latchTick_st (t : Time) (a : List Byte) (p : List (List Byte)) (y : List Bool) (s : State) : (latchTick t a p y s).st = s.st := rfl
@[simp] theorem latchTick_fmt (t : Time) (a : List Byte) (p : List (List Byte)) (y : List Bool) (s : State) : (latchTick t a p y s).fmt = s.fmt := rfl
@[simp] theorem latchTick_pos (t : Time) (a : List Byte) (p : List (List Byte)) (y : List Bool) (s : State) : (latchTick t a p y s).pos = s.pos := rfl
@[simp] theorem latchTick_crcPos (t : Time) (a : List Byte) (p : List (List Byte)) (y : List Bool) (s : State) : (latchTick t a p y s).crcPos = s.crcPos := rfl
@[simp] theorem latchTick_cur (t : Time) (a : List Byte) (p : List (List Byte)) (y : List Bool) (s : State) : (latchTick t a p y s).cur = s.cur := rfl
@[simp] theorem latchTick_curCode (t : Time) (a : List Byte) (p : List (List Byte)) (y : List Bool) (s : State) : (latchTick t a p y s).curCode = s.curCode := rfl
@[simp] theorem latchTick_tIdent (t : Time) (a : List Byte) (p : List (List Byte)) (y : List Bool) (s : State) : (latchTick t a p y s).tIdent = s.tIdent := rfl
@[simp] theorem latchTick_tRead (t : Time) (a : List Byte) (p : List (List Byte)) (y : List Bool) (s : State) : (latchTick t a p y s).tRead = s.tRead := rfl
@[simp] theorem latchTick_tErr (t : Time) (a : List Byte) (p : List (List Byte)) (y : List Bool) (s : State) : (latchTick t a p y s).tErr = s.tErr := rfl
@[simp] theorem latchTick_buf (t : Time) (a : List Byte) (p : List (List Byte)) (y : List Bool) (s : State) : (latchTick t a p y s).buf = s.buf := rfl
@[simp] theorem latchTick_dlog (t : Time) (a : List Byte) (p : List (List Byte)) (y : List Bool) (s : State) : (latchTick t a p y s).dlog = s.dlog := rfl
@[simp] theorem latchTick_nReadTicks (t : Time) (a : List Byte) (p : List (List Byte)) (y : List Bool) (s : State) : (latchTick t a p y s).nReadTicks = s.nReadTicks := rfl
@[simp] theorem latchTick_nProcTicks (t : Time) (a : List Byte) (p : List (List Byte)) (y : List Bool) (s : State) : (latchTick t a p y s).nProcTicks = s.nProcTicks := rfl
@[simp] theorem latchTick_crcA (t : Time) (a : List Byte) (p : List (List Byte)) (y : List Bool) (s : State) : (latchTick t a p y s).crcA = s.crcA := rfl
@[simp] theorem latchTick_crcX (t : Time) (a : List Byte) (p : List (List Byte)) (y : List Bool) (s : State) : (latchTick t a p y s).crcX = s.crcX := rfl
@[simp] theorem latchTick_cfg (t : Time) (a : List Byte) (p : List (List Byte)) (y : List Bool) (s : State) : (latchTick t a p y s).cfg = s.cfg := rfl
@[simp] theorem latchTick_registry (t : Time) (a : List Byte) (p : List (List Byte)) (y : List Bool) (s : State) : (latchTick t a p y s).registry = s.registry := rfl
@[simp] theorem latchTick_ticked (t : Time) (a : List Byte) (p : List (List Byte)) (y : List Bool) (s : State) : (latchTick t a p y s).ticked = s.ticked := rfl
@[simp] theorem latchTick_now (t : Time) (a : List Byte) (p : List (List Byte)) (y : List Bool) (s : State) : (latchTick t a p y s).now = t := rfl
@[simp] theorem latchTick_src (t : Time) (a : List Byte) (p : List (List Byte)) (y : List Bool) (s : State) : (latchTick t a p y s).src = s.src ++ s.polls.flatten ++ a := rfl
@[simp] theorem latchTick_polls (t : Time) (a : List Byte) (p : List (List Byte)) (y : List Bool) (s : State) : (latchTick t a p y s).polls = p := rfl
@[simp] theorem latchTick_yields (t : Time) (a : List Byte) (p : List (List Byte)) (y : List Bool) (s : State) : (latchTick t a p y s).yields = y := rfl
@[simp] theorem latchTick_sched (t : Time) (a : List Byte) (p : List (List Byte)) (y : List Bool) (s : State) : (latchTick t a p y s).sched = s.sched := rfl
@[simp] theorem latchTick_draws (t : Time) (a : List Byte) (p : List (List Byte)) (y : List Bool) (s : State) : (latchTick t a p y s).draws = s.draws := rfl
@[simp] theorem latchTick_result (t : Time) (a : List Byte) (p : List (List Byte)) (y : List Bool) (s : State) : (latchTick t a p y s).result = s.result := rfl
@[simp] theorem latchTick_trace (t : Time) (a : List Byte) (p : List (List Byte)) (y : List Bool) (s : State) : (latchTick t a p y s).trace = s.trace := rfl

end Sys2Proof.Machine
end

