-- ==== Sys2Proof/Laws/Ops.lean ====
section
/-! SUPPORT. One lemma per shared operation that says once everything it can do; later proofs cite it instead of unfolding
the operation. -/

namespace Sys2Proof.Machine

/-! ## Flow -/

@[simp] theorem Flow.andThen_go (s : State) (k : State → Flow) : (Flow.go s).andThen k = k s := rfl
@[simp] theorem Flow.andThen_done (o : Out) (k : State → Flow) : (Flow.done o).andThen k = .done o := rfl
@[simp] theorem Flow.out_go (s : State) : (Flow.go s).out = .next s := rfl
@[simp] theorem Flow.out_done (o : Out) : (Flow.done o).out = o := rfl

/-! ## Environment primitives -/

/-- `avail()` only moves the bytes of the next poll to the source. -/
theorem avail_eq (s : State) :
    (s.polls = [] ∧ avail s = (!s.src.isEmpty, s)) ∨
    (∃ p ps, s.polls = p :: ps ∧ avail s = (!(s.src ++ p).isEmpty, { s with src := s.src ++ p, polls := ps })) := by
  unfold avail
  split
  · next h => exact .inl ⟨h, rfl⟩
  · next p ps h => exact .inr ⟨p, ps, h, rfl⟩

/-- After a true `avail()` the source has a byte. -/
theorem src_of_avail {s : State} (h : (avail s).1 = true) : ∃ b bs, (avail s).2.src = b :: bs := by
  rcases avail_eq s with ⟨-, he⟩ | ⟨p, ps, -, he⟩ <;> rw [he] at h ⊢ <;> simp only at h ⊢
  · cases hs : s.src with
    | nil => simp [hs] at h
    | cons b bs => exact ⟨b, bs, rfl⟩
  · cases hs : s.src ++ p with
    | nil => simp [hs] at h
    | cons b bs => exact ⟨b, bs, rfl⟩

/-- `avail()` loses no byte and adds none (20_memory.md R75 (3)). -/
theorem arriving_avail (s : State) : arriving (avail s).2 = arriving s := by
  rcases avail_eq s with ⟨-, he⟩ | ⟨p, ps, hp, he⟩
  · rw [he]
  · rw [he]; simp [arriving, hp]; omega

/-- `read()` takes the oldest byte of the source (R195). -/
theorem readByte_cons {s : State} {b : Byte} {bs : List Byte} (h : s.src = b :: bs) :
    readByte s = some (b, passByte b { s with src := bs }) := by
  simp [readByte, h]

theorem passByte_eq (b : Byte) (s : State) :
    passByte b s = { s with trace := s.trace ++ (if s.cfg.passthrough then [.pass b] else []) } := by
  unfold passByte; split <;> simp [emit]

theorem yieldNow_eq (s : State) :
    (s.yields = [] ∧ yieldNow s = (false, s)) ∨
    (∃ y ys, s.yields = y :: ys ∧ yieldNow s = (y, { s with yields := ys })) := by
  unfold yieldNow
  split
  · next h => exact .inl ⟨h, rfl⟩
  · next y ys h => exact .inr ⟨y, ys, h, rfl⟩

/-! ## The receive buffer -/

theorem bufRead_of_lt {i : Nat} {s : State} (h : i < s.cfg.bufCap) : bufRead i s = (s.at i, s) := by
  simp [bufRead, h]

theorem bufRead_of_ge {i : Nat} {s : State} (h : s.cfg.bufCap ≤ i) :
    bufRead i s = (Config.unspecifiedByte s.draws, { s with draws := s.draws + 1 }) := by
  simp [bufRead, Nat.not_lt.mpr h]

/-- A read changes at most the count of draws (R61, R62). -/
theorem bufRead_state (i : Nat) (s : State) :
    (bufRead i s).2 = { s with draws := s.draws + (if i < s.cfg.bufCap then 0 else 1) } := by
  unfold bufRead; split <;> simp

theorem bytes_succ (s : State) (i n : Nat) : s.bytes i (i + (n + 1)) = s.at i :: s.bytes (i + 1) (i + 1 + n) := by
  have h1 : i + (n + 1) - i = n + 1 := by omega
  have h2 : i + 1 + n - (i + 1) = n := by omega
  simp only [State.bytes, h1, h2, List.range_succ_eq_map, List.map_cons, List.map_map, Nat.add_zero, List.cons.injEq,
    true_and]
  exact List.map_congr_left fun k _ => by simp [Function.comp, Nat.add_comm 1 k, Nat.add_assoc]

@[simp] theorem bytes_self (s : State) (i : Nat) : s.bytes i i = [] := by simp [State.bytes]

/-- A read of several bytes inside the buffer gives the stored bytes and changes nothing. -/
theorem bufReads_of_le {n i : Nat} {s : State} (h : i + n ≤ s.cfg.bufCap) :
    bufReads n i s = (s.bytes i (i + n), s) := by
  induction n generalizing i with
  | zero => simp [bufReads]
  | succ n ih =>
    simp only [bufReads, bufRead_of_lt (show i < s.cfg.bufCap by omega), ih (i := i + 1) (by omega), bytes_succ]

theorem bufReads_state (n i : Nat) (s : State) : ∃ d, (bufReads n i s).2 = { s with draws := s.draws + d } := by
  induction n generalizing i s with
  | zero => exact ⟨0, rfl⟩
  | succ n ih =>
    obtain ⟨d, hd⟩ := ih (i + 1) (bufRead i s).2
    refine ⟨(if i < s.cfg.bufCap then 0 else 1) + d, ?_⟩
    change (bufReads n (i + 1) (bufRead i s).2).2 = _
    rw [hd, bufRead_state]
    simp only [Nat.add_assoc]

theorem storeByte_of_lt {b : Byte} {s : State} (h : s.pos < s.cfg.bufCap) :
    storeByte b s = .go { s with buf := Memory.write s.buf s.pos b, pos := s.pos + 1 } := by
  simp [storeByte, Nat.not_le.mpr h]

/-! ## Changing state -/

theorem changeState_ident (s : State) :
    changeState .ident s =
      { s with
        st := .ident, tIdent := s.now, pos := 0, crcPos := 0, cur := 0, curCode := Config.obisInvalid,
        nReadTicks := 0, nProcTicks := 0, trace := s.trace ++ [.notify .ready] } := rfl

theorem changeState_read (s : State) : changeState .read s = { s with st := .read, tRead := s.now } := rfl

theorem changeState_verify (s : State) :
    changeState .verify s = { s with st := .verify, trace := s.trace ++ [.notify .update] } := rfl

theorem changeState_pascii (s : State) : changeState .pascii s = { s with st := .pascii } := rfl

theorem changeState_pbin (s : State) : changeState .pbin s = { s with st := .pbin } := rfl

theorem changeState_wait (s : State) :
    changeState .wait s =
      { s with
        st := .wait,
        trace := s.trace ++ (if s.st = .err then [] else [.diag (.summary s.nReadTicks s.nProcTicks)]) } := by
  unfold changeState entryAction
  dsimp only
  split <;> simp [emit, Target.phase]

/-- Taking an error writes `st`, `t_err` and the trace, nothing else (R274). -/
theorem takeError_eq (c : Cause) (s : State) :
    takeError c s =
      { s with st := .err, tErr := s.now, trace := s.trace ++ [.diag (.error c), .notify .commError] } := by
  simp [takeError, changeState, entryAction, emit, Target.phase]

theorem flushDlog_eq (s : State) :
    flushDlog s = { s with dlog := [], trace := s.trace ++ (if s.dlog = [] then [] else [.diag (.discard s.dlog)]) } := by
  unfold flushDlog
  cases h : s.dlog with
  | nil => simp [← h]
  | cons b bs => simp [emit]

/-- The return from an error (R276). -/
theorem returnFromError_eq {s : State} (h : s.st = .err) :
    returnFromError s =
      { s with
        st := .wait, dlog := [], trace := s.trace ++ (if s.dlog = [] then [] else [.diag (.discard s.dlog)]) } := by
  rw [returnFromError, changeState_wait]
  simp [flushDlog_eq, h]

/-! ## Dispatch -/

/-- A dispatch emits one event and changes nothing else (R197). -/
theorem dispatch_eq (k : Code) (v : Rat) (s : State) :
    dispatch k v s = { s with trace := s.trace ++ [dispatchEvent s k v] } := by
  unfold dispatch regLookup dispatchEvent
  generalize (if k = Config.obisInvalid then none else Registry.find s.registry k) = o
  cases o <;> rfl

/-! ## Checksums over the buffer -/

theorem crcaLoop_eq {n i : Nat} {s : State} {c : Crc} (hc : s.crcA = some c) (h : i + n ≤ s.cfg.bufCap) :
    crcaLoop n i s = { s with crcA := some ((s.bytes i (i + n)).foldl crcaUpd c) } := by
  induction n generalizing i s c with
  | zero => simp [crcaLoop, ← hc]
  | succ n ih =>
    have hb := bytes_succ s i n
    simp only [crcaLoop, bufRead_of_lt (show i < s.cfg.bufCap by omega), hc, Option.map_some]
    rw [ih (c := crcaUpd c (s.at i)) rfl (by simp only; omega), hb]
    rfl

/-- `CRCA.RNG` inside the buffer (R131): the checksum of the stored bytes; nothing is left behind (R134). -/
theorem crcaRange_eq {lo hi : Nat} {s : State} (h : hi ≤ s.cfg.bufCap) (hA : s.crcA = none) :
    crcaRange lo hi s = (crcaBytes (s.bytes lo hi), s) := by
  rcases Nat.le_total lo hi with hle | hle
  · have hl : lo + (hi - lo) = hi := by omega
    unfold crcaRange
    rw [crcaLoop_eq (c := 0x0000#16) rfl (by simp only; omega)]
    simp only [hl]
    exact Prod.ext rfl (by rw [← hA])
  · have h0 : hi - lo = 0 := by omega
    simp only [crcaRange, h0, crcaLoop, State.bytes, List.range_zero, List.map_nil, ← hA]
    rfl

theorem crcxLoop_eq {n i : Nat} {s : State} {c : Crc} (hc : s.crcX = some c) (h : i + n ≤ s.cfg.bufCap) :
    crcxLoop n i s = { s with crcX := some ((s.bytes i (i + n)).foldl crcxUpd c) } := by
  induction n generalizing i s c with
  | zero => simp [crcxLoop, ← hc]
  | succ n ih =>
    have hb := bytes_succ s i n
    simp only [crcxLoop, bufRead_of_lt (show i < s.cfg.bufCap by omega), hc, Option.map_some]
    rw [ih (c := crcxUpd c (s.at i)) rfl (by simp only; omega), hb]
    rfl

/-- `CRCX.RNG` inside the buffer (R133). -/
theorem crcxRange_eq {lo hi : Nat} {s : State} (h : hi ≤ s.cfg.bufCap) (hX : s.crcX = none) :
    crcxRange lo hi s = (crcxBytes (s.bytes lo hi), s) := by
  rcases Nat.le_total lo hi with hle | hle
  · have hl : lo + (hi - lo) = hi := by omega
    unfold crcxRange
    rw [crcxLoop_eq (c := 0xFFFF#16) rfl (by simp only; omega)]
    simp only [hl]
    exact Prod.ext rfl (by rw [← hX])
  · have h0 : hi - lo = 0 := by omega
    simp only [crcxRange, h0, crcxLoop, State.bytes, List.range_zero, List.map_nil, ← hX]
    rfl

/-! ## Scans of the ASCII decoder and of the hex field -/

/-- The skip stops at the first byte that is no terminator (R210). -/
theorem skipTerminators_eq {m : List Host.Cell} {n i c : Nat} (hic : i ≤ c) (hc : c < i + n)
    (hs : ∀ a, i ≤ a → a < c → isTerminator (Memory.read m a) = true)
    (he : isTerminator (Memory.read m c) = false) : skipTerminators m n i = some c := by
  induction n generalizing i with
  | zero => omega
  | succ n ih =>
    rcases Nat.eq_or_lt_of_le hic with h | h
    · subst h; simp [skipTerminators, he]
    · simp only [skipTerminators, hs i (le_refl i) h, if_true]
      exact ih h (by omega) fun a h1 h2 => hs a (by omega) h2

/-- The search stops at the first boundary (R211). -/
theorem findBoundary_eq {m : List Host.Cell} {n i e : Nat} (hie : i ≤ e) (he : e < i + n)
    (hs : ∀ a, i ≤ a → a < e → isBoundary (Memory.read m a) = false)
    (hb : isBoundary (Memory.read m e) = true) : findBoundary m n i = some e := by
  induction n generalizing i with
  | zero => omega
  | succ n ih =>
    rcases Nat.eq_or_lt_of_le hie with h | h
    · subst h; simp [findBoundary, hb]
    · simp only [findBoundary, hs i (le_refl i) h, Bool.false_eq_true, if_false]
      exact ih h (by omega) fun a h1 h2 => hs a (by omega) h2

/-! ## The reading loop -/

/-- One round of the loop of `STEP.READ` (R181). -/
theorem readLoop_succ {fuel : Nat} {s : State} {b : Byte} {bs : List Byte} (ha : (avail s).1 = true)
    (hb : (avail s).2.src = b :: bs) :
    readLoop (fuel + 1) s =
      (rbAppend b (avail s).2).andThen fun s2 => (rbAction b s2).andThen fun s3 => readLoop fuel s3 := by
  have he : avail s = (true, (avail s).2) := Prod.ext ha rfl
  simp only [readLoop]
  rw [he]
  simp only [hb]

/-- The loop ends when no byte is available (R181). -/
theorem readLoop_idle {fuel : Nat} {s : State} (ha : (avail s).1 = false) :
    readLoop (fuel + 1) s = .go (avail s).2 := by
  have he : avail s = (false, (avail s).2) := Prod.ext ha rfl
  simp only [readLoop]
  rw [he]

/-- `RB.APPEND` of the oldest byte with room left (R182). -/
theorem rbAppend_eq {s : State} {b : Byte} {bs : List Byte} (hb : s.src = b :: bs) (h : s.pos < s.cfg.bufCap) :
    rbAppend b s =
      .go { s with
        src := bs, buf := Memory.write s.buf s.pos b, pos := s.pos + 1,
        trace := s.trace ++ (if s.cfg.passthrough then [.pass b] else []) } := by
  unfold rbAppend
  rw [if_neg (Nat.ne_of_lt h), readByte_cons hb]
  dsimp only
  rw [if_pos rfl, passByte_eq]
  exact storeByte_of_lt h

/-! ## The elements of the binary format -/

theorem readBe16_eq {i : Nat} {s : State} (h : i + 1 < s.cfg.bufCap) :
    readBe16 i s = (be16 (s.at i) (s.at (i + 1)), s) := by
  simp [readBe16, bufRead_of_lt (show i < s.cfg.bufCap by omega), bufRead_of_lt h]

theorem readBe32_eq {i : Nat} {s : State} (h : i + 3 < s.cfg.bufCap) :
    readBe32 i s = (be32 (s.at i) (s.at (i + 1)) (s.at (i + 2)) (s.at (i + 3)), s) := by
  simp [readBe32, bufRead_of_lt (show i < s.cfg.bufCap by omega), bufRead_of_lt (show i + 1 < s.cfg.bufCap by omega),
    bufRead_of_lt (show i + 2 < s.cfg.bufCap by omega), bufRead_of_lt h]

/-- The cursor never moves backward over an element (10_state.md R38). -/
theorem controlScan_found {n : Nat} {s : State} {c : Nat} (hc : s.cur ≤ c) (hn : c < s.cur + n)
    (hcap : c < s.cfg.bufCap) (hs : ∀ a, s.cur ≤ a → a < c → s.at a ≠ controlByte) (he : s.at c = controlByte) :
    controlScan n s = { s with cur := c } := by
  induction n generalizing s with
  | zero => omega
  | succ n ih =>
    simp only [controlScan, bufRead_of_lt (show s.cur < s.cfg.bufCap by omega)]
    rcases Nat.eq_or_lt_of_le hc with h | h
    · subst h; rw [if_pos he]
    · rw [if_neg (hs s.cur (le_refl _) h)]
      exact ih (s := advance 1 s) (by simpa using h) (by simp; omega) hcap
        (fun a h1 h2 => hs a (by simp at h1; omega) h2) he

theorem controlScan_none {n : Nat} {s : State} (hcap : s.cur + n ≤ s.cfg.bufCap)
    (hs : ∀ a, s.cur ≤ a → a < s.cur + n → s.at a ≠ controlByte) : controlScan n s = { s with cur := s.cur + n } := by
  induction n generalizing s with
  | zero => rfl
  | succ n ih =>
    simp only [controlScan, bufRead_of_lt (show s.cur < s.cfg.bufCap by omega)]
    rw [if_neg (hs s.cur (le_refl _) (by omega)), ih (s := advance 1 s) (by simp; omega)
      (fun a h1 h2 => hs a (by simp at h1; omega) (by simp at h2; omega))]
    simp only [advance, Nat.add_assoc, Nat.add_comm 1 n]

/-! ## The canonical form -/

/-- Storing a list of bytes keeps the canonical form. -/
theorem wf_writes (bs : List Byte) : ∀ (m : List Host.Cell) (a : Nat), Memory.wf m = true → Memory.wf (Memory.writes m a bs) = true := by
  induction bs with
  | nil => exact fun _ _ h => h
  | cons b bs ih => exact fun m a h => ih _ _ (Memory.wf_write a b h)

/-- The buffer and the registry at reset are in canonical form. -/
theorem wf_reset : Memory.wf State.reset.buf = true ∧ Registry.wf State.reset.registry = true := ⟨rfl, rfl⟩

end Sys2Proof.Machine
end

