-- ==== Sys2Proof/Laws/PerInstr.lean ====
section
/-! SUPPORT. Facts about every instruction as syntax, one lemma per constructor: the format its encoding is in is the
`format` column of opcode_table.json. -/

namespace Sys2Proof.Laws

/-- The formats of opcode_table.json (30_encoding.md R90). -/
inductive Format
  | fu | st | lb | rb | tlv | ln
  deriving DecidableEq, Repr

/-- The format of a selecting value. -/
def formatOf : Selector → Format
  | .st _ => .st
  | .lb _ => .lb
  | .rbArrive _ => .rb
  | .rbAfter _ _ _ _ => .rb
  | .tlv _ => .tlv
  | .ln _ => .ln
  | .lnBound _ => .ln
  | .fu _ _ => .fu

/-- The `format` column of opcode_table.json. -/
def tableFormat : Instr → Format
  | .crcaUpd _ _ => .fu
  | .crcaRng _ _ => .fu
  | .crcxUpd _ _ => .fu
  | .crcxRng _ _ => .fu
  | .obisPack _ _ _ => .fu
  | .obisUnpk _ => .fu
  | .obisParse _ => .fu
  | .regAdd _ _ => .fu
  | .regLookup _ => .fu
  | .stepIdent => .st
  | .stepRead => .st
  | .stepVerify => .st
  | .stepPascii => .st
  | .stepPbin => .st
  | .stepWait => .st
  | .stepErr => .st
  | .lbAscii => .lb
  | .lbBinary => .lb
  | .lbIllegal _ => .lb
  | .rbAppend _ => .rb
  | .rbMark => .rb
  | .rbHdr _ => .rb
  | .rbEndA => .rb
  | .rbEndB _ => .rb
  | .tNull => .tlv
  | .tArray => .tlv
  | .tStruct => .tlv
  | .tU32 => .tlv
  | .tOctet => .tlv
  | .tString => .tlv
  | .tDatetime => .tlv
  | .tScalunit => .tlv
  | .tU16 => .tlv
  | .tS16 => .tlv
  | .tEnum => .tlv
  | .tIllegal _ => .tlv
  | .lnMeas _ _ _ _ => .ln
  | .lnOther _ => .ln
  | .lnEnd _ => .ln

namespace FormatOfEncoding

/-- An instruction is encoded in its row's format. -/
def Statement (i : Instr) : Prop := formatOf (encode i) = tableFormat i

theorem crcaUpd (c : Crc) (b : Byte) : Statement (.crcaUpd c b) := rfl
theorem crcaRng (lo hi : Nat) : Statement (.crcaRng lo hi) := rfl
theorem crcxUpd (c : Crc) (b : Byte) : Statement (.crcxUpd c b) := rfl
theorem crcxRng (lo hi : Nat) : Statement (.crcxRng lo hi) := rfl
theorem obisPack (major minor micro : Nat) : Statement (.obisPack major minor micro) := rfl
theorem obisUnpk (code : Code) : Statement (.obisUnpk code) := rfl
theorem obisParse (text : List Byte) : Statement (.obisParse text) := rfl
theorem regAdd (text : List Byte) (h : Nat) : Statement (.regAdd text h) := rfl
theorem regLookup (code : Code) : Statement (.regLookup code) := rfl
theorem stepIdent : Statement .stepIdent := rfl
theorem stepRead : Statement .stepRead := rfl
theorem stepVerify : Statement .stepVerify := rfl
theorem stepPascii : Statement .stepPascii := rfl
theorem stepPbin : Statement .stepPbin := rfl
theorem stepWait : Statement .stepWait := rfl
theorem stepErr : Statement .stepErr := rfl
theorem lbAscii : Statement .lbAscii := rfl
theorem lbBinary : Statement .lbBinary := rfl
theorem lbIllegal (b : Byte) : Statement (.lbIllegal b) := rfl
theorem rbAppend (b : Byte) : Statement (.rbAppend b) := rfl
theorem rbMark : Statement .rbMark := rfl
theorem rbHdr (b : Byte) : Statement (.rbHdr b) := rfl
theorem rbEndA : Statement .rbEndA := rfl
theorem rbEndB (b : Byte) : Statement (.rbEndB b) := rfl
theorem tNull : Statement .tNull := rfl
theorem tArray : Statement .tArray := rfl
theorem tStruct : Statement .tStruct := rfl
theorem tU32 : Statement .tU32 := rfl
theorem tOctet : Statement .tOctet := rfl
theorem tString : Statement .tString := rfl
theorem tDatetime : Statement .tDatetime := rfl
theorem tScalunit : Statement .tScalunit := rfl
theorem tU16 : Statement .tU16 := rfl
theorem tS16 : Statement .tS16 := rfl
theorem tEnum : Statement .tEnum := rfl
theorem tIllegal (tag : Byte) : Statement (.tIllegal tag) := rfl
theorem lnMeas (major minor micro : Nat) (value : Decimal) : Statement (.lnMeas major minor micro value) := rfl
theorem lnOther (line : List Byte) : Statement (.lnOther line) := rfl
theorem lnEnd (mark : Byte) : Statement (.lnEnd mark) := rfl

end FormatOfEncoding

end Sys2Proof.Laws
end

