-- ==== Sys2Proof/Tests/Slice0.lean ====
section
/-! SUPPORT. The model's own tests. Every expected value is a vector of 95_test_vectors.md or written out from a table of
30_encoding.md; each test's comment names it. Then, for every obligation with hypotheses, states and operands that meet
them, one theorem per clause. -/

namespace Sys2Proof.Tests

open Sys2Proof Sys2Proof.Machine

/-! ## Helpers -/

/-- The outcome is a next state with a property. -/
def next (o : Out) (p : State → Bool) : Bool :=
  match o with
  | .next s => p s
  | .fault _ => false
  | .refused _ => false

/-- The machine of the vectors: `BUF_CAP` 64, after its first tick, in a state of the frame machine. -/
def at64 (st : Phase) : State :=
  { State.reset with
    st := st, ticked := true, tErr := 0#32, registry := [(0x10800, 0)],
    cfg := { bufCap := 64, minPeriod := 0, passthrough := false, drainMax := 200, dlogCap := 300 } }

/-- The same machine in READING_MESSAGE, with bytes in the buffer and bytes in the source. -/
def reading (fmt : Fmt) (crcPos : Int) (bytes src : List Byte) : State :=
  { at64 .read with fmt := fmt, pos := bytes.length, crcPos := crcPos, buf := Memory.ofBytes 64 bytes, src := src }

/-- The same machine with an element in the buffer at offset 12 (95_test_vectors.md, V80 to V92). -/
def element (code : Code) (bytes : List Byte) : State :=
  { at64 .pbin with
    fmt := .binary, pos := 63, crcPos := 60, cur := 12, curCode := code, buf := Memory.writes [] 12 bytes }

/-- The two events of an error (60_exceptions.md R274). -/
def errorEvents (c : Cause) : List Event := [.diag (.error c), .notify .commError]

/-! ## Well-formedness: an ill-formed term for each check, refused -/

/-- A range with `lo > hi` (R131). -/
theorem test_wf_range : wellFormed (.crcaRng 3 2) = false ∧ wellFormed (.crcxRng 1 0) = false := by decide

/-- A lead byte that is legal (R93). -/
theorem test_wf_lead : wellFormed (.lbIllegal 0x2F) = false ∧ wellFormed (.lbIllegal 0x7E) = false := by decide

/-- A supported tag (R97). -/
theorem test_wf_tag : wellFormed (.tIllegal 0x06) = false ∧ wellFormed (.tIllegal 0x00) = false := by decide

/-- An empty span, a line with a terminator, a line that is a measurement (R211, R213). -/
theorem test_wf_other :
    wellFormed (.lnOther []) = false ∧ wellFormed (.lnOther [0x41, 0x0A]) = false ∧
    wellFormed (.lnOther [0x31, 0x2D, 0x30, 0x3A, 0x31, 0x2E, 0x38, 0x2E, 0x30, 0x28, 0x35, 0x29]) = false := by decide

/-- A byte that is no end mark (R104). -/
theorem test_wf_end : wellFormed (.lnEnd 0x0A) = false := by decide

/-! ## Decoding: the words of 30_encoding.md -/

/-- R113: indices 0 to 8, 9 unused. -/
theorem test_decode_fu :
    decode (.fu 0b0000#4 { acc := 0x1234, b := 0x41 }) = .ok (.crcaUpd 0x1234 0x41) ∧
    decode (.fu 0b0001#4 { lo := 2, hi := 5 }) = .ok (.crcaRng 2 5) ∧
    decode (.fu 0b0010#4 { acc := 0x1234, b := 0x41 }) = .ok (.crcxUpd 0x1234 0x41) ∧
    decode (.fu 0b0011#4 { lo := 2, hi := 5 }) = .ok (.crcxRng 2 5) ∧
    decode (.fu 0b0100#4 { major := 1, minor := 8, micro := 0 }) = .ok (.obisPack 1 8 0) ∧
    decode (.fu 0b0101#4 { code := 0x10800 }) = .ok (.obisUnpk 0x10800) ∧
    decode (.fu 0b0110#4 { text := [0x31] }) = .ok (.obisParse [0x31]) ∧
    decode (.fu 0b0111#4 { text := [0x31], h := 7 }) = .ok (.regAdd [0x31] 7) ∧
    decode (.fu 0b1000#4 { code := 0x10800 }) = .ok (.regLookup 0x10800) ∧
    decode (.fu 0b1001#4 {}) = .error .unusedFunction := by decide

/-- R91: the seven states, 7 never held. -/
theorem test_decode_st :
    decode (.st 0b000#3) = .ok .stepIdent ∧ decode (.st 0b001#3) = .ok .stepRead ∧
    decode (.st 0b010#3) = .ok .stepVerify ∧ decode (.st 0b011#3) = .ok .stepPascii ∧
    decode (.st 0b100#3) = .ok .stepPbin ∧ decode (.st 0b101#3) = .ok .stepWait ∧
    decode (.st 0b110#3) = .ok .stepErr ∧ decode (.st 0b111#3) = .error .reservedState := by decide

/-- R93: `/`, `~`, any other. -/
theorem test_decode_lb :
    decode (.lb 0b00101111#8) = .ok .lbAscii ∧ decode (.lb 0b01111110#8) = .ok .lbBinary ∧
    decode (.lb 0x00#8) = .ok (.lbIllegal 0x00) := by decide

/-- R94: the class depends on the format, the position and the byte; a newline before the CRC position is data, and so is
`!` in a binary frame. -/
theorem test_decode_rb :
    decode (.rbArrive 0x41#8) = .ok (.rbAppend 0x41) ∧
    decode (.rbAfter .ascii 7 0 0b00100001#8) = .ok .rbMark ∧ decode (.rbAfter .ascii 8 7 0b00001010#8) = .ok .rbEndA ∧
    decode (.rbAfter .ascii 7 7 0x0A#8) = .error .dataByte ∧ decode (.rbAfter .ascii 7 0 0x0A#8) = .error .dataByte ∧
    decode (.rbAfter .binary 3 0 0x5D#8) = .ok (.rbHdr 0x5D) ∧ decode (.rbAfter .binary 95 92 0x7E#8) = .ok (.rbEndB 0x7E) ∧
    decode (.rbAfter .binary 94 92 0x7E#8) = .error .dataByte ∧ decode (.rbAfter .binary 8 0 0x21#8) = .error .dataByte := by
  decide

/-- R97: the eleven tags and one that is not among them. -/
theorem test_decode_tlv :
    decode (.tlv 0x00#8) = .ok .tNull ∧ decode (.tlv 0x01#8) = .ok .tArray ∧ decode (.tlv 0x02#8) = .ok .tStruct ∧
    decode (.tlv 0x06#8) = .ok .tU32 ∧ decode (.tlv 0x09#8) = .ok .tOctet ∧ decode (.tlv 0x0A#8) = .ok .tString ∧
    decode (.tlv 0x0C#8) = .ok .tDatetime ∧ decode (.tlv 0x0F#8) = .ok .tScalunit ∧ decode (.tlv 0x10#8) = .ok .tU16 ∧
    decode (.tlv 0x12#8) = .ok .tS16 ∧ decode (.tlv 0x16#8) = .ok .tEnum ∧
    decode (.tlv 0x99#8) = .ok (.tIllegal 0x99) := by decide

/-- R101, R102: `1-0:21.7.0(-0001.250*kW)`; `/A` is another line; R104: the end marks. -/
theorem test_decode_ln :
    decode (.ln [0x31, 0x2D, 0x30, 0x3A, 0x32, 0x31, 0x2E, 0x37, 0x2E, 0x30, 0x28, 0x2D, 0x30, 0x30, 0x30, 0x31, 0x2E, 0x32,
      0x35, 0x30, 0x2A, 0x6B, 0x57, 0x29]) = .ok (.lnMeas 21 7 0 { mant := -1250, scale := 3 }) ∧
    decode (.ln [0x2F, 0x41]) = .ok (.lnOther [0x2F, 0x41]) ∧ decode (.ln []) = .error .emptySpan ∧
    decode (.lnBound 0x21#8) = .ok (.lnEnd 0x21) ∧ decode (.lnBound 0x00#8) = .ok (.lnEnd 0x00) ∧
    decode (.lnBound 0x0A#8) = .error .notAnEndMark := by decide

/-- The round trip on a measurement line, the one encoding that is a text. -/
theorem test_encode_meas :
    decode (encode (.lnMeas 1 8 0 { mant := -5, scale := 2 })) = .ok (.lnMeas 1 8 0 { mant := -5, scale := 2 }) := by decide

/-! ## The machine from reset -/

/-- P1, the boot part: reset at 0, `tick(500)` leaves ERROR_RECOVERY with nothing emitted (R192, R302). -/
theorem test_boot_leaves_recovery :
    next (step { State.reset with sched := [.tick 500 [] [] []] }) (fun t => t.st == .wait && t.trace == []) = true := by decide

/-- With nothing placed, the first step runs STEP.ERR (R300) and time has not passed. -/
theorem test_first_step : next (step State.reset) (fun t => t.st == .err && t.ticked) = true := by decide

/-- A word of opcode_table.json is read and placed where the next step runs it. -/
theorem test_fetch_words :
    decodeTableWord 8 0x05 = some .stepWait ∧
    next (step (State.reset.withFetchWord 8 0x05)) (fun t => t.st == .ident) = true ∧
    decodeTableWord 8 0x2F = some .lbAscii ∧
    next (step (State.reset.withFetchWord 8 0x2F)) (fun t => t.st == .read && t.fmt == .ascii) = true ∧
    decodeTableWord 16 0x000C = some .tDatetime ∧
    next (step (State.reset.withFetchWord 16 0x000C)) (fun t => t.cur == 22) = true ∧
    decodeTableWord 8 0x08 = some (.regLookup 0) ∧
    next (step (State.reset.withFetchWord 8 0x08)) (fun t => t.result == .sink none) = true ∧
    decodeTableWord 8 0x21 = some .rbMark ∧
    next (step (State.reset.withFetchWord 8 0x21)) (fun t => t.crcPos == 2) = true := by decide

/-! ## The checksum engine and the codec -/

/-- V2d; the register before the final exclusive-or of R133. -/
theorem test_crca_upd : next (exec (.crcaUpd 0x0000 0x41) (at64 .ident)) (fun t => t.result == .crc 0x30C0) = true := by
  decide +kernel

theorem test_crcx_upd : next (exec (.crcxUpd 0xFFFF 0x41) (at64 .ident)) (fun t => t.result == .crc (0xA3F5 ^^^ 0xFFFF)) = true := by
  decide +kernel

/-- V3: `123456789`. -/
theorem test_crca_rng :
    next (exec (.crcaRng 0 9) { at64 .ident with buf := Memory.ofBytes 64 [0x31, 0x32, 0x33, 0x34, 0x35, 0x36, 0x37, 0x38, 0x39] })
      (fun t => t.result == .crc 0xBB3D && t.crcA == none) = true := by decide +kernel

theorem test_crcx_rng :
    next (exec (.crcxRng 0 9) { at64 .ident with buf := Memory.ofBytes 64 [0x31, 0x32, 0x33, 0x34, 0x35, 0x36, 0x37, 0x38, 0x39] })
      (fun t => t.result == .crc 0x906E && t.crcX == none) = true := by decide +kernel

/-- V15: masks, no saturation. -/
theorem test_obis_pack : next (exec (.obisPack 4097 264 256) (at64 .ident)) (fun t => t.result == .code 0x00010800) = true := by
  decide

/-- V19: bits 31:28 are ignored. -/
theorem test_obis_unpk : next (exec (.obisUnpk 0xF0010800) (at64 .ident)) (fun t => t.result == .triple 1 8 0) = true := by decide

/-- V20: `01.008.000`. V21: `1.8` does not parse. -/
theorem test_obis_parse :
    next (exec (.obisParse [0x30, 0x31, 0x2E, 0x30, 0x30, 0x38, 0x2E, 0x30, 0x30, 0x30]) (at64 .ident))
      (fun t => t.result == .code 0x00010800 && t.trace == []) = true := by decide

theorem test_obis_parse_error :
    next (exec (.obisParse [0x31, 0x2E, 0x38]) (at64 .ident))
      (fun t => t.result == .code 0xFFFFFFFF && t.trace == [.diag (.error .obisText)]) = true := by decide

/-- V23: the last registration wins. -/
theorem test_reg_add :
    next (exec (.regAdd [0x31, 0x2E, 0x38, 0x2E, 0x30] 1) { at64 .err with ticked := false })
      (fun t => t.registry == [(0x10800, 1)]) = true := by decide

/-- V26 and R156: the sentinel matches nothing, whatever the registry. -/
theorem test_reg_lookup :
    next (exec (.regLookup 0xFFFFFFFF) { at64 .ident with registry := [(0xFFFFFFFF, 5)] }) (fun t => t.result == .sink none) = true := by
  decide

/-! ## The frame machine -/

/-- V30, V31: `>` 60000 ms. -/
theorem test_ident_stall_boundary :
    next (exec .stepIdent { at64 .ident with now := 60000 }) (fun t => t.st == .ident) = true ∧
    next (exec .stepIdent { at64 .ident with now := 60001 }) (fun t => t.st == .err && t.tErr == 60001 && t.trace == errorEvents .stall) = true := by
  decide

/-- V33: the illegal byte is consumed and not stored, the others stay. -/
theorem test_ident_illegal_lead :
    next (exec .stepIdent { at64 .ident with src := [0x00, 0x2F, 0x41], now := 5 })
      (fun t => t.st == .err && t.pos == 0 && t.buf == [] && t.src == [0x2F, 0x41] && t.trace == errorEvents (.lead 0x00)) = true := by
  decide

/-- V35: the fall-through reads on in the same tick; the second byte is a bad format type. -/
theorem test_read_bad_header :
    next (exec .stepIdent { at64 .ident with src := [0x7E, 0x7E, 0x10, 0x00], now := 10 })
      (fun t => t.st == .err && t.pos == 3 && t.src == [0x00] && t.trace == errorEvents (.hdrFormat 0x7E)) = true := by decide

/-- V45: a newline right behind the mark ends the frame; the next byte stays in the source. -/
theorem test_read_frame_end :
    next (exec .stepRead (reading .ascii 0 [0x2F] [0x21, 0x0A, 0x41]))
      (fun t => t.st == .verify && t.pos == 3 && t.crcPos == 2 && t.src == [0x41] && t.trace == [.notify .update]) = true := by decide

/-- V10: the checksum of `/!` is 0x28DC; the field in lower case (V61). -/
theorem test_verify_ascii :
    next (exec .stepVerify { reading .ascii 2 [0x2F, 0x21, 0x32, 0x38, 0x64, 0x63, 0x0D, 0x0A] [] with st := .verify })
      (fun t => t.st == .pascii && t.trace == []) = true := by decide +kernel

/-- V77: the frame `7E A0 07 41 08 83 6B 56 7E`, its CRC field little-endian. -/
theorem test_verify_binary :
    next (exec .stepVerify { reading .binary 6 [0x7E, 0xA0, 0x07, 0x41, 0x08, 0x83, 0x6B, 0x56, 0x7E] [] with st := .verify })
      (fun t => t.st == .pbin && t.trace == []) = true := by decide +kernel

/-- V49: the period across the wrap of the counter. -/
theorem test_wait_across_wrap :
    next (exec .stepWait { at64 .wait with tIdent := 0xFFFFFF00, now := 0x2E7, cfg := { (at64 .wait).cfg with minPeriod := 1000 } })
      (fun t => t.st == .wait) = true ∧
    next (exec .stepWait { at64 .wait with tIdent := 0xFFFFFF00, now := 0x2E8, cfg := { (at64 .wait).cfg with minPeriod := 1000 } })
      (fun t => t.st == .ident && t.trace == [.notify .ready]) = true := by decide

/-- V50: `>=` 500 ms, no summary. -/
theorem test_err_quiet_boundary :
    next (exec .stepErr { at64 .err with tErr := 701, now := 1200 }) (fun t => t.st == .err) = true ∧
    next (exec .stepErr { at64 .err with tErr := 701, now := 1201 }) (fun t => t.st == .wait && t.trace == []) = true := by decide

/-- V55: discarded bytes are passed through. -/
theorem test_err_discards :
    next (exec .stepErr { at64 .err with src := [0x41, 0x42], cfg := { (at64 .err).cfg with passthrough := true } })
      (fun t => t.dlog == [0x41, 0x42] && t.trace == [.pass 0x41, .pass 0x42]) = true := by decide

/-! ## Lead bytes and reading actions -/

/-- R93. -/
theorem test_lead_bytes :
    next (exec .lbAscii (at64 .ident)) (fun t => t.fmt == .ascii) = true ∧
    next (exec .lbBinary (at64 .ident)) (fun t => t.fmt == .binary) = true ∧
    next (exec (.lbIllegal 0x00) (at64 .ident)) (fun t => t.st == .err && t.trace == errorEvents (.lead 0x00)) = true := by decide

/-- V53: the overrun is raised before the read. -/
theorem test_append_overrun :
    next (exec (.rbAppend 0x41) { at64 .read with pos := 64, src := [0x41] })
      (fun t => t.st == .err && t.pos == 64 && t.src == [0x41] && t.trace == errorEvents .overrun) = true := by decide

theorem test_append :
    next (exec (.rbAppend 0x41) { at64 .read with pos := 63, src := [0x41] })
      (fun t => t.pos == 64 && t.buf == [(63, 0x41)] && t.src == []) = true := by decide

/-- V46: a second mark moves the position. -/
theorem test_mark : next (exec .rbMark (reading .ascii 3 [0x2F, 0x61, 0x21, 0x62, 0x21] [])) (fun t => t.crcPos == 5) = true := by
  decide

/-- V36: `A0 5D` gives 92; V38: `A0 00` gives -1. -/
theorem test_header :
    next (exec (.rbHdr 0x5D) (reading .binary 0 [0x7E, 0xA0, 0x5D] [])) (fun t => t.crcPos == 92) = true ∧
    next (exec (.rbHdr 0x00) (reading .binary 0 [0x7E, 0xA0, 0x00] [])) (fun t => t.crcPos == -1) = true := by decide

theorem test_frame_ends :
    next (exec .rbEndA (at64 .read)) (fun t => t.st == .verify && t.trace == [.notify .update]) = true ∧
    next (exec (.rbEndB 0x7E) (at64 .read)) (fun t => t.st == .verify && t.trace == [.notify .update]) = true ∧
    next (exec (.rbEndB 0x98) (at64 .read)) (fun t => t.st == .err && t.trace == errorEvents (.hdrEnd 0x98)) = true := by decide

/-! ## The line parser -/

/-- V70e: `-12.30` is -123/10 and the code 1.8.0 has the handle 0. -/
theorem test_ln_meas :
    next (exec (.lnMeas 1 8 0 { mant := -1230, scale := 2 }) (at64 .pascii)) (fun t => t.trace == [.deliver 0 (mkRat (-123) 10)]) = true := by
  decide

theorem test_ln_other :
    next (exec (.lnOther [0x2F]) (at64 .pascii)) (fun t => t.trace == [.diag (.error (.line [0x2F]))]) = true := by decide

theorem test_ln_end :
    next (exec (.lnEnd 0x21) (at64 .pascii)) (fun t => t.st == .wait && t.trace == [.diag (.summary 0 0)]) = true := by decide

/-- V74: `/a!b!` is processed up to its first `!`; the cursor stays at the span's start. -/
theorem test_pascii :
    next (exec .stepPascii { reading .ascii 5 [0x2F, 0x61, 0x21, 0x62, 0x21, 0x0A] [] with st := .pascii })
      (fun t => t.st == .wait && t.cur == 0 && t.trace == [.diag (.error (.line [0x2F, 0x61])), .diag (.summary 0 1)]) = true := by
  decide

/-- V72: a measurement between a terminator and the end mark, `1-0:1.8.0(5)`. -/
theorem test_pascii_measurement :
    next (exec .stepPascii
        { reading .ascii 16 [0x2F, 0x0D, 0x0A, 0x31, 0x2D, 0x30, 0x3A, 0x31, 0x2E, 0x38, 0x2E, 0x30, 0x28, 0x35, 0x29, 0x21, 0x0A] [] with
          st := .pascii })
      (fun t => t.st == .wait && t.cur == 3 &&
        t.trace == [.diag (.error (.line [0x2F])), .deliver 0 5, .diag (.summary 0 1)]) = true := by decide

/-! ## The binary parser -/

/-- V80, V81, V92: what only advances. -/
theorem test_advance_elements :
    next (exec .tNull (element 1 [0x00])) (fun t => t.cur == 13) = true ∧
    next (exec .tArray (element 1 [0x01, 0x1B])) (fun t => t.cur == 14) = true ∧
    next (exec .tStruct (element 1 [0x02, 0x02])) (fun t => t.cur == 14) = true ∧
    next (exec .tScalunit (element 1 [0x0F, 0xFF])) (fun t => t.cur == 14) = true ∧
    next (exec .tEnum (element 1 [0x16, 0x21])) (fun t => t.cur == 14) = true ∧
    next (exec .tDatetime (element 1 [0x0C])) (fun t => t.cur == 25) = true := by decide

/-- V82: 1234567 / 1000. -/
theorem test_u32 :
    next (exec .tU32 (element 0x10800 [0x06, 0x00, 0x12, 0xD6, 0x87]))
      (fun t => t.cur == 17 && t.trace == [.deliver 0 (mkRat 1234567 1000)]) = true := by decide

/-- V94. -/
theorem test_u16 :
    next (exec .tU16 (element 0x10800 [0x10, 0xFF, 0xFF])) (fun t => t.cur == 15 && t.trace == [.deliver 0 (mkRat 65535 10)]) = true := by
  decide

/-- V96: `FF 38` is -200. V97: `80 00` is -32768. -/
theorem test_s16 :
    next (exec .tS16 (element 0x10800 [0x12, 0xFF, 0x38])) (fun t => t.cur == 15 && t.trace == [.deliver 0 (-20)]) = true ∧
    next (exec .tS16 (element 0x10800 [0x12, 0x80, 0x00])) (fun t => t.trace == [.deliver 0 (mkRat (-32768) 10)]) = true := by decide

/-- V87: offsets 4, 5 and 6 of `09 06 00 00 60 01 00 FF`; V88: another length leaves the code. -/
theorem test_octet :
    next (exec .tOctet (element 7 [0x09, 0x06, 0x00, 0x00, 0x60, 0x01, 0x00, 0xFF])) (fun t => t.cur == 20 && t.curCode == 0x600100) = true ∧
    next (exec .tOctet (element 7 [0x09, 0x02, 0xAA, 0xBB])) (fun t => t.cur == 16 && t.curCode == 7) = true := by decide

/-- V91. -/
theorem test_string : next (exec .tString (element 3 [0x0A, 0x03, 0x41, 0x42, 0x43])) (fun t => t.cur == 17) = true := by decide

/-- V98: the cursor stays. -/
theorem test_illegal_tag :
    next (exec (.tIllegal 0x99) (element 3 [0x99])) (fun t => t.st == .err && t.cur == 12 && t.trace == errorEvents (.tag 0x99 12)) = true := by
  decide

/-- V77: no control byte; the cursor is at the CRC position. -/
theorem test_pbin_no_control_byte :
    next (exec .stepPbin { reading .binary 6 [0x7E, 0xA0, 0x07, 0x41, 0x08, 0x83, 0x6B, 0x56, 0x7E] [] with st := .pbin })
      (fun t => t.st == .err && t.cur == 6 && t.trace == errorEvents .hdrCtrl) = true := by decide

/-- V76: the header only. -/
theorem test_pbin_header_only :
    next (exec .stepPbin
        { reading .binary 12 [0x7E, 0xA0, 0x0D, 0x41, 0x08, 0x83, 0x13, 0xAA, 0xBB, 0xE6, 0xE7, 0x00, 0x47, 0x10, 0x7E] [] with st := .pbin })
      (fun t => t.st == .wait && t.cur == 12 && t.trace == [.diag (.summary 0 1)]) = true := by decide

/-! ## Witnesses: states and operands that meet the hypotheses of the obligations, clause by clause -/

/-- A state of each phase, with a frame where the phase has one. -/
def wIdent : State := at64 .ident
def wReadAscii : State := reading .ascii 2 [0x2F, 0x21] []
def wReadBinary : State := reading .binary 6 [0x7E, 0xA0, 0x07, 0x41] []
def wVerifyAscii : State := { reading .ascii 2 [0x2F, 0x21, 0x32, 0x38, 0x44, 0x43, 0x0A] [] with st := .verify }
def wVerifyBinary : State :=
  { reading .binary 6 [0x7E, 0xA0, 0x07, 0x41, 0x08, 0x83, 0x6B, 0x56, 0x7E] [] with st := .verify }
def wPascii : State := { reading .ascii 5 [0x2F, 0x61, 0x0A, 0x62, 0x21, 0x0A] [] with st := .pascii, curCode := 0xFFFFFFFF }
def wPbin : State :=
  { reading .binary 12 [0x7E, 0xA0, 0x0D, 0x41, 0x08, 0x83, 0x13, 0xAA, 0xBB, 0xE6, 0xE7, 0x00, 0x47, 0x10, 0x7E] [] with
    st := .pbin }
def wWait : State := at64 .wait
def wErr : State := { at64 .err with dlog := [0x41] }

theorem inv_ident : Inv wIdent :=
  ⟨by decide, by decide, by decide, by decide, by decide, by decide, by decide, by decide, by decide, by decide,
    show wIdent.pos = 0 ∧ wIdent.crcPos = 0 ∧ wIdent.cur = 0 ∧ wIdent.curCode = Config.obisInvalid by decide⟩

theorem inv_read_ascii : Inv wReadAscii :=
  ⟨by decide, by decide, by decide, by decide, by decide, by decide, by decide, by decide, by decide, by decide,
    show ReadingInv wReadAscii by unfold ReadingInv; decide⟩

theorem inv_read_binary : Inv wReadBinary :=
  ⟨by decide, by decide, by decide, by decide, by decide, by decide, by decide, by decide, by decide, by decide,
    show ReadingInv wReadBinary by unfold ReadingInv; decide⟩

theorem inv_verify_ascii : Inv wVerifyAscii :=
  ⟨by decide, by decide, by decide, by decide, by decide, by decide, by decide, by decide, by decide, by decide,
    show FrameInv wVerifyAscii ∧ wVerifyAscii.cur = 0 ∧ wVerifyAscii.curCode = Config.obisInvalid by
      unfold FrameInv; decide⟩

theorem inv_verify_binary : Inv wVerifyBinary :=
  ⟨by decide, by decide, by decide, by decide, by decide, by decide, by decide, by decide, by decide, by decide,
    show FrameInv wVerifyBinary ∧ wVerifyBinary.cur = 0 ∧ wVerifyBinary.curCode = Config.obisInvalid by
      unfold FrameInv; decide⟩

theorem inv_pascii : Inv wPascii :=
  ⟨by decide, by decide, by decide, by decide, by decide, by decide, by decide, by decide, by decide, by decide,
    show FrameInv wPascii ∧ wPascii.fmt = .ascii ∧ (wPascii.cur : Int) + 1 ≤ wPascii.crcPos by unfold FrameInv; decide⟩

theorem inv_pbin : Inv wPbin :=
  ⟨by decide, by decide, by decide, by decide, by decide, by decide, by decide, by decide, by decide, by decide,
    show FrameInv wPbin ∧ wPbin.fmt = .binary ∧ (wPbin.cur = 0 ∨ 9 ≤ wPbin.cur) ∧ wPbin.cur ≤ 8446 by
      unfold FrameInv; decide⟩

theorem inv_wait : Inv wWait :=
  ⟨by decide, by decide, by decide, by decide, by decide, by decide, by decide, by decide, by decide, by decide, trivial⟩

theorem inv_err : Inv wErr :=
  ⟨by decide, by decide, by decide, by decide, by decide, by decide, by decide, by decide, by decide, by decide, trivial⟩

/-- StepRunsTheSelectedOperation, the reset clause. -/
theorem witness_reset : { wErr with sched := [.reset 7 1 2 [0x41]] }.sched = .reset 7 1 2 [0x41] :: [] := rfl

/-- EveryStepKeepsTheInvariant, EveryTickCompletes, TicksFollowTheTransitionTable, NotificationsFollowTheStateEntered: a
tick of an invariant state that answers a next state, in each phase. -/
theorem witness_ticks :
    (Inv wIdent ∧ nextIsTick wIdent = true ∧ ∃ t, step wIdent = .next t) ∧
    (Inv wReadAscii ∧ nextIsTick wReadAscii = true ∧ ∃ t, step wReadAscii = .next t) ∧
    (Inv wPascii ∧ nextIsTick wPascii = true ∧ ∃ t, step wPascii = .next t) ∧
    (Inv wPbin ∧ nextIsTick wPbin = true ∧ ∃ t, step wPbin = .next t) ∧
    (Inv wWait ∧ nextIsTick wWait = true ∧ ∃ t, step wWait = .next t) ∧
    (Inv wErr ∧ nextIsTick wErr = true ∧ ∃ t, step wErr = .next t) :=
  ⟨⟨inv_ident, rfl, _, rfl⟩, ⟨inv_read_ascii, rfl, _, rfl⟩, ⟨inv_pascii, rfl, _, rfl⟩, ⟨inv_pbin, rfl, _, rfl⟩,
    ⟨inv_wait, rfl, _, rfl⟩, ⟨inv_err, rfl, _, rfl⟩⟩

/-- TicksFollowTheTransitionTable, clauses 2 and 3: a verified frame of each format. -/
theorem witness_verified_ascii : wVerifyAscii.st = .verify ∧ next (step wVerifyAscii) (fun t => t.st == .pascii) = true := by
  decide +kernel
theorem witness_verified_binary : wVerifyBinary.st = .verify ∧ next (step wVerifyBinary) (fun t => t.st == .pbin) = true := by
  decide +kernel

/-- DecodeOfEncodeIsTheInstruction: the constructors with a check, at boundary operands. -/
theorem witness_well_formed :
    wellFormed (.crcaRng 3 3) = true ∧ wellFormed (.lbIllegal 0x7F) = true ∧ wellFormed (.tIllegal 0xFF) = true ∧
    wellFormed (.lnOther [0x20]) = true ∧ wellFormed (.lnEnd 0x00) = true ∧
    wellFormed (.lnMeas 4096 256 0 { mant := -1, scale := 3 }) = true := by decide

/-- StepRunsTheSelectedOperation, one per clause. -/
theorem witness_step_empty : wErr.sched = [] ∧ decode (.st wErr.st.code) = .ok .stepErr := by decide
theorem witness_step_tick :
    { wErr with sched := [.tick 9 [0x41] [[]] [true]] }.sched = .tick 9 [0x41] [[]] [true] :: [] ∧
    decode (.st wErr.st.code) = .ok .stepErr := by decide
theorem witness_step_call :
    { wErr with sched := [.call 0 { b := 0x41 }] }.sched = .call 0 { b := 0x41 } :: [] ∧
    decode (.fu 0 { b := 0x41 }) = .ok (.crcaUpd 0 0x41) := by decide

/-- TickRunsTheDecodedHandlers, clauses 2, 3 and 5. -/
theorem witness_handlers :
    decode (.rbAfter wReadAscii.fmt wReadAscii.pos wReadAscii.crcPos 0x21) = .ok .rbMark ∧
    decode (.rbAfter wReadAscii.fmt wReadAscii.pos wReadAscii.crcPos 0x0A) = .error .dataByte ∧
    decode (.ln [0x2F]) = .ok (.lnOther [0x2F]) := by decide

/-- ProcessingTickRunsTheElementAtTheCursor: the end test with the cursor just at `crc_pos`, a supported element under each answer of
`yield()`, the last one before `crc_pos`, and an unsupported tag. -/
theorem witness_end_test :
    1 ≤ { element 1 [] with cur := 60 }.cur ∧ (element 1 []).crcPos ≤ (({ element 1 [] with cur := 60 }.cur : Nat) : Int) := by decide
theorem witness_element :
    1 ≤ (element 1 [0x00]).cur ∧ ((element 1 [0x00]).cur : Int) < (element 1 [0x00]).crcPos ∧
    (element 1 [0x00]).cur < (element 1 [0x00]).cfg.bufCap ∧ tlvTag ((element 1 [0x00]).at 12) ≠ .illegal ∧
    { element 1 [0x00] with yields := [true] }.yields = true :: [] ∧
    { element 1 [0x00] with yields := [false] }.yields = false :: [] ∧ (element 1 [0x00]).yields = [] ∧
    ∀ ys, ∃ t, exec (decodeTlv ((element 1 [0x00]).at 12)) { element 1 [0x00] with yields := ys, nProcTicks := 1 } = .next t :=
  ⟨by decide, by decide, by decide, by decide, rfl, rfl, rfl, fun _ => ⟨_, rfl⟩⟩
theorem witness_last_element :
    (({ element 1 [] with cur := 59 }.cur : Nat) : Int) < (element 1 []).crcPos ∧ (element 1 []).crcPos ≤ ((59 + 1 : Nat) : Int) := by
  decide
theorem witness_illegal_element :
    1 ≤ (element 1 [0x99]).cur ∧ ((element 1 [0x99]).cur : Int) < (element 1 [0x99]).crcPos ∧
    (element 1 [0x99]).cur < (element 1 [0x99]).cfg.bufCap ∧ tlvTag ((element 1 [0x99]).at 12) = .illegal := by decide

/-- CrcRangeFoldsTheUpdate, clauses 1 and 2, and CrcOfEmptyRangeIsZero: the range up to the capacity. -/
theorem witness_range : 0 ≤ 64 ∧ 64 ≤ wIdent.cfg.bufCap ∧ wIdent.crcA = none ∧ wIdent.crcX = none := by decide

/-- CrcSeesEverySingleByteCorruption. -/
theorem witness_corruption : (0x00 : Byte) ≠ 0x80 := by decide

/-- ObisParseAcceptsExactlyTriples: clause 1, one digit each; clause 2, the empty text. -/
theorem witness_triple : isDec [0x31] ∧ isDec [0x38] ∧ isDec [0x30] := by unfold isDec; decide
theorem witness_no_triple :
    ¬ ∃ d1 d2 d3 : List Byte, isDec d1 ∧ isDec d2 ∧ isDec d3 ∧ ([] : List Byte) = d1 ++ 0x2E#8 :: (d2 ++ 0x2E#8 :: d3) := by
  rintro ⟨d1, d2, d3, -, -, -, h⟩
  exact absurd h (by simp)

/-- RegisteringSetsOneLookup, one per clause: `1.8.0` and the empty text. -/
theorem witness_register :
    State.reset.ticked = false ∧ obisTextCode [0x31, 0x2E, 0x38, 0x2E, 0x30] ≠ 0xFFFFFFFF#32 ∧
    obisTextCode [] = 0xFFFFFFFF#32 := by decide

/-- HostContractIsKeptByRefusal, one per clause but the last, whose witness is in witness_append. -/
theorem witness_contract :
    wIdent.ticked = true ∧ State.reset.ticked = false ∧
    { wIdent with sched := [.configure wIdent.cfg] }.sched = .configure wIdent.cfg :: [] ∧
    1 ≤ wIdent.cfg.bufCap ∧ 1 ≤ wIdent.cfg.drainMax ∧ 1 ≤ wIdent.cfg.dlogCap ∧
    { wIdent.cfg with bufCap := 0 }.bufCap = 0 ∧
    { wIdent with sched := [.call 9 {}] }.sched = .call 9 {} :: [] ∧ 9 ≤ (9 : BitVec 4).toNat := by decide

/-- ElapsedIsRightAcrossTheWrap: a distance across the wrap. -/
theorem witness_elapsed :
    1000 < 2 ^ 32 ∧ { wWait with now := 0x2E8 }.now = 0xFFFFFF00#32 + BitVec.ofNat 32 1000 := by decide

/-- BufferReadsInsideAndBeyond: the last byte and the first offset beyond. -/
theorem witness_buffer : 63 < wIdent.cfg.bufCap ∧ wIdent.cfg.bufCap ≤ 64 := by decide

/-- RecoveryEndsAfterTheQuietPeriod, IdentStallsOrTakesTheLeadByte clause 1, ReadHandlesTheNextByte clause 1: nothing
arrives. -/
theorem witness_silence : wErr.st = .err ∧ (avail wErr).1 = false ∧ (avail wIdent).1 = false ∧ (avail wReadAscii).1 = false := by
  decide

/-- RecoveryDiscardsAndRestartsTheQuietPeriod, one per clause: the log just full and the smallest bounds; a byte that arrives at the
poll; no discard left. -/
theorem witness_discard :
    ∃ s : State, s.polls = [] ∧ s.src ≠ [] ∧ 1 ≤ s.cfg.drainMax ∧ 1 ≤ s.cfg.dlogCap ∧ s.dlog.length = s.cfg.dlogCap :=
  ⟨{ wErr with src := [0x41], cfg := { wErr.cfg with drainMax := 1, dlogCap := 1 } }, by decide⟩
theorem witness_discard_arrival :
    ∃ s s1 : State, avail s = (true, s1) ∧ s1.src = 0x42#8 :: [] ∧ s.cfg.drainMax = 0 + 1 ∧ 1 ≤ s.cfg.dlogCap ∧
      s.polls ≠ [] ∧ s.dlog.length = s.cfg.dlogCap :=
  ⟨{ wErr with polls := [[0x42]], cfg := { wErr.cfg with drainMax := 1, dlogCap := 1 } },
    { wErr with src := [0x42], cfg := { wErr.cfg with drainMax := 1, dlogCap := 1 } }, by decide⟩
theorem witness_no_discard_left :
    ∃ s : State, s.cfg.drainMax = 0 ∧ s.tErr = s.now := ⟨{ wErr with cfg := { wErr.cfg with drainMax := 0 } }, by decide⟩

/-- IdentStallsOrTakesTheLeadByte, clauses 2 to 4; the byte arrives before the poll, or is there. -/
theorem witness_lead :
    (avail { wIdent with polls := [[0x00]] }).2.src = 0x00 :: [] ∧ (0x00 : Byte) ≠ 0x2F#8 ∧ (0x00 : Byte) ≠ 0x7E#8 ∧
    (avail { wIdent with src := [0x2F] }).2.src = 0x2F#8 :: [] ∧ (avail { wIdent with src := [0x7E] }).2.src = 0x7E#8 :: [] ∧
    wIdent.pos < wIdent.cfg.bufCap := by decide

/-- ReadHandlesTheNextByte: the premises, the overrun clause and each class of byte. -/
theorem witness_read_overrun :
    avail { wReadAscii with pos := 64, src := [0x41] } = (true, { wReadAscii with pos := 64, src := [0x41] }) ∧
    { wReadAscii with pos := 64, src := [0x41] }.pos = wReadAscii.cfg.bufCap := by decide
theorem witness_read_data :
    avail (reading .ascii 0 [0x2F] [0x41]) = (true, reading .ascii 0 [0x2F] [0x41]) ∧
    next (exec (.rbAppend 0x41) (reading .ascii 0 [0x2F] [0x41])) (fun t =>
      decide (decode (.rbAfter t.fmt t.pos t.crcPos 0x41) = .error .dataByte)) = true := by decide
theorem witness_read_mark :
    avail (reading .ascii 0 [0x2F] [0x21]) = (true, reading .ascii 0 [0x2F] [0x21]) ∧
    next (exec (.rbAppend 0x21) (reading .ascii 0 [0x2F] [0x21])) (fun t =>
      decide (decode (.rbAfter t.fmt t.pos t.crcPos 0x21) = .ok .rbMark) && next (exec .rbMark t) (fun _ => true)) = true := by
  decide
theorem witness_read_header :
    next (exec (.rbAppend 0x07) (reading .binary 0 [0x7E, 0xA0] [0x07])) (fun t =>
      decide (decode (.rbAfter t.fmt t.pos t.crcPos 0x07) = .ok (.rbHdr 0x07)) && decide ((t.at 1).toNat / 32 = 5)) = true ∧
    next (exec (.rbAppend 0x07) (reading .binary 0 [0x7E, 0xC0] [0x07])) (fun t =>
      decide (decode (.rbAfter t.fmt t.pos t.crcPos 0x07) = .ok (.rbHdr 0x07)) && decide ((t.at 1).toNat / 32 ≠ 5)) = true := by
  decide
theorem witness_read_end :
    next (exec (.rbAppend 0x0A) (reading .ascii 2 [0x2F, 0x21] [0x0A])) (fun t =>
      decide (decode (.rbAfter t.fmt t.pos t.crcPos 0x0A) = .ok .rbEndA)) = true ∧
    next (exec (.rbAppend 0x7E) (reading .binary 6 [0x7E, 0xA0, 0x07, 0x41, 0x08, 0x83, 0x6B, 0x56] [0x7E])) (fun t =>
      decide (decode (.rbAfter t.fmt t.pos t.crcPos 0x7E) = .ok (.rbEndB 0x7E))) = true := by decide

/-- ReadAppendsEveryDataByte: the bytes just fill the buffer. OverrunIsRaisedBeforeAnyWrite: one more than fits, the last stored byte
at offset 63. -/
theorem witness_fill :
    Memory.wf (reading .ascii 0 [0x2F] (List.replicate 63 0x41)).buf = true ∧
    (reading .ascii 0 [0x2F] (List.replicate 63 0x41)).polls = [] ∧ wReadAscii.fmt = .ascii ∧
    (reading .ascii 0 [0x2F] (List.replicate 63 0x41)).crcPos = 0 ∧ wReadAscii.cfg.passthrough = false ∧
    (∀ b ∈ (reading .ascii 0 [0x2F] (List.replicate 63 0x41)).src, b ≠ 0x21#8) ∧
    (reading .ascii 0 [0x2F] (List.replicate 63 0x41)).pos + 63 ≤ wReadAscii.cfg.bufCap ∧
    elapsed (reading .ascii 0 [0x2F] (List.replicate 63 0x41)) 0 ≤ 10000 ∧
    (reading .ascii 0 [0x2F] (List.replicate 64 0x41)).pos ≤ wReadAscii.cfg.bufCap ∧
    wReadAscii.cfg.bufCap < (reading .ascii 0 [0x2F] (List.replicate 64 0x41)).pos + 64 ∧
    62 < (List.replicate 64 (0x41 : Byte)).length ∧
    (reading .ascii 0 [0x2F] (List.replicate 64 0x41)).pos + 62 < wReadAscii.cfg.bufCap := by decide

/-- AppendStoresTheByteRead, one per clause, and HostContractIsKeptByRefusal, the last clause. -/
theorem witness_append :
    { wReadAscii with pos := 64 }.pos = wReadAscii.cfg.bufCap ∧
    ({ wReadAscii with src := [0x41], pos := 63 }.src = 0x41 :: [] ∧ 63 < wReadAscii.cfg.bufCap) ∧
    (wReadAscii.pos ≠ wReadAscii.cfg.bufCap ∧ wReadAscii.src.head? ≠ some (0x41 : Byte)) ∧ Memory.wf wReadAscii.buf = true := by
  decide

/-- HeaderGivesTheCrcPosition, clauses 1 and 2, at the smallest buffer that has a header. -/
theorem witness_header :
    3 ≤ { wReadBinary.cfg with bufCap := 3 }.bufCap ∧ (wReadBinary.at 1).toNat / 32 = 5 ∧
    ((reading .binary 0 [0x7E, 0x9F, 0x10] []).at 1).toNat / 32 ≠ 5 := by decide

/-- VerifyAsciiComparesTheHexField: four digits, and no digit. -/
theorem witness_hex_field :
    wVerifyAscii.fmt = .ascii ∧ wVerifyAscii.crcPos = ((2 : Nat) : Int) ∧ wVerifyAscii.crcA = none ∧
    wVerifyAscii.pos ≤ wVerifyAscii.cfg.bufCap ∧ wVerifyAscii.bytes 2 (2 + 4) = [0x32, 0x38, 0x44, 0x43] ∧
    (∀ d ∈ ([0x32, 0x38, 0x44, 0x43] : List Byte), (hexDigit d).isSome = true) ∧ 2 + 4 < wVerifyAscii.cfg.bufCap ∧
    hexDigit (wVerifyAscii.at (2 + 4)) = none := by decide
theorem witness_no_hex_field :
    (reading .ascii 2 [0x2F, 0x21, 0x0A] []).bytes 2 (2 + 0) = [] ∧ 2 + 0 < (64 : Nat) ∧
    hexDigit ((reading .ascii 2 [0x2F, 0x21, 0x0A] []).at 2) = none := by decide

/-- VerifyBinaryComparesTheLittleEndianField. -/
theorem witness_binary_field :
    wVerifyBinary.fmt = .binary ∧ wVerifyBinary.crcPos = ((6 : Nat) : Int) ∧ wVerifyBinary.crcX = none ∧
    wVerifyBinary.pos ≤ wVerifyBinary.cfg.bufCap ∧ 6 + 2 ≤ wVerifyBinary.cfg.bufCap := by decide

/-- FloatDenotesItsDigits, one per clause: `-.5*`, `+7*`, `-.`. -/
theorem witness_float :
    (([0x2D] : List Byte) = [0x2D#8] ∧ (-1 : Int) = -1) ∧ (∀ d ∈ ([0x35] : List Byte), isDigit d = true) ∧
    ([0x35] : List Byte) ≠ [] ∧ (∀ b ∈ ([0x2A] : List Byte).head?, isDigit b = false) := by decide
theorem witness_float_int :
    isDec [0x37] ∧ (∀ b ∈ ([0x2A] : List Byte).head?, isDigit b = false ∧ b ≠ 0x2E#8) := by unfold isDec; decide
theorem witness_no_float :
    (∀ b ∈ ([0x2E] : List Byte).head?, isDigit b = false) ∧
    (([0x2E] : List Byte).head? = some 0x2E#8 ∧ ∀ b ∈ ([0x2E] : List Byte).tail.head?, isDigit b = false) := by decide

/-- AsciiRoundHandlesTheNextLine: the line `a` behind `/`, LF is skipped; the span `b` ends at `!`; an empty span at `!`. -/
theorem witness_round_line :
    0 ≤ 0 ∧ 2 < wPascii.cfg.bufCap ∧ isTerminator (wPascii.at 0) = false ∧
    (∀ a, a < 2 → isBoundary (wPascii.at a) = false) ∧ isBoundary (wPascii.at 2) = true ∧ isEndMark (wPascii.at 2) = false ∧
    decode (.ln (wPascii.bytes 0 2)) = .ok (.lnOther [0x2F, 0x61]) ∧
    next (exec (.lnOther [0x2F, 0x61]) { wPascii with nProcTicks := 1 }) (fun _ => true) = true := by decide
/-- The three answers of `yield()` after that line. -/
theorem witness_round_answers :
    { wPascii with yields := [true] }.yields = true :: [] ∧ { wPascii with yields := [false] }.yields = false :: [] ∧
    wPascii.yields = [] := by decide
theorem witness_round_end :
    (∀ a, 2 ≤ a → a < 3 → isTerminator (wPascii.at a) = true) ∧ isTerminator (wPascii.at 3) = false ∧
    isBoundary (wPascii.at 3) = false ∧ isBoundary (wPascii.at 4) = true ∧ isEndMark (wPascii.at 4) = true := by
  refine ⟨fun a h1 h2 => ?_, by decide⟩
  have : a = 2 := by omega
  subst this
  decide
theorem witness_round_empty :
    isTerminator (wPascii.at 4) = false ∧ isBoundary (wPascii.at 4) = true ∧ isEndMark (wPascii.at 4) = true := by decide

/-- AsciiProcessingIsResumable, stopped after its first line. -/
theorem witness_ascii_resumable :
    Inv wPascii ∧ wPascii.st = .pascii ∧ (∃ t, exec .stepPascii { wPascii with yields := [] } = .next t) ∧
    ∃ u, exec .stepPascii { wPascii with yields := [true] } = .next u :=
  ⟨inv_pascii, rfl, ⟨_, rfl⟩, _, rfl⟩

/-- OctetAndStringElements, one per clause, each at the last offset that fits. -/
theorem witness_octet :
    (63 - 1) + 1 < wIdent.cfg.bufCap ∧ (element 1 [0x09, 0x02]).at 13 ≠ 6#8 ∧
    57 + 6 < wIdent.cfg.bufCap ∧ (element 1 [0x09, 0x06]).at ((element 1 []).cur + 1) = 6#8 := by decide

/-- ValueElementsDispatch: the last offsets that fit. -/
theorem witness_values :
    { element 1 [] with cur := 59 }.cur + 4 < (element 1 []).cfg.bufCap ∧
    { element 1 [] with cur := 61 }.cur + 2 < (element 1 []).cfg.bufCap := by decide

/-- ReadsBeyondTheBufferComplete: the premises name what `bufRead` gives, so they hold of every state; an offset at the capacity, an
element whose bytes lie across it, both cases of the length and of the header, and a range across the capacity. -/
theorem witness_reads_beyond (s : State) (n i : Nat) :
    (∃ b s1, bufRead i s = (b, s1)) ∧ ∃ bs s1, bufReads n i s = (bs, s1) := ⟨⟨_, _, rfl⟩, _, _, rfl⟩
theorem witness_across_the_capacity :
    (element 1 []).cfg.bufCap ≤ 64 ∧ { element 1 [] with cur := 62 }.cur + 1 < 64 ∧ 64 ≤ { element 1 [] with cur := 62 }.cur + 2 ∧
    (bufRead 13 (element 1 [0x09, 0x06])).1 = 6#8 ∧ (bufRead 13 (element 1 [0x09, 0x02])).1 ≠ 6#8 ∧
    (bufRead 1 wReadBinary).1.toNat / 32 = 5 ∧ (bufRead 1 wReadAscii).1.toNat / 32 ≠ 5 ∧
    (bufReads (66 - 62) 62 wIdent).2.draws = 2 := by decide

/-- HeaderLocation: no control byte; a header that fills the frame; a header with room behind it. -/
theorem witness_no_control_byte :
    { wVerifyBinary with st := .pbin }.cur = 0 ∧ wVerifyBinary.crcPos = ((6 : Nat) : Int) ∧ 6 ≤ wVerifyBinary.cfg.bufCap ∧
    (∀ a, a < 6 → 3 ≤ a → wVerifyBinary.at a ≠ 0x13#8) := by decide
theorem witness_control_byte :
    wPbin.st = .pbin ∧ wPbin.cur = 0 ∧ wPbin.crcPos = ((12 : Nat) : Int) ∧ 12 ≤ wPbin.cfg.bufCap ∧ 6 < 12 ∧
    wPbin.at 6 = 0x13#8 ∧ (∀ a, a < 6 → 3 ≤ a → wPbin.at a ≠ 0x13#8) ∧ 12 ≤ 6 + 6 ∧
    ({ wPbin with crcPos := 13 }.crcPos = ((13 : Nat) : Int) ∧ 6 + 6 < 13) := by decide

/-- BinaryProcessingIsResumable, stopped after the first element. -/
theorem witness_binary_resumable :
    Inv wPbin ∧ wPbin.st = .pbin ∧ (∃ t, exec .stepPbin { wPbin with yields := [] } = .next t) ∧
    ∃ u, exec .stepPbin { wPbin with yields := [true] } = .next u :=
  ⟨inv_pbin, rfl, ⟨_, rfl⟩, _, rfl⟩

/-- OnlyTheDecodersDeliver: an operation outside the list that answers a next state. -/
theorem witness_no_delivery : ∃ t, exec .stepErr wErr = .next t := ⟨_, rfl⟩

/-- ConfigurationAndRegistryAreFixed: a tick after the first one. -/
theorem witness_fixed :
    wErr.ticked = true ∧ (∀ a b c d rest, wErr.sched ≠ .reset a b c d :: rest) ∧ ∃ t, step wErr = .next t :=
  ⟨rfl, fun _ _ _ _ _ h => absurd h (by simp [wErr, at64, State.reset, State.resetWith, State.built]), _, rfl⟩

/-- BufferIsWrittenOnlyAtThePosition: the position at the last byte, and an operation that writes nothing. -/
theorem witness_write :
    Memory.wf { wReadAscii with pos := 63, src := [0x41] }.buf = true ∧ 63 ≤ wReadAscii.cfg.bufCap ∧
    (∃ t, exec (.rbAppend 0x41) { wReadAscii with pos := 63, src := [0x41] } = .next t) ∧ ∃ t, exec .rbMark wReadAscii = .next t :=
  ⟨by decide, by decide, ⟨_, rfl⟩, _, rfl⟩

/-- StepsWriteOnlyTheirRegisters, one per clause. -/
theorem witness_step_frames :
    (∃ t, exec .stepIdent { wIdent with src := [0x2F] } = .next t) ∧ (∃ t, exec .stepRead wReadAscii = .next t) ∧
    (wVerifyBinary.crcA = none ∧ wVerifyBinary.crcX = none) ∧ (∃ t, exec .stepPascii wPascii = .next t) :=
  ⟨⟨_, rfl⟩, ⟨_, rfl⟩, by decide, _, rfl⟩
theorem witness_verify_frame : next (exec .stepVerify wVerifyBinary) (fun _ => true) = true := by decide +kernel

end Sys2Proof.Tests
end

section
/-! SUPPORT. What the text parsers of 30_encoding.md R100 to R102 accept, one characterisation per parser: maximal munch of
digits, literal bytes, DEC, the OBIS triple and FLOAT. -/

namespace Sys2Proof

open Sys2Proof.Machine

/-! ## Digit strings -/

/-- The model's left fold is the library's positional value. -/
theorem digitsValue_eq_decimalNat (ds : List Byte) : digitsValue ds = decimalNat ds := by
  simp [digitsValue, decimalNat, Nat.ofDigits_eq_foldr, List.foldr_reverse, List.foldl_map, Nat.add_comm]

theorem decimalNat_append (int frac : List Byte) :
    decimalNat (int ++ frac) = decimalNat int * 10 ^ frac.length + decimalNat frac := by
  simp [decimalNat, Nat.ofDigits_append, Nat.add_comm, Nat.mul_comm]

/-- A text that begins with a byte that is no digit ends a digit string in front of it. -/
theorem head_not_digit_cons {c : Byte} (hc : isDigit c = false) (t : List Byte) :
    ∀ b ∈ (c :: t).head?, isDigit b = false := by
  simpa using hc

/-- Maximal munch: digits followed by a byte that is no digit are split there. -/
theorem spanDigits_append {ds rest : List Byte} (hds : ∀ d ∈ ds, isDigit d = true)
    (hrest : ∀ b ∈ rest.head?, isDigit b = false) : spanDigits (ds ++ rest) = (ds, rest) := by
  induction ds with
  | nil =>
    cases rest with
    | nil => rfl
    | cons b bs => simp [spanDigits, hrest b rfl]
  | cons d ds ih =>
    obtain ⟨hd, hds⟩ := List.forall_mem_cons.mp hds
    simp [spanDigits, hd, ih hds]

/-- Every text is a digit string followed by a text that does not begin with a digit. -/
theorem exists_digits_append (l : List Byte) :
    ∃ ds rest, l = ds ++ rest ∧ (∀ d ∈ ds, isDigit d = true) ∧ ∀ b ∈ rest.head?, isDigit b = false := by
  induction l with
  | nil => exact ⟨[], [], rfl, by simp, by simp⟩
  | cons b l ih =>
    cases hb : isDigit b with
    | false => exact ⟨[], b :: l, rfl, by simp, by simpa using hb⟩
    | true =>
      obtain ⟨ds, rest, rfl, hds, hrest⟩ := ih
      exact ⟨b :: ds, rest, rfl, List.forall_mem_cons.mpr ⟨hb, hds⟩, hrest⟩

/-! ## Literals, DEC and triples -/

theorem parseByte_eq_some {c : Byte} {l r : List Byte} : parseByte c l = some r ↔ l = c :: r := by
  cases l <;> simp [parseByte]

@[simp] theorem parseByte_cons_self (c : Byte) (l : List Byte) : parseByte c (c :: l) = some l :=
  parseByte_eq_some.mpr rfl

theorem parseBytes_eq_some {cs l r : List Byte} : parseBytes cs l = some r ↔ l = cs ++ r := by
  induction cs generalizing l with
  | nil => simp [parseBytes]
  | cons c cs ih => simp [parseBytes, Option.bind_eq_some_iff, parseByte_eq_some, ih]

/-- DEC takes a non-empty digit string up to a byte that is no digit (R100). -/
theorem parseDec_eq_some {l r : List Byte} {n : Nat} :
    parseDec l = some (n, r) ↔
      ∃ d, isDec d ∧ l = d ++ r ∧ (∀ b ∈ r.head?, isDigit b = false) ∧ n = decimalNat d := by
  constructor
  · intro h
    obtain ⟨ds, rest, rfl, hds, hrest⟩ := exists_digits_append l
    simp only [parseDec, spanDigits_append hds hrest, digitsValue_eq_decimalNat, Option.ite_none_left_eq_some,
      List.isEmpty_iff, Option.some.injEq, Prod.mk.injEq] at h
    obtain ⟨hne, rfl, rfl⟩ := h
    exact ⟨ds, ⟨hne, hds⟩, rfl, hrest, rfl⟩
  · rintro ⟨d, ⟨hne, hd⟩, rfl, hr, rfl⟩
    simp [parseDec, spanDigits_append hd hr, hne, digitsValue_eq_decimalNat]

/-- DEC "." DEC "." DEC, up to a byte that is no digit: the points end the first two digit strings. -/
theorem parseTriple_eq_some {l r : List Byte} {a b c : Nat} :
    parseTriple l = some ((a, b, c), r) ↔
      ∃ d1 d2 d3, isDec d1 ∧ isDec d2 ∧ isDec d3 ∧ l = d1 ++ 0x2E#8 :: (d2 ++ 0x2E#8 :: (d3 ++ r)) ∧
        (∀ b ∈ r.head?, isDigit b = false) ∧ a = decimalNat d1 ∧ b = decimalNat d2 ∧ c = decimalNat d3 := by
  constructor
  · intro h
    simp only [parseTriple, Option.bind_eq_some_iff, Option.map_eq_some_iff, Prod.exists, Prod.mk.injEq] at h
    obtain ⟨a', l1, h1, l2, hp1, b', l3, h2, l4, hp2, c', r', h3, ⟨rfl, rfl, rfl⟩, rfl⟩ := h
    obtain ⟨d1, hd1, rfl, -, rfl⟩ := parseDec_eq_some.mp h1
    obtain ⟨d2, hd2, rfl, -, rfl⟩ := parseDec_eq_some.mp h2
    obtain ⟨d3, hd3, rfl, hr, rfl⟩ := parseDec_eq_some.mp h3
    rw [parseByte_eq_some] at hp1 hp2
    subst hp1 hp2
    exact ⟨d1, d2, d3, hd1, hd2, hd3, rfl, hr, rfl, rfl, rfl⟩
  · rintro ⟨d1, d2, d3, hd1, hd2, hd3, rfl, hr, rfl, rfl, rfl⟩
    have point := head_not_digit_cons (c := 0x2E#8) rfl
    have h1 := parseDec_eq_some.mpr ⟨d1, hd1, rfl, point (d2 ++ 0x2E#8 :: (d3 ++ r)), rfl⟩
    have h2 := parseDec_eq_some.mpr ⟨d2, hd2, rfl, point (d3 ++ r), rfl⟩
    have h3 := parseDec_eq_some.mpr ⟨d3, hd3, rfl, hr, rfl⟩
    simp [parseTriple, h1, h2, h3]

/-- Format `OT`: nothing may follow the triple (R100). -/
theorem parseObisText_eq_some {text : List Byte} {a b c : Nat} :
    parseObisText text = some (a, b, c) ↔
      ∃ d1 d2 d3, isDec d1 ∧ isDec d2 ∧ isDec d3 ∧ text = d1 ++ 0x2E#8 :: (d2 ++ 0x2E#8 :: d3) ∧
        a = decimalNat d1 ∧ b = decimalNat d2 ∧ c = decimalNat d3 := by
  have h : parseObisText text = some (a, b, c) ↔ parseTriple text = some ((a, b, c), []) := by
    unfold parseObisText
    split <;> simp_all
  simp [h, parseTriple_eq_some]

/-! ## FLOAT -/

theorem not_sign_of_isDigit {b : Byte} (h : isDigit b = true) : b ≠ 0x2B#8 ∧ b ≠ 0x2D#8 := by
  constructor <;> rintro rfl <;> exact absurd h (by decide)

/-- The sign bit the parser records is the factor `s` of R102; without a sign nothing is taken from a text that does
not begin with one. -/
theorem parseSign_append {sgn l : List Byte} {k : Int}
    (hsgn : sgn = [] ∧ k = 1 ∨ sgn = [0x2B#8] ∧ k = 1 ∨ sgn = [0x2D#8] ∧ k = -1)
    (hl : sgn = [] → ∀ b ∈ l.head?, b ≠ 0x2B#8 ∧ b ≠ 0x2D#8) :
    ∃ neg : Bool, parseSign (sgn ++ l) = (neg, l) ∧ k = if neg then -1 else 1 := by
  rcases hsgn with ⟨rfl, rfl⟩ | ⟨rfl, rfl⟩ | ⟨rfl, rfl⟩
  · refine ⟨false, ?_, rfl⟩
    cases l with
    | nil => rfl
    | cons b bs =>
      obtain ⟨hplus, hminus⟩ := hl rfl b rfl
      simp [parseSign, hplus, hminus]
  · exact ⟨false, rfl, rfl⟩
  · exact ⟨true, rfl, rfl⟩

/-- R216: the digits before and after the point, read as one number and scaled, are `s * (value(I) + value(F) / 10^k)`. -/
theorem decimalValue_decimalOf (neg : Bool) (int frac : List Byte) :
    decimalValue (decimalOf neg int frac) =
      ((if neg then -1 else 1 : Int) : Rat) * ((decimalNat int : Rat) + (decimalNat frac : Rat) / 10 ^ frac.length) := by
  cases neg <;>
    simp [decimalValue, decimalOf, Rat.mkRat_eq_div, digitsValue_eq_decimalNat, decimalNat_append] <;> field_simp

section
variable {l int frac rest : List Byte} {neg : Bool}

/-- `DIGITS "." DIGIT*` and `"." DIGITS`. -/
theorem parseFloat_of_point (hsign : parseSign l = (neg, int ++ 0x2E#8 :: (frac ++ rest)))
    (hint : ∀ d ∈ int, isDigit d = true) (hfrac : ∀ d ∈ frac, isDigit d = true) (hne : int ≠ [] ∨ frac ≠ [])
    (hrest : ∀ b ∈ rest.head?, isDigit b = false) : parseFloat l = some (decimalOf neg int frac, rest) := by
  have hpoint := head_not_digit_cons (c := 0x2E#8) rfl (frac ++ rest)
  simp only [parseFloat, hsign, spanDigits_append hint hpoint, parseByte_cons_self, spanDigits_append hfrac hrest]
  rw [if_neg (by simpa [imp_iff_not_or] using hne)]

/-- `DIGITS` without a point. -/
theorem parseFloat_of_no_point (hsign : parseSign l = (neg, int ++ rest)) (hint : isDec int)
    (hrest : ∀ b ∈ rest.head?, isDigit b = false ∧ b ≠ 0x2E#8) :
    parseFloat l = some (decimalOf neg int [], rest) := by
  have hnone : parseByte 0x2E#8 rest = none := by
    rw [Option.eq_none_iff_forall_ne_some]
    intro r h
    rw [parseByte_eq_some] at h
    subst h
    exact (hrest _ rfl).2 rfl
  simp [parseFloat, hsign, spanDigits_append hint.2 fun b hb => (hrest b hb).1, hnone, hint.1]

/-- No digit before the point and none after it: no FLOAT. -/
theorem parseFloat_eq_none (hsign : parseSign l = (neg, rest)) (hrest : ∀ b ∈ rest.head?, isDigit b = false)
    (hpoint : rest.head? = some 0x2E#8 → ∀ b ∈ rest.tail.head?, isDigit b = false) : parseFloat l = none := by
  have hspan (t : List Byte) (ht : ∀ b ∈ t.head?, isDigit b = false) : spanDigits t = ([], t) :=
    spanDigits_append (ds := []) (by simp) ht
  simp only [parseFloat, hsign, hspan rest hrest]
  split
  · next afterPoint h =>
    rw [parseByte_eq_some] at h
    subst h
    simp [hspan afterPoint (hpoint rfl)]
  · rfl

end

/-! ## Measurement lines -/

/-- Each literal and the opening bracket are taken exactly; the bracket ends the third DEC (R101). -/
theorem parseMeas_eq_some {line : List Byte} {a b c : Nat} {v : Decimal} :
    parseMeas line = some (a, b, c, v) ↔
      ∃ d1 d2 d3 tail rest, isDec d1 ∧ isDec d2 ∧ isDec d3 ∧
        line = measPrefix ++ (d1 ++ 0x2E#8 :: (d2 ++ 0x2E#8 :: (d3 ++ 0x28#8 :: tail))) ∧
        a = decimalNat d1 ∧ b = decimalNat d2 ∧ c = decimalNat d3 ∧ parseFloat tail = some (v, rest) := by
  constructor
  · intro h
    simp only [parseMeas, Option.bind_eq_some_iff, Option.map_eq_some_iff, Prod.exists, Prod.mk.injEq] at h
    obtain ⟨l1, hpre, a', b', c', l2, htriple, tail, hbracket, v', rest, hfloat, rfl, rfl, rfl, rfl⟩ := h
    obtain ⟨d1, d2, d3, hd1, hd2, hd3, rfl, -, ha, hb, hc⟩ := parseTriple_eq_some.mp htriple
    rw [parseByte_eq_some] at hbracket
    subst hbracket
    exact ⟨d1, d2, d3, tail, rest, hd1, hd2, hd3, parseBytes_eq_some.mp hpre, ha, hb, hc, hfloat⟩
  · rintro ⟨d1, d2, d3, tail, rest, hd1, hd2, hd3, hline, ha, hb, hc, hfloat⟩
    have hpre := parseBytes_eq_some.mpr hline
    have hbracket := head_not_digit_cons (c := 0x28#8) rfl tail
    have htriple := parseTriple_eq_some.mpr ⟨d1, d2, d3, hd1, hd2, hd3, rfl, hbracket, ha, hb, hc⟩
    simp [parseMeas, hpre, htriple, hfloat]

end Sys2Proof
end

section
/-! The statements about the text grammars, the lead byte and the bytes read. -/

namespace Sys2Proof

open Sys2Proof.Machine

/-! ## OBIS.PARSE -/

theorem exec_obisParse_of_some {text : List Byte} {a b c : Nat} (h : parseObisText text = some (a, b, c)) (s : State) :
    exec (.obisParse text) s = .next { s with result := .code (obisPack a b c) } := by
  simp [exec, execObisParse, obisParse, h]

theorem exec_obisParse_of_none {text : List Byte} (h : parseObisText text = none) (s : State) :
    exec (.obisParse text) s =
      .next { s with result := .code Config.obisInvalid, trace := s.trace ++ [.diag (.error .obisText)] } := by
  simp [exec, execObisParse, obisParse, h, emit]

/-- Settles O17, by the two directions of the characterisation of format `OT`. -/
theorem obisParseAcceptsExactlyTriples : Obligations.ObisParseAcceptsExactlyTriples := by
  unfold Obligations.ObisParseAcceptsExactlyTriples
  refine ⟨fun d1 d2 d3 s h1 h2 h3 => ?_, fun text s hno => ?_⟩
  · exact exec_obisParse_of_some (parseObisText_eq_some.mpr ⟨d1, d2, d3, h1, h2, h3, rfl, rfl, rfl, rfl⟩) s
  · refine exec_obisParse_of_none (Option.eq_none_iff_forall_ne_some.mpr ?_) s
    rintro ⟨a, b, c⟩ h
    obtain ⟨d1, d2, d3, h1, h2, h3, htext, -⟩ := parseObisText_eq_some.mp h
    exact hno ⟨d1, d2, d3, h1, h2, h3, htext⟩

/-! ## FLOAT and the measurement line -/

/-- Settles O39: the sign is split off first, then each clause is one shape of the digits behind it. A text that begins
with a digit or the point begins with no sign. -/
theorem floatDenotesItsDigits : Obligations.FloatDenotesItsDigits := by
  unfold Obligations.FloatDenotesItsDigits
  refine ⟨fun sgn int frac rest k hsgn hint hfrac hne hrest => ?_, fun sgn int rest k hsgn hint hrest => ?_,
    fun sgn rest hsgn hrest hnosign hpoint => ?_⟩
  · have hhead : ∀ b ∈ (int ++ 0x2E#8 :: (frac ++ rest)).head?, b ≠ 0x2B#8 ∧ b ≠ 0x2D#8 := by
      cases int with
      | nil => simp
      | cons d ds => simpa using not_sign_of_isDigit (hint d List.mem_cons_self)
    obtain ⟨neg, hsign, rfl⟩ := parseSign_append hsgn fun _ => hhead
    rw [← List.append_assoc] at hsign
    exact ⟨_, parseFloat_of_point hsign hint hfrac hne hrest, decimalValue_decimalOf neg int frac⟩
  · have hhead : ∀ b ∈ (int ++ rest).head?, b ≠ 0x2B#8 ∧ b ≠ 0x2D#8 := by
      obtain ⟨d, ds, rfl⟩ := List.exists_cons_of_ne_nil hint.1
      simpa using not_sign_of_isDigit (hint.2 d List.mem_cons_self)
    obtain ⟨neg, hsign, rfl⟩ := parseSign_append hsgn fun _ => hhead
    rw [← List.append_assoc] at hsign
    refine ⟨_, parseFloat_of_no_point hsign hint hrest, ?_⟩
    simp [decimalValue_decimalOf, decimalNat]
  · obtain ⟨k, hk⟩ : ∃ k : Int, sgn = [] ∧ k = 1 ∨ sgn = [0x2B#8] ∧ k = 1 ∨ sgn = [0x2D#8] ∧ k = -1 := by
      rcases hsgn with h | h | h <;> simp [h]
    obtain ⟨neg, hsign, -⟩ := parseSign_append hk hnosign
    exact parseFloat_eq_none hsign hrest hpoint

/-- Settles O40: the characterisation of MEAS with the line's parts listed in order. -/
theorem measurementLineGrammar : Obligations.MeasurementLineGrammar := by
  intro line a b c v
  simp only [parseMeas_eq_some, measPrefix, List.append_assoc, List.cons_append, List.nil_append]

/-! ## The lead byte -/

theorem decodeLead_eq (b : Byte) :
    decodeLead b = if b = 0x2F#8 then .lbAscii else if b = 0x7E#8 then .lbBinary else .lbIllegal b := by
  unfold decodeLead leadClass
  split_ifs <;> rfl

theorem exec_lbIllegal (b : Byte) (s : State) : exec (.lbIllegal b) s = .next (takeError (.lead b) s) := rfl

/-- Settles O33: the classes of R93, then the two writes of `fmt` and the error taken. -/
theorem leadByteOperations : Obligations.LeadByteOperations := by
  intro s b
  refine ⟨?_, rfl, rfl, ?_⟩
  · rw [decode, decodeLead_eq]
  · rw [exec_lbIllegal, takeError_eq]

/-! ## The bytes read -/

/-- The table of R94, each format's classes in its order. -/
theorem decodeRb_eq (fmt : Fmt) (pos : Nat) (crcPos : Int) (b : Byte) :
    decodeRb fmt pos crcPos b =
      if fmt = .ascii ∧ b = 0x21#8 then .ok .rbMark
      else if fmt = .binary ∧ pos = 3 then .ok (.rbHdr b)
      else if fmt = .ascii ∧ 0 < crcPos ∧ crcPos < pos ∧ b = 0x0A#8 then .ok .rbEndA
      else if fmt = .binary ∧ 0 < crcPos ∧ pos = crcPos + 3 then .ok (.rbEndB b)
      else .error .dataByte := by
  cases fmt with
  | none => simp [decodeRb, rbClass]
  | ascii =>
    simp only [decodeRb, rbClass, pastCrcPos, crcPosKnown, Bool.and_eq_true, decide_eq_true_eq, and_assoc, true_and,
      reduceCtorEq, false_and, if_false]
    split_ifs <;> rfl
  | binary =>
    simp only [decodeRb, rbClass, endMarkerDue, crcPosKnown, Bool.and_eq_true, decide_eq_true_eq, true_and,
      reduceCtorEq, false_and, if_false]
    split_ifs <;> rfl

theorem exec_rbEndA (s : State) : exec .rbEndA s = .next (changeState .verify s) := rfl

theorem exec_rbEndB (b : Byte) (s : State) :
    exec (.rbEndB b) s = .next (if b = 0x7E#8 then changeState .verify s else takeError (.hdrEnd b) s) := by
  by_cases h : b = 0x7E#8 <;> simp [exec, execRbEndB, rbEndB, frameEnd, raiseError, h]

/-- Settles O35: the table of R94, then the mark's write and the two frame ends by what changing state and taking an error
write. -/
theorem readingBytesAreClassedAndActedOn : Obligations.ReadingBytesAreClassedAndActedOn := by
  refine ⟨fun _ => rfl, decodeRb_eq, fun s => ⟨rfl, ?_, fun b => ?_⟩⟩
  · rw [exec_rbEndA, changeState_verify]
  · rw [exec_rbEndB, changeState_verify, takeError_eq]

end Sys2Proof
end

section
/-! The checksum engine, 40_crc.md: what a checksum call leaves, and the injectivity of the update behind R136. -/

namespace Sys2Proof

open Sys2Proof.Machine

/-! ## The update and its two operands -/

theorem crcUpd_eq_iterate (poly c : Crc) (b : Byte) : crcUpd poly c b = (crcShift poly)^[8] (c ^^^ b.setWidth 16) := rfl

/-- A right shift brings in a 0 on top, so the top bit of the result tells whether the polynomial was applied. -/
theorem crcShift_msb {poly : Crc} (h : poly.msb = true) (x : Crc) : (crcShift poly x).msb = x.getLsbD 0 := by
  unfold crcShift
  split
  · next hbit => simp [h, hbit]
  · next hbit => simpa using hbit

/-- With the top bit of the polynomial set a shift step loses nothing: bit 0 is the top bit of the result, and the other
bits are what is left when the polynomial is taken out again. -/
theorem crcShift_injective {poly : Crc} (h : poly.msb = true) : Function.Injective (crcShift poly) := by
  intro x y hxy
  have hbit : x.getLsbD 0 = y.getLsbD 0 := by rw [← crcShift_msb h x, hxy, crcShift_msb h y]
  have hrest : x >>> 1 = y >>> 1 := by
    unfold crcShift at hxy
    rw [hbit] at hxy
    split at hxy
    · exact (BitVec.xor_left_inj _).mp hxy
    · exact hxy
  refine BitVec.eq_of_getLsbD_eq fun i _ => ?_
  cases i with
  | zero => exact hbit
  | succ i => simpa [Nat.add_comm] using congrArg (·.getLsbD i) hrest

section
variable {poly : Crc} (h : poly.msb = true)
include h

theorem crcUpd_left_injective (b : Byte) : Function.Injective fun c => crcUpd poly c b := by
  intro c c' hc
  simp only [crcUpd_eq_iterate] at hc
  exact (BitVec.xor_left_inj _).mp ((crcShift_injective h).iterate 8 hc)

theorem crcUpd_right_injective (c : Crc) : Function.Injective (crcUpd poly c) := by
  intro b b' hb
  simp only [crcUpd_eq_iterate] at hb
  have hwide : b.setWidth 16 = b'.setWidth 16 := (BitVec.xor_right_inj _).mp ((crcShift_injective h).iterate 8 hb)
  simpa using congrArg (·.setWidth 8) hwide

theorem foldl_crcUpd_injective (bs : List Byte) : Function.Injective fun c => bs.foldl (crcUpd poly) c := by
  induction bs with
  | nil => exact Function.injective_id
  | cons b bs ih => exact ih.comp (crcUpd_left_injective h b)

/-- R136 for every reflected CRC: the accumulators are equal before the byte, differ behind it, and stay different. -/
theorem foldl_crcUpd_ne_of_ne {b b' : Byte} (hb : b ≠ b') (seed : Crc) (before after : List Byte) :
    (before ++ b :: after).foldl (crcUpd poly) seed ≠ (before ++ b' :: after).foldl (crcUpd poly) seed := by
  simp only [List.foldl_append, List.foldl_cons]
  exact (foldl_crcUpd_injective h after).ne ((crcUpd_right_injective h _).ne hb)

end

/-- Settles O13: both polynomials have the top bit set, and the output constant of CRCX cancels. -/
theorem crcSeesEverySingleByteCorruption : Obligations.CrcSeesEverySingleByteCorruption := by
  intro before after b b' hb
  constructor
  · have hA : polyA.msb = true := by decide
    exact foldl_crcUpd_ne_of_ne hA hb 0x0000#16 before after
  · have hX : polyX.msb = true := by decide
    exact fun heq => foldl_crcUpd_ne_of_ne hX hb 0xFFFF#16 before after ((BitVec.xor_left_inj _).mp heq)

/-! ## The four calls -/

theorem exec_crcaUpd (c : Crc) (b : Byte) (s : State) :
    exec (.crcaUpd c b) s = .next { s with result := .crc (crcaUpd c b) } := rfl

theorem exec_crcxUpd (c : Crc) (b : Byte) (s : State) :
    exec (.crcxUpd c b) s = .next { s with result := .crc (crcxUpd c b) } := rfl

theorem exec_crcaRng_of_range {lo hi : Nat} {s s' : State} {r : Crc} (h : crcaRange lo hi s = (r, s')) :
    exec (.crcaRng lo hi) s = .next { s' with result := .crc r } := by
  simp [exec, execCrcaRng, h]

theorem exec_crcxRng_of_range {lo hi : Nat} {s s' : State} {r : Crc} (h : crcxRange lo hi s = (r, s')) :
    exec (.crcxRng lo hi) s = .next { s' with result := .crc r } := by
  simp [exec, execCrcxRng, h]

/-- Settles O10: the update is the eightfold iterate of the shift step, with each function's polynomial. -/
theorem crcUpdateIsEightReflectedShifts : Obligations.CrcUpdateIsEightReflectedShifts := by
  intro c b s
  constructor
  · rw [exec_crcaUpd, crcaUpd, crcUpd_eq_iterate]
    rfl
  · rw [exec_crcxUpd, crcxUpd, crcUpd_eq_iterate]
    rfl

/-- Settles O11: inside the buffer the loop folds the update over the stored bytes and leaves the state as it was. -/
theorem crcRangeFoldsTheUpdate : Obligations.CrcRangeFoldsTheUpdate :=
  ⟨fun _ _ _ _ hcap hA => exec_crcaRng_of_range (crcaRange_eq hcap hA),
    fun _ _ _ _ hcap hX => exec_crcxRng_of_range (crcxRange_eq hcap hX)⟩

/-- An empty range reads no byte, wherever it lies: the seed is the result. -/
theorem crcaRange_self (lo : Nat) {s : State} (hA : s.crcA = none) : crcaRange lo lo s = (0x0000#16, s) := by
  simp [crcaRange, crcaLoop, ← hA]

/-- Over the empty range the output constant of CRCX takes the seed back to zero. -/
theorem crcxRange_self (lo : Nat) {s : State} (hX : s.crcX = none) : crcxRange lo lo s = (0x0000#16, s) := by
  simp [crcxRange, crcxLoop, ← hX]

/-- Settles O12, at any offset, also beyond the buffer. -/
theorem crcOfEmptyRangeIsZero : Obligations.CrcOfEmptyRangeIsZero :=
  fun lo _ hA hX => ⟨exec_crcaRng_of_range (crcaRange_self lo hA), exec_crcxRng_of_range (crcxRange_self lo hX)⟩

end Sys2Proof
end

section
/-! The OBIS codec and the registry, 41_obis.md: packing and unpacking as arithmetic on the code's number, and what
registering and looking up leave. -/

namespace Sys2Proof

open Sys2Proof.Machine

/-! ## Packing and unpacking -/

theorem and_0xFFF (a : Nat) : a &&& 0xFFF = a % 0x1000 := Nat.and_two_pow_sub_one_eq_mod a 12

theorem and_0xFF (a : Nat) : a &&& 0xFF = a % 0x100 := Nat.and_two_pow_sub_one_eq_mod a 8

theorem obisPack_toNat (a b c : Nat) :
    (obisPack a b c).toNat = a % 0x1000 * 0x10000 + b % 0x100 * 0x100 + c % 0x100 := by
  rw [obisPack, BitVec.toNat_ofNat]
  omega

/-- The fields do not overlap, so the model's sums are the document's disjunctions (R150). -/
theorem obisPack_eq_or (a b c : Nat) :
    obisPack a b c = BitVec.ofNat 32 (((a &&& 0xFFF) <<< 16) ||| ((b &&& 0xFF) <<< 8) ||| (c &&& 0xFF)) := by
  rw [and_0xFFF, and_0xFF, and_0xFF, Nat.or_assoc,
    ← Nat.shiftLeft_add_eq_or_of_lt (show c % 0x100 < 2 ^ 8 by omega),
    ← Nat.shiftLeft_add_eq_or_of_lt (by rw [Nat.shiftLeft_eq]; omega)]
  simp only [Nat.shiftLeft_eq, obisPack, Nat.add_assoc, Nat.reducePow]

theorem unpackMajor_toNat (k : Code) : (unpackMajor k).toNat = k.toNat / 0x10000 % 0x1000 := by
  simp [unpackMajor, Nat.shiftRight_eq_div_pow]

theorem unpackMinor_toNat (k : Code) : (unpackMinor k).toNat = k.toNat / 0x100 % 0x100 := by
  simp [unpackMinor, Nat.shiftRight_eq_div_pow]

theorem unpackMicro_toNat (k : Code) : (unpackMicro k).toNat = k.toNat % 0x100 := by
  simp [unpackMicro]

theorem exec_obisPack (a b c : Nat) (s : State) :
    exec (.obisPack a b c) s = .next { s with result := .code (obisPack a b c) } := rfl

theorem exec_obisUnpk (k : Code) (s : State) :
    exec (.obisUnpk k) s = .next { s with result := .triple (unpackMajor k) (unpackMinor k) (unpackMicro k) } := rfl

/-- Settles O15: the sum is the disjunction, and each field is the number of the code divided down. -/
theorem obisPackAndUnpackResults : Obligations.ObisPackAndUnpackResults := by
  refine ⟨fun a b c s => ?_, fun k s => ?_⟩
  · rw [exec_obisPack, obisPack_eq_or]
  · have hmajor : unpackMajor k = BitVec.ofNat 12 (k.toNat / 65536) :=
      BitVec.eq_of_toNat_eq (by rw [unpackMajor_toNat, BitVec.toNat_ofNat])
    have hminor : unpackMinor k = BitVec.ofNat 8 (k.toNat / 256) :=
      BitVec.eq_of_toNat_eq (by rw [unpackMinor_toNat, BitVec.toNat_ofNat])
    have hmicro : unpackMicro k = BitVec.ofNat 8 k.toNat :=
      BitVec.eq_of_toNat_eq (by rw [unpackMicro_toNat, BitVec.toNat_ofNat])
    rw [exec_obisUnpk, hmajor, hminor, hmicro]

/-! ## The codec laws -/

theorem unpack_obisPack (a b c : Nat) :
    (unpackMajor (obisPack a b c)).toNat = a &&& 0xFFF ∧
    (unpackMinor (obisPack a b c)).toNat = b &&& 0xFF ∧
    (unpackMicro (obisPack a b c)).toNat = c &&& 0xFF := by
  rw [unpackMajor_toNat, unpackMinor_toNat, unpackMicro_toNat, obisPack_toNat, and_0xFFF, and_0xFF, and_0xFF]
  omega

theorem obisPack_unpack (k : Code) :
    obisPack (unpackMajor k).toNat (unpackMinor k).toNat (unpackMicro k).toNat = k &&& 0x0FFFFFFF#32 := by
  have hmask : (k &&& 0x0FFFFFFF#32).toNat = k.toNat % 0x10000000 := by
    rw [BitVec.toNat_and]
    exact Nat.and_two_pow_sub_one_eq_mod k.toNat 28
  apply BitVec.eq_of_toNat_eq
  rw [hmask, obisPack_toNat, unpackMajor_toNat, unpackMinor_toNat, unpackMicro_toNat]
  omega

/-- Unpacking recovers the masked triple, and packing looks at nothing else. -/
theorem obisPack_inj {a b c a' b' c' : Nat} :
    obisPack a b c = obisPack a' b' c' ↔
      a &&& 0xFFF = a' &&& 0xFFF ∧ b &&& 0xFF = b' &&& 0xFF ∧ c &&& 0xFF = c' &&& 0xFF := by
  constructor
  · intro h
    obtain ⟨hmajor, hminor, hmicro⟩ := unpack_obisPack a b c
    obtain ⟨hmajor', hminor', hmicro'⟩ := unpack_obisPack a' b' c'
    rw [← hmajor, ← hminor, ← hmicro, h]
    exact ⟨hmajor', hminor', hmicro'⟩
  · rintro ⟨hmajor, hminor, hmicro⟩
    rw [obisPack_eq_or, obisPack_eq_or, hmajor, hminor, hmicro]

/-- A packed code has bits 31:28 clear (R99). -/
theorem obisPack_ne_obisInvalid (a b c : Nat) : obisPack a b c ≠ Config.obisInvalid := by
  intro h
  have hnat : (obisPack a b c).toNat = 0xFFFFFFFF := congrArg BitVec.toNat h
  rw [obisPack_toNat] at hnat
  omega

/-- Settles O16, each law by the numbers of the codes. -/
theorem obisCodecLaws : Obligations.ObisCodecLaws :=
  ⟨unpack_obisPack, obisPack_unpack, fun _ _ _ _ _ _ => obisPack_inj, obisPack_ne_obisInvalid⟩

/-! ## Registering and looking up -/

/-- No triple packs to the sentinel, so the sentinel says that the text did not parse (R152). -/
theorem obisTextCode_eq_obisInvalid {text : List Byte} :
    obisTextCode text = Config.obisInvalid ↔ parseObisText text = none := by
  unfold obisTextCode
  cases parseObisText text with
  | none => simp
  | some t => simpa using obisPack_ne_obisInvalid t.1 t.2.1 t.2.2

/-- The text is parsed once: its code, and the report of a text that has none (R152). -/
theorem obisParse_eq (text : List Byte) (s : State) :
    obisParse text s =
      (obisTextCode text,
        if obisTextCode text = Config.obisInvalid then emit (.diag (.error .obisText)) s else s) := by
  simp only [obisTextCode_eq_obisInvalid]
  unfold obisParse obisTextCode
  cases parseObisText text <;> simp

theorem registryAdd_obisInvalid (h : Nat) (s : State) : registryAdd Config.obisInvalid h s = s := if_pos rfl

theorem registryAdd_of_ne {code : Code} (hcode : code ≠ Config.obisInvalid) (h : Nat) (s : State) :
    registryAdd code h s = { s with registry := Registry.insert s.registry code h } := if_neg hcode

theorem exec_regAdd_of_not_ticked {s : State} (hs : s.ticked = false) (text : List Byte) (h : Nat) :
    exec (.regAdd text h) s =
      .next (registryAdd (obisTextCode text) h
        (if obisTextCode text = Config.obisInvalid then emit (.diag (.error .obisText)) s else s)) := by
  simp [exec, execRegAdd, hs, obisParse_eq]

theorem exec_regLookup (k : Code) (s : State) :
    exec (.regLookup k) s = .next { s with result := .sink (regLookup k s) } := rfl

/-- Settles O18: a text with a code is one insertion, and the sentinel is reported and not inserted. -/
theorem registeringSetsOneLookup : Obligations.RegisteringSetsOneLookup := by
  refine ⟨fun text h s hs (hcode : obisTextCode text ≠ Config.obisInvalid) => ?_,
    fun text h s hs (hcode : obisTextCode text = Config.obisInvalid) => ?_⟩
  · refine ⟨Registry.insert s.registry (obisTextCode text) h, ?_, fun k => Registry.find_insert _ _ k h⟩
    rw [exec_regAdd_of_not_ticked hs, if_neg hcode, registryAdd_of_ne hcode]
  · rw [exec_regAdd_of_not_ticked hs, if_pos hcode, hcode, registryAdd_obisInvalid, emit]

/-- Settles O20: the operation writes the lookup's answer, which tests the sentinel first (R156). -/
theorem lookupNeverMatchesTheSentinel : Obligations.LookupNeverMatchesTheSentinel := by
  intro k s
  rw [exec_regLookup, regLookup, Config.obisInvalid]

end Sys2Proof
end

section
/-! The frame machine while it waits, takes the lead byte and reads, 42_frame_fsm.md R179 to R187 and R191: the poll and the
byte actions as state updates, then `STEP.READ` unrolled by one round of its loop. -/

namespace Sys2Proof

open Sys2Proof.Machine

/-! ## WAITING -/

theorem exec_stepWait (s : State) :
    exec .stepWait s =
      .next (if s.cfg.minPeriod.toNat ≤ elapsed s s.tIdent then changeState .ident s else s) := by
  change stepWait s = _
  unfold stepWait
  split <;> rfl

/-- Settles O24: the period's test, and the entry action of IDENT (R172). -/
theorem waitEndsWhenThePeriodHasElapsed : Obligations.WaitEndsWhenThePeriodHasElapsed := by
  intro s
  rw [exec_stepWait, changeState_ident, Config.obisInvalid]

/-! ## The poll -/

/-- A poll answers whether the source has a byte afterwards, and writes nothing but the source and the arrivals left. -/
theorem avail_update (s : State) :
    ∃ src polls, avail s = (!src.isEmpty, { s with src := src, polls := polls }) := by
  obtain ⟨-, h⟩ | ⟨p, ps, -, h⟩ := avail_eq s
  · exact ⟨s.src, s.polls, h⟩
  · exact ⟨s.src ++ p, ps, h⟩

/-- A poll does not look at the counter of reading ticks. -/
theorem avail_nReadTicks (n : Nat) (s : State) :
    avail { s with nReadTicks := n } = ((avail s).1, { (avail s).2 with nReadTicks := n }) := by
  unfold avail
  dsimp only
  split <;> rfl

theorem arriving_of_src_cons {s : State} {b : Byte} {rest : List Byte} (h : s.src = b :: rest) :
    arriving s = arriving { s with src := rest } + 1 := by
  simp only [arriving, h, List.length_cons]
  omega

/-! ## RB.APPEND and RB.HDR -/

theorem exec_rbAppend (b : Byte) (s : State) : exec (.rbAppend b) s = (rbAppend b s).out := rfl

theorem exec_rbHdr (b : Byte) (s : State) : exec (.rbHdr b) s = (rbHdr s).out := rfl

theorem rbAppend_of_full {s : State} (h : s.pos = s.cfg.bufCap) (b : Byte) :
    rbAppend b s = .done (.next (takeError .overrun s)) := if_pos h

/-- Settles O32: the test for overrun comes first, and a read after the write sees the byte at `pos` alone. -/
theorem appendStoresTheByteRead : Obligations.AppendStoresTheByteRead := by
  refine ⟨fun b s hfull => ?_, fun b rest s hsrc hroom => ?_, fun s b a hwf => Memory.read_write hwf s.pos a b⟩
  · rw [exec_rbAppend, rbAppend_of_full hfull, Flow.out_done, takeError_eq]
  · rw [exec_rbAppend, rbAppend_eq hsrc hroom, Flow.out_go]

/-- Bits 7:5 as the quotient by 32 (R95). -/
theorem frameType_eq_five_iff (b : Byte) : frameType b = 0b101#3 ↔ b.toNat / 32 = 5 := by
  have hb : b.toNat / 32 < 8 := by omega
  rw [← BitVec.toNat_inj, frameType, BitVec.extractLsb'_toNat, Nat.shiftRight_eq_div_pow, Nat.mod_eq_of_lt hb]
  rfl

theorem rbHdr_of_type {s : State} (hcap : 3 ≤ s.cfg.bufCap) (htype : (s.at 1).toNat / 32 = 5) :
    rbHdr s = .go { s with crcPos := (len13 (s.at 1) (s.at 2) : Int) - 1 } := by
  have h1 : bufRead 1 s = (s.at 1, s) := bufRead_of_lt (by omega)
  have h2 : bufRead 2 s = (s.at 2, s) := bufRead_of_lt (by omega)
  simp [rbHdr, h1, h2, (frameType_eq_five_iff _).mpr htype]

theorem rbHdr_of_type_ne {s : State} (hcap : 3 ≤ s.cfg.bufCap) (htype : (s.at 1).toNat / 32 ≠ 5) :
    rbHdr s = .done (.next (takeError (.hdrFormat (s.at 1)) s)) := by
  have h1 : bufRead 1 s = (s.at 1, s) := bufRead_of_lt (by omega)
  have hne : frameType (s.at 1) ≠ 0b101#3 := fun h => htype ((frameType_eq_five_iff _).mp h)
  simp only [rbHdr, h1, if_pos hne, raiseError]

/-- Settles O34: both bytes of the header stand inside the buffer, so they are the stored ones. -/
theorem headerGivesTheCrcPosition : Obligations.HeaderGivesTheCrcPosition := by
  refine ⟨fun b s hcap htype => ?_, fun b s hcap htype => ?_⟩
  · rw [exec_rbHdr, rbHdr_of_type hcap htype, Flow.out_go, len13]
  · rw [exec_rbHdr, rbHdr_of_type_ne hcap htype, Flow.out_done, takeError_eq]

/-! ## The action on a byte after its append -/

/-- What the loop of `STEP.READ` does with the answer of the decoder: a byte that selects no operation is data. -/
def decodedAction : Except DecodeError Instr → State → Flow
  | .ok .rbMark => rbMark
  | .ok (.rbHdr _) => rbHdr
  | .ok .rbEndA => rbEndA
  | .ok (.rbEndB b) => rbEndB b
  | _ => .go

theorem rbAction_eq_decodedAction (b : Byte) (s : State) :
    rbAction b s = decodedAction (decode (.rbAfter s.fmt s.pos s.crcPos b)) s := by
  simp only [decode, rbAction, decodeRb]
  cases rbClass s.fmt s.pos s.crcPos b <;> rfl

/-- The header is taken at the third byte of the frame (R94). -/
theorem pos_of_decode_rbHdr {fmt : Fmt} {pos : Nat} {crcPos : Int} {b c : Byte}
    (h : decode (.rbAfter fmt pos crcPos b) = .ok (.rbHdr c)) : pos = 3 := by
  rw [decode, decodeRb_eq] at h
  by_contra hpos
  simp only [hpos, and_false, if_false] at h
  split_ifs at h <;> cases h

/-- The frame end ends the tick whichever byte stands there (R186). -/
theorem rbEndB_eq_done (b : Byte) (s : State) : rbEndB b s = .done (exec (.rbEndB b) s) := by
  change rbEndB b s = .done (rbEndB b s).out
  unfold rbEndB
  split <;> rfl

/-! ## STEP.READ -/

/-- What `STEP.READ` makes of its loop: the timeout is tested only when no action ended the tick (R187). -/
def finishRead : Flow → Out
  | .go s => .next (readTimeout s)
  | .done o => o

theorem exec_stepRead (s : State) :
    exec .stepRead s = finishRead (readLoop (arriving s + 1) { s with nReadTicks := s.nReadTicks + 1 }) := rfl

theorem readTimeout_eq (s : State) :
    readTimeout s = if 10000 < elapsed s s.tRead then takeError .incomplete s else s := rfl

theorem exec_stepRead_idle {s : State} (h : (avail s).1 = false) :
    exec .stepRead s = .next (readTimeout { (avail s).2 with nReadTicks := s.nReadTicks + 1 }) := by
  have hpoll := avail_nReadTicks (s.nReadTicks + 1) s
  rw [exec_stepRead, readLoop_idle (by rw [hpoll, h]), hpoll]
  rfl

section
variable {s s1 : State} {b : Byte} {rest : List Byte} (ha : avail s = (true, s1)) (hb : s1.src = b :: rest)
include ha hb

/-- The first round of the loop, and behind it as many rounds as the bytes that are left can need. -/
theorem exec_stepRead_round :
    exec .stepRead s =
      finishRead ((rbAppend b { s1 with nReadTicks := s.nReadTicks + 1 }).andThen fun s2 =>
        (rbAction b s2).andThen (readLoop (arriving s))) := by
  have hpoll : avail { s with nReadTicks := s.nReadTicks + 1 } = (true, { s1 with nReadTicks := s.nReadTicks + 1 }) := by
    rw [avail_nReadTicks, ha]
  rw [exec_stepRead, readLoop_succ (b := b) (bs := rest) (by rw [hpoll]) (by rw [hpoll]; exact hb), hpoll]

theorem exec_stepRead_full (hfull : s1.pos = s1.cfg.bufCap) :
    exec .stepRead s = .next (takeError .overrun { s1 with nReadTicks := s.nReadTicks + 1 }) := by
  rw [exec_stepRead_round ha hb, rbAppend_of_full (s := { s1 with nReadTicks := s.nReadTicks + 1 }) hfull]
  rfl

section
variable {s2 : State} (hroom : s1.pos < s1.cfg.bufCap)
  (happ : exec (.rbAppend b) { s1 with nReadTicks := s.nReadTicks + 1 } = .next s2)
include hroom happ

/-- An appended byte uses up one of the bytes that can arrive, and the tick has counted itself. -/
theorem rbAppend_counts :
    rbAppend b { s1 with nReadTicks := s.nReadTicks + 1 } = .go s2 ∧ arriving s = arriving s2 + 1 ∧
      s2.nReadTicks = s.nReadTicks + 1 ∧ s2.pos ≤ s2.cfg.bufCap := by
  have hgo := rbAppend_eq (s := { s1 with nReadTicks := s.nReadTicks + 1 }) hb hroom
  have hcount : arriving s = arriving s1 := by rw [← arriving_avail s, ha]
  rw [exec_rbAppend, hgo, Flow.out_go] at happ
  obtain rfl := Host.Outcome.next.inj happ
  exact ⟨hgo, hcount.trans (arriving_of_src_cons hb), rfl, hroom⟩

/-- An action that lets the loop go on has written at most `crc_pos`; the rest of the tick is the same step again. -/
theorem exec_stepRead_of_go {c : Int} (hact : rbAction b s2 = .go { s2 with crcPos := c }) :
    exec .stepRead s = exec .stepRead { s2 with crcPos := c, nReadTicks := s.nReadTicks } := by
  obtain ⟨hgo, hcount, hticks, -⟩ := rbAppend_counts ha hb hroom happ
  rw [exec_stepRead_round ha hb, hgo, Flow.andThen_go, hact, Flow.andThen_go, hcount, exec_stepRead, ← hticks]
  rfl

theorem exec_stepRead_of_done {o : Out} (hact : rbAction b s2 = .done o) : exec .stepRead s = o := by
  obtain ⟨hgo, -, -, -⟩ := rbAppend_counts ha hb hroom happ
  rw [exec_stepRead_round ha hb, hgo, Flow.andThen_go, hact]
  rfl

end

end

/-- Settles O29: a round of the loop, then the decoded operation; what goes on with the loop is the same step with one
byte less to come. -/
theorem readHandlesTheNextByte : Obligations.ReadHandlesTheNextByte := by
  refine ⟨fun s hidle => ?_, fun s s1 b rest ha hb => ?_⟩
  · obtain ⟨src, polls, hpoll⟩ := avail_update s
    rw [exec_stepRead_idle hidle, readTimeout_eq, takeError_eq, hpoll]
    rfl
  obtain ⟨src, polls, hpoll⟩ := avail_update s
  obtain rfl : s1 = { s with src := src, polls := polls } := congrArg Prod.snd (ha.symm.trans hpoll)
  refine ⟨fun hfull => ?_, fun hroom s2 happ => ?_⟩
  · rw [exec_stepRead_full ha hb hfull, takeError_eq]
  have hact := rbAction_eq_decodedAction b s2
  obtain ⟨-, -, -, hpos⟩ := rbAppend_counts ha hb hroom happ
  refine ⟨fun hdec => ?_, fun hdec t ht => ?_, fun hdec htype t ht => ?_, fun hdec htype => ?_, fun hdec => ?_,
    fun hdec => ?_⟩ <;> rw [hdec] at hact
  · exact exec_stepRead_of_go ha hb hroom happ hact
  · obtain rfl := Host.Outcome.next.inj ht
    exact exec_stepRead_of_go ha hb hroom happ hact
  · have hgo := rbHdr_of_type (pos_of_decode_rbHdr hdec ▸ hpos) htype
    rw [exec_rbHdr, hgo] at ht
    obtain rfl := Host.Outcome.next.inj ht
    exact exec_stepRead_of_go ha hb hroom happ (hact.trans hgo)
  · have hdone := rbHdr_of_type_ne (pos_of_decode_rbHdr hdec ▸ hpos) htype
    rw [exec_stepRead_of_done ha hb hroom happ (hact.trans hdone), exec_rbHdr, hdone, Flow.out_done]
  · exact exec_stepRead_of_done ha hb hroom happ hact
  · exact exec_stepRead_of_done ha hb hroom happ (hact.trans (rbEndB_eq_done b s2))

/-! ## STEP.IDENT -/

/-- A byte that is neither lead byte raises EC_LEAD (R93, R262). -/
theorem lbAction_of_illegal {b : Byte} (hascii : b ≠ 0x2F#8) (hbinary : b ≠ 0x7E#8) (s : State) :
    lbAction b s = .done (.next (takeError (.lead b) s)) := by
  rw [lbAction, leadClass, if_neg hascii, if_neg hbinary]
  rfl

/-- What `STEP.IDENT` makes of the lead byte's action: a byte that was stored goes on with `STEP.READ` (R180). -/
def finishIdent : Flow → Out
  | .go s => exec .stepRead (changeState .read s)
  | .done o => o

theorem exec_stepIdent_idle {s : State} (h : (avail s).1 = false) :
    exec .stepIdent s =
      .next (if 60000 < elapsed (avail s).2 (avail s).2.tIdent then takeError .stall (avail s).2 else (avail s).2) := by
  have hpoll : avail s = (false, (avail s).2) := Prod.ext h rfl
  change stepIdent s = _
  rw [stepIdent, hpoll, Config.identTimeoutMs]
  dsimp only
  split <;> rfl

section
variable {s : State} {b : Byte} {rest : List Byte} (hsrc : (avail s).2.src = b :: rest)
include hsrc

/-- With a byte in the source the time is not looked at: the byte is read, acted on, and stored (R179). -/
theorem exec_stepIdent_lead :
    exec .stepIdent s =
      finishIdent ((lbAction b (passByte b { (avail s).2 with src := rest })).andThen (storeByte b)) := by
  have hpoll : avail s = (true, (avail s).2) := by
    obtain ⟨src, polls, h⟩ := avail_update s
    rw [h] at hsrc ⊢
    obtain rfl : src = b :: rest := hsrc
    rfl
  change stepIdent s = _
  rw [stepIdent, hpoll]
  dsimp only
  rw [readByte_cons hsrc]
  dsimp only
  cases (lbAction b (passByte b { (avail s).2 with src := rest })).andThen (storeByte b) <;> rfl

/-- A lead byte that selects a format is stored, and the same tick goes on with `STEP.READ` (R180). -/
theorem exec_stepIdent_legal {f : Fmt} (hlead : ∀ u, lbAction b u = .go { u with fmt := f })
    (hroom : s.pos < s.cfg.bufCap) :
    exec .stepIdent s =
      exec .stepRead { (avail s).2 with
        src := rest, st := .read, fmt := f, tRead := s.now, buf := Memory.write s.buf s.pos b, pos := s.pos + 1,
        trace := s.trace ++ (if s.cfg.passthrough then [.pass b] else []) } := by
  obtain ⟨src, polls, hpoll⟩ := avail_update s
  rw [exec_stepIdent_lead hsrc, hlead, passByte_eq, Flow.andThen_go, storeByte_of_lt (by rw [hpoll]; exact hroom), hpoll]
  rfl

end

/-- Settles O28: the poll writes only the source, so the time and the buffer are those before it; the two legal lead bytes
differ in the format alone. -/
theorem identStallsOrTakesTheLeadByte : Obligations.IdentStallsOrTakesTheLeadByte := by
  refine ⟨fun s hidle => ?_, fun s b rest hsrc hascii hbinary => ?_,
    fun s rest hsrc hroom => exec_stepIdent_legal hsrc (fun _ => rfl) hroom,
    fun s rest hsrc hroom => exec_stepIdent_legal hsrc (fun _ => rfl) hroom⟩
  · obtain ⟨src, polls, hpoll⟩ := avail_update s
    rw [exec_stepIdent_idle hidle, takeError_eq, hpoll]
    rfl
  · obtain ⟨src, polls, hpoll⟩ := avail_update s
    rw [exec_stepIdent_lead hsrc, lbAction_of_illegal hascii hbinary, takeError_eq, passByte_eq, hpoll]
    rfl

end Sys2Proof
end

section
/-! The verification of a frame, 42_frame_fsm.md R188 to R190: the hexadecimal field as a number, and the outcome both formats
share. -/

namespace Sys2Proof

open Sys2Proof.Machine

/-! ## The hexadecimal field -/

/-- The value after one more digit (R103), `none` before the first. -/
def hexPush (v : Option Nat) (d : Byte) : Option Nat := some (16 * v.getD 0 + (hexDigit d).getD 0)

/-- The scan takes the digits that stand at its offset and stops at the first byte that is none. -/
theorem hexScan_digits {s : State} {ds : List Byte} {n i : Nat} (v : Option Nat)
    (hds : s.bytes i (i + ds.length) = ds) (hdigit : ∀ d ∈ ds, (hexDigit d).isSome = true) (hn : ds.length < n)
    (hstop : hexDigit (s.at (i + ds.length)) = none) : hexScan s.buf n i v = some (ds.foldl hexPush v) := by
  induction ds generalizing n i v with
  | nil =>
    obtain ⟨k, rfl⟩ := Nat.exists_eq_add_of_lt hn
    simp only [List.length_nil, Nat.add_zero] at hstop
    simp [hexScan, hstop]
  | cons d ds ih =>
    obtain ⟨k, rfl⟩ := Nat.exists_eq_add_of_lt hn
    rw [List.length_cons, bytes_succ, List.cons.injEq] at hds
    obtain ⟨hd, hds⟩ := hds
    obtain ⟨x, hx⟩ := Option.isSome_iff_exists.mp (hdigit d List.mem_cons_self)
    rw [hexScan, show Memory.read s.buf i = d from hd, hx]
    dsimp only
    rw [ih _ hds (fun e he => hdigit e (List.mem_cons_of_mem d he)) (by simp only [List.length_cons]; omega)
      (by rw [← hstop, List.length_cons, Nat.add_assoc, Nat.add_comm 1]), List.foldl_cons, hexPush, hx, Option.getD_some]

/-- The digits' value is the library's positional value in base 16; no digit, no value (R188). -/
theorem foldl_hexPush (ds : List Byte) :
    ds.foldl hexPush none =
      if ds = [] then none else some (Nat.ofDigits 16 (ds.reverse.map fun d => (hexDigit d).getD 0)) := by
  induction ds using List.reverseRecOn with
  | nil => rfl
  | append_singleton ds d ih =>
    rw [List.foldl_append, ih, List.foldl_cons, List.foldl_nil, hexPush]
    cases ds <;> simp [Nat.ofDigits_cons, Nat.add_comm]

/-! ## The outcome -/

/-- A match goes to the decoder; a mismatch is reported with the bytes of the frame and raises (R190). -/
theorem verifyOutcome_eq {s : State} (h : s.pos ≤ s.cfg.bufCap) (computed : Crc) (expected : Option Nat) (dest : Target) :
    verifyOutcome computed expected dest s =
      if expected = some computed.toNat then changeState dest s
      else { s with
        st := .err, tErr := s.now,
        trace := s.trace ++
          [.diag (.crcMismatch computed expected (s.bytes 0 s.pos)), .diag (.error .crc), .notify .commError] } := by
  have hdump : bufReads s.pos 0 s = (s.bytes 0 s.pos, s) := by
    simpa using bufReads_of_le (i := 0) (n := s.pos) (s := s) (by omega)
  simp only [verifyOutcome, hdump, takeError_eq]
  simp

section
variable {s : State} {p : Nat} (hp : s.crcPos = (p : Int))
include hp

theorem exec_stepVerify_ascii (hfmt : s.fmt = .ascii) : exec .stepVerify s = verifyAscii s := by
  change stepVerify s = _
  rw [stepVerify, if_neg (by omega), hfmt]

theorem exec_stepVerify_binary (hfmt : s.fmt = .binary) : exec .stepVerify s = verifyBinary s := by
  change stepVerify s = _
  rw [stepVerify, if_neg (by omega), hfmt]

theorem verifyAscii_eq {expected : Option Nat} (hscan : hexScan s.buf (s.cfg.bufCap - p) p none = some expected)
    (hcap : p ≤ s.cfg.bufCap) (hA : s.crcA = none) :
    verifyAscii s = .next (verifyOutcome (crcaBytes (s.bytes 0 p)) expected .pascii s) := by
  simp only [verifyAscii, hp, Int.toNat_natCast, hscan, crcaRange_eq hcap hA]

theorem verifyBinary_eq (hcap : p + 2 ≤ s.cfg.bufCap) (hX : s.crcX = none) :
    verifyBinary s =
      .next (verifyOutcome (crcxBytes (s.bytes 1 p)) (some (le16 (s.at p) (s.at (p + 1))).toNat) .pbin s) := by
  simp only [verifyBinary, hp, Int.toNat_natCast, bufRead_of_lt (show p < s.cfg.bufCap by omega),
    bufRead_of_lt (show p + 1 < s.cfg.bufCap by omega), crcxRange_eq (show p ≤ s.cfg.bufCap by omega) hX]

end

/-- Settles O36: the scan's value is the positional value of the digits, and the rest is the shared outcome. -/
theorem verifyAsciiComparesTheHexField : Obligations.VerifyAsciiComparesTheHexField := by
  intro s p ds expected computed hfmt hp hA hpos hds hdigit hcap hstop hexpected hcomputed
  have hscan : hexScan s.buf (s.cfg.bufCap - p) p none = some expected := by
    rw [hexScan_digits none hds hdigit (by omega) hstop, foldl_hexPush, hexpected]
  rw [exec_stepVerify_ascii hp hfmt, verifyAscii_eq hp hscan (by omega) hA, verifyOutcome_eq hpos, changeState_pascii,
    hcomputed]
  rfl

/-! ## The little-endian field -/

theorem le16_toNat (b0 b1 : Byte) : (le16 b0 b1).toNat = b0.toNat + 256 * b1.toNat := by
  rw [le16, BitVec.toNat_append, ← Nat.shiftLeft_add_eq_or_of_lt b0.isLt, Nat.shiftLeft_eq]
  omega

/-- Settles O37: both bytes of the field stand inside the buffer, and the rest is the shared outcome. -/
theorem verifyBinaryComparesTheLittleEndianField : Obligations.VerifyBinaryComparesTheLittleEndianField := by
  intro s p computed hfmt hp hX hpos hcap hcomputed
  have hcrc : computed = crcxBytes (s.bytes 1 p) := hcomputed
  rw [exec_stepVerify_binary hp hfmt, verifyBinary_eq hp hcap hX, verifyOutcome_eq hpos, changeState_pbin, le16_toNat,
    ← hcrc]
  simp only [Option.some.injEq]

end Sys2Proof
end

section
/-! The ASCII line parser, 43_ascii_parser.md R210 to R217: a line's one event, one round of `STEP.PASCII` as the span it
handles, and the comparison of ticks that differ in where they stop. -/

namespace Sys2Proof

open Sys2Proof.Machine

/-! ## The line handlers -/

theorem decimalValue_eq_div (v : Decimal) : decimalValue v = (v.mant : Rat) / 10 ^ v.scale := by
  rw [decimalValue, Rat.mkRat_eq_div]
  push_cast
  rfl

theorem exec_lnMeas (a b c : Nat) (v : Decimal) (s : State) :
    exec (.lnMeas a b c v) s =
      .next { s with trace := s.trace ++ [dispatchEvent s (obisPack a b c) (decimalValue v)] } :=
  congrArg Host.Outcome.next (dispatch_eq (obisPack a b c) (decimalValue v) s)

theorem exec_lnOther (line : List Byte) (s : State) :
    exec (.lnOther line) s = .next { s with trace := s.trace ++ [.diag (.error (.line line))] } := rfl

theorem exec_lnEnd (mark : Byte) (s : State) : exec (.lnEnd mark) s = .next (changeState .wait s) := rfl

/-- Settles O38: a dispatch and a diagnostic are one event each, and the end mark is the change to WAITING. -/
theorem lineHandlers : Obligations.LineHandlers := by
  refine ⟨fun a b c v s => ?_, exec_lnOther, fun mark s => ?_⟩
  · rw [exec_lnMeas, decimalValue_eq_div]
  · rw [exec_lnEnd, changeState_wait]

/-- The event a line is handled with (R212, R213). -/
def lineEvent (s : State) (line : List Byte) : Event :=
  match parseMeas line with
  | some (a, b, c, v) => dispatchEvent s (obisPack a b c) (decimalValue v)
  | none => .diag (.error (.line line))

theorem lineAction_eq (line : List Byte) (s : State) :
    lineAction line s = { s with trace := s.trace ++ [lineEvent s line] } := by
  unfold lineAction lineEvent
  cases parseMeas line with
  | none => rfl
  | some m => exact dispatch_eq _ _ s

/-- A line of at least one byte, without a boundary in it, decodes to an operation that emits the line's event. -/
theorem exists_decode_line {line : List Byte} (hne : line ≠ []) (hline : ∀ b ∈ line, isBoundary b = false) :
    ∃ i, decode (.ln line) = .ok i ∧ ∀ s, exec i s = .next { s with trace := s.trace ++ [lineEvent s line] } := by
  have hany : line.any isBoundary = false := List.any_eq_false.mpr fun b hb => by simp [hline b hb]
  cases hm : parseMeas line with
  | none => exact ⟨.lnOther line, by simp [decode, decodeLine, hne, hany, hm], fun s => by simp [lineEvent, hm, exec_lnOther]⟩
  | some m =>
    obtain ⟨a, b, c, v⟩ := m
    exact ⟨.lnMeas a b c v, by simp [decode, decodeLine, hne, hany, hm], fun s => by simp [lineEvent, hm, exec_lnMeas]⟩

/-! ## The span of the next line -/

theorem bytes_ne_nil {s : State} {lo hi : Nat} (h : lo < hi) : s.bytes lo hi ≠ [] := by
  rw [State.bytes, Ne, List.map_eq_nil_iff, List.range_eq_nil]
  omega

theorem forall_mem_bytes {s : State} {lo hi : Nat} {p : Byte → Prop} (h : ∀ a, lo ≤ a → a < hi → p (s.at a)) :
    ∀ b ∈ s.bytes lo hi, p b := by
  intro b hb
  obtain ⟨k, hk, rfl⟩ := List.mem_map.mp hb
  rw [List.mem_range] at hk
  exact h (lo + k) (by omega) (by omega)

theorem skipTerminators_bounds {m : List Host.Cell} {n i c : Nat} (h : skipTerminators m n i = some c) :
    i ≤ c ∧ c < i + n := by
  induction n generalizing i with
  | zero => cases h
  | succ n ih =>
    rw [skipTerminators] at h
    split at h
    · have := ih h
      omega
    · cases h
      omega

theorem findBoundary_bounds {m : List Host.Cell} {n i e : Nat} (h : findBoundary m n i = some e) :
    i ≤ e ∧ e < i + n := by
  induction n generalizing i with
  | zero => cases h
  | succ n ih =>
    rw [findBoundary] at h
    split at h
    · cases h
      omega
    · have := ih h
      omega

/-- The span `[c, e)` the next round handles (R211); `none` when a scan runs to the end of the buffer. -/
def nextSpan (s : State) : Option (Nat × Nat) :=
  (skipTerminators s.buf (s.cfg.bufCap - s.cur) s.cur).bind fun c =>
    (findBoundary s.buf (s.cfg.bufCap - c) c).map fun e => (c, e)

theorem nextSpan_bounds {s : State} {c e : Nat} (h : nextSpan s = some (c, e)) : s.cur ≤ e ∧ e < s.cfg.bufCap := by
  obtain ⟨c', hc, h⟩ := Option.bind_eq_some_iff.mp h
  obtain ⟨e', he, h⟩ := Option.map_eq_some_iff.mp h
  cases h
  have := skipTerminators_bounds hc
  have := findBoundary_bounds he
  omega

theorem nextSpan_eq_some {s : State} {c e : Nat} (hc : s.cur ≤ c) (hce : c ≤ e) (he : e < s.cfg.bufCap)
    (hskip : ∀ a, s.cur ≤ a → a < c → isTerminator (s.at a) = true) (hstart : isTerminator (s.at c) = false)
    (hline : ∀ a, c ≤ a → a < e → isBoundary (s.at a) = false) (hend : isBoundary (s.at e) = true) :
    nextSpan s = some (c, e) := by
  rw [nextSpan, skipTerminators_eq hc (by omega) hskip hstart, Option.bind_some,
    findBoundary_eq hce (by omega) hline hend, Option.map_some]

theorem asciiRound_of_none {s : State} (h : nextSpan s = none) : asciiRound s = .done (.fault .scanPastBuffer) := by
  unfold nextSpan at h
  unfold asciiRound
  cases hc : skipTerminators s.buf (s.cfg.bufCap - s.cur) s.cur with
  | none => rfl
  | some c =>
    rw [hc, Option.bind_some, Option.map_eq_none_iff] at h
    dsimp only
    rw [h]

theorem asciiRound_of_span {s : State} {c e : Nat} (h : nextSpan s = some (c, e)) : asciiRound s = spanAction c e s := by
  obtain ⟨c', hc, h⟩ := Option.bind_eq_some_iff.mp h
  obtain ⟨e', he, h⟩ := Option.map_eq_some_iff.mp h
  cases h
  simp only [asciiRound, hc, he]

/-! ## One round of the step -/

/-- The state of a tick behind the line in `[c, e)`: an empty span is not a line and is not reported (R211). -/
def afterLine (s : State) (c e : Nat) : State :=
  { s with cur := c, trace := s.trace ++ if c = e then [] else [lineEvent s (s.bytes c e)] }

theorem spanAction_eq (c e : Nat) (s : State) :
    spanAction c e s =
      if isEndMark (s.at e) then .done (exec (.lnEnd (s.at e)) (afterLine s c e))
      else .go { afterLine s c e with cur := e + 1 } := by
  have hline : (if e ≠ c then lineAction (spanBytes s.buf c e) { s with cur := c } else { s with cur := c }) =
      afterLine s c e := by
    unfold afterLine
    by_cases h : c = e
    · simp [h]
    · rw [if_pos (Ne.symm h), if_neg h]
      exact lineAction_eq _ _
  simp only [spanAction, hline]
  rfl

theorem yieldNow_eq_headD (s : State) : yieldNow s = (s.yields.headD false, { s with yields := s.yields.tail }) := by
  obtain ⟨hs, h⟩ | ⟨y, ys, hs, h⟩ := yieldNow_eq s
  · rw [h, hs, List.headD_nil, List.tail_nil, ← hs]
  · rw [h, hs]
    rfl

/-- What a round that goes on leaves for `yield()` (R198). -/
theorem asciiLoop_succ_of_go {s s1 : State} (h : asciiRound s = .go s1) (n : Nat) :
    asciiLoop (n + 1) s =
      if s1.yields.headD false then .done (.next { s1 with yields := s1.yields.tail })
      else asciiLoop n { s1 with yields := s1.yields.tail } := by
  rw [asciiLoop, h, Flow.andThen_go, yieldNow_eq_headD]
  cases s1.yields.headD false <;> rfl

theorem asciiLoop_succ_of_done {s : State} {o : Out} (h : asciiRound s = .done o) (n : Nat) :
    asciiLoop (n + 1) s = .done o := by
  rw [asciiLoop, h, Flow.andThen_done]

/-- A round that goes on has moved the cursor on inside the buffer. -/
theorem cur_lt_of_asciiRound {s s1 : State} (h : asciiRound s = .go s1) :
    s.cur < s1.cur ∧ s1.cur ≤ s.cfg.bufCap ∧ s1.cfg = s.cfg := by
  cases hspan : nextSpan s with
  | none => rw [asciiRound_of_none hspan] at h; cases h
  | some p =>
    obtain ⟨c, e⟩ := p
    have := nextSpan_bounds hspan
    rw [asciiRound_of_span hspan, spanAction_eq] at h
    split at h
    · cases h
    · cases h
      exact ⟨by simp only; omega, by simp only; omega, rfl⟩

/-- Fuel above the offsets left in the buffer is never used up, so its amount does not matter. -/
theorem asciiLoop_fuel {s : State} {m n : Nat} (hm : s.cfg.bufCap - s.cur < m) (hn : s.cfg.bufCap - s.cur < n) :
    asciiLoop m s = asciiLoop n s := by
  induction m generalizing s n with
  | zero => omega
  | succ m ih =>
    obtain ⟨n, rfl⟩ : ∃ k, n = k + 1 := ⟨n - 1, by omega⟩
    cases h : asciiRound s with
    | done o => rw [asciiLoop_succ_of_done h, asciiLoop_succ_of_done h]
    | go s1 =>
      obtain ⟨hcur, hcap, hcfg⟩ := cur_lt_of_asciiRound h
      rw [asciiLoop_succ_of_go h, asciiLoop_succ_of_go h]
      congr 1
      exact ih (by simp only [hcfg]; omega) (by simp only [hcfg]; omega)

theorem exec_stepPascii (s : State) :
    exec .stepPascii s = (asciiLoop (s.cfg.bufCap - s.cur + 1) { s with nProcTicks := s.nProcTicks + 1 }).out := rfl

theorem exec_stepPascii_of_none {s : State} (h : nextSpan s = none) : exec .stepPascii s = .fault .scanPastBuffer := by
  have hround : asciiRound { s with nProcTicks := s.nProcTicks + 1 } = .done (.fault .scanPastBuffer) :=
    asciiRound_of_none h
  rw [exec_stepPascii, asciiLoop_succ_of_done hround, Flow.out_done]

section
variable {s : State} {c e : Nat} (hspan : nextSpan s = some (c, e))
include hspan

/-- The first round of a tick, which has counted itself. -/
theorem asciiRound_counted :
    asciiRound { s with nProcTicks := s.nProcTicks + 1 } =
      spanAction c e { s with nProcTicks := s.nProcTicks + 1 } :=
  asciiRound_of_span hspan

theorem exec_stepPascii_end (hend : isEndMark (s.at e) = true) :
    exec .stepPascii s = exec (.lnEnd (s.at e)) { afterLine s c e with nProcTicks := s.nProcTicks + 1 } := by
  have hround := asciiRound_counted hspan
  rw [spanAction_eq, if_pos hend] at hround
  rw [exec_stepPascii, asciiLoop_succ_of_done hround]
  rfl

/-- Behind a terminator the tick ends on a true `yield()`; otherwise the rest of it is the same step again. -/
theorem exec_stepPascii_go (hend : isEndMark (s.at e) = false) :
    exec .stepPascii s =
      if s.yields.headD false then
        .next { afterLine s c e with cur := e + 1, yields := s.yields.tail, nProcTicks := s.nProcTicks + 1 }
      else exec .stepPascii { afterLine s c e with cur := e + 1, yields := s.yields.tail } := by
  have hround := asciiRound_counted hspan
  rw [spanAction_eq, if_neg (by simpa using hend)] at hround
  obtain ⟨hcur, hcap⟩ := nextSpan_bounds hspan
  rw [exec_stepPascii, asciiLoop_succ_of_go hround]
  change Flow.out (if s.yields.headD false then _ else _) = _
  split
  · rfl
  · exact congrArg Flow.out (asciiLoop_fuel (by simp only [afterLine]; omega) (by simp only [afterLine]; omega))

end

/-- Settles O41: the hypotheses name the next span, and in both cases of its length the state behind the line. -/
theorem asciiRoundHandlesTheNextLine : Obligations.AsciiRoundHandlesTheNextLine := by
  intro s s2 c e hc hce he hskip hstart hline hbound hempty hhandled
  have hspan := nextSpan_eq_some hc hce he hskip hstart hline hbound
  have hs2 : s2 = { afterLine s c e with nProcTicks := s.nProcTicks + 1 } := by
    by_cases heq : c = e
    · rw [hempty heq]
      simp [afterLine, heq]
    · obtain ⟨i, hdec, hexec⟩ := exists_decode_line (bytes_ne_nil (by omega)) (forall_mem_bytes hline)
      have hnext := hhandled heq i hdec
      rw [hexec] at hnext
      rw [← Host.Outcome.next.inj hnext, afterLine, if_neg heq]
      rfl
  subst hs2
  refine ⟨exec_stepPascii_end hspan, fun hend ys hys => ?_, fun hend ys hys => ?_, fun hend hys => ?_⟩ <;>
    simp [exec_stepPascii_go hspan hend, hys, afterLine]

/-! ## Resuming -/

theorem deliveries_append (es fs : List Event) : deliveries (es ++ fs) = deliveries es ++ deliveries fs := by
  induction es with
  | nil => rfl
  | cons e es ih => cases e <;> simp [deliveries, ih]

theorem true_mem_of_headD {ys : List Bool} (h : ys.headD false = true) : true ∈ ys := by
  cases ys with
  | nil => cases h
  | cons y ys =>
    obtain rfl : y = true := h
    exact List.mem_cons_self

/-- Two states at the same point of one telegram: only the answers of `yield()`, the count of processing ticks and events
that deliver nothing may differ. -/
def SameProgress (s s' : State) : Prop :=
  ∃ ys n tr, s' = { s with yields := ys, nProcTicks := n, trace := tr } ∧ deliveries tr = deliveries s.trace

/-- Two ways to end the processing of one telegram that R217 does not tell apart. -/
def SameEnd (t u : State) : Prop :=
  t.st = .wait ∧ u.st = .wait ∧ deliveries u.trace = deliveries t.trace ∧ u.cur = t.cur

section
variable {s s' : State} (h : SameProgress s s')
include h

/-- What a round reads is the same in both (R217). -/
theorem SameProgress.frame : s'.st = s.st ∧ s'.buf = s.buf ∧ nextSpan s' = nextSpan s := by
  obtain ⟨ys, n, tr, rfl, -⟩ := h
  exact ⟨rfl, rfl, rfl⟩

/-- Both states handle the line in the same way, wherever the round then puts the cursor. -/
theorem SameProgress.round (c e i m n : Nat) (ys zs : List Bool) :
    SameProgress { afterLine s c e with cur := i, nProcTicks := m, yields := ys }
      { afterLine s' c e with cur := i, nProcTicks := n, yields := zs } := by
  obtain ⟨ys', n', tr, rfl, hdel⟩ := h
  refine ⟨zs, n, _, rfl, ?_⟩
  simp only [afterLine, deliveries_append, hdel]
  rfl

theorem SameProgress.changeState_wait : SameEnd (changeState .wait s) (changeState .wait s') := by
  obtain ⟨ys, n, tr, rfl, hdel⟩ := h
  have hsummary : ∀ m k, deliveries (if s.st = .err then [] else [.diag (.summary m k)]) = [] := by
    intro m k
    split <;> rfl
  simp only [changeState_wait]
  refine ⟨rfl, rfl, ?_, rfl⟩
  simp only [deliveries_append, hsummary, hdel]

end

/-- A tick that never yields against a tick from the same point: they end alike, or the second has yielded and stands at a
point from which the first could have been running. -/
theorem exec_stepPascii_of_sameProgress {s s' t : State} (h : SameProgress s s') (hys : s.yields = [])
    (ht : exec .stepPascii s = .next t) :
    ∃ u, exec .stepPascii s' = .next u ∧
      (SameEnd t u ∨
        true ∈ s'.yields ∧ u.st = s.st ∧ ∃ v, SameProgress v u ∧ v.yields = [] ∧ exec .stepPascii v = .next t) := by
  induction hk : s.cfg.bufCap - s.cur using Nat.strong_induction_on generalizing s s' with
  | _ k ih =>
    cases hspan : nextSpan s with
    | none => rw [exec_stepPascii_of_none hspan] at ht; cases ht
    | some p =>
      obtain ⟨c, e⟩ := p
      obtain ⟨hst, hbuf, hspan'⟩ := h.frame
      rw [hspan] at hspan'
      have hat : s'.at e = s.at e := congrArg (Memory.read · e) hbuf
      cases hend : isEndMark (s.at e) with
      | true =>
        rw [exec_stepPascii_end hspan hend, exec_lnEnd] at ht
        obtain rfl := Host.Outcome.next.inj ht
        rw [exec_stepPascii_end hspan' (hat ▸ hend), exec_lnEnd]
        exact ⟨_, rfl, .inl (h.round c e c _ _ s.yields s'.yields).changeState_wait⟩
      | false =>
        obtain ⟨hcur, hcap⟩ := nextSpan_bounds hspan
        rw [exec_stepPascii_go hspan hend, hys, List.headD_nil, if_neg Bool.false_ne_true, List.tail_nil] at ht
        rw [exec_stepPascii_go hspan' (hat ▸ hend)]
        cases hyield : s'.yields.headD false with
        | true =>
          have hstop := h.round c e (e + 1) s.nProcTicks (s'.nProcTicks + 1) [] s'.yields.tail
          exact ⟨_, rfl, .inr ⟨true_mem_of_headD hyield, hst, _, hstop, rfl, ht⟩⟩
        | false =>
          have hrest := h.round c e (e + 1) s.nProcTicks s'.nProcTicks [] s'.yields.tail
          obtain ⟨u, hu, hcase⟩ := ih (s.cfg.bufCap - (e + 1)) (by omega) hrest rfl ht rfl
          exact ⟨u, hu, hcase.imp_right fun ⟨hmem, hst, hv⟩ => ⟨List.mem_of_mem_tail hmem, hst, hv⟩⟩

/-- Settles O42: a stopped tick leaves a point from which the unstopped one could have been running, and the further tick,
which never yields, ends as that one does. -/
theorem asciiProcessingIsResumable : Obligations.AsciiProcessingIsResumable := by
  intro s t u ys _ hst ht hu
  have hstart : SameProgress { s with yields := [] } { s with yields := ys } := ⟨ys, _, _, rfl, rfl⟩
  obtain ⟨u', hu', hcase⟩ := exec_stepPascii_of_sameProgress hstart rfl ht
  obtain rfl : u' = u := Host.Outcome.next.inj (hu'.symm.trans hu)
  obtain ⟨htwait, huwait, hend⟩ | ⟨-, hust, v, hvu, hvys, hv⟩ := hcase
  · exact ⟨htwait, .inl ⟨huwait, hend⟩⟩
  · obtain ⟨zs, n, tr, rfl, hdel⟩ := hvu
    have hagain : SameProgress v { v with yields := [], nProcTicks := n, trace := tr } := ⟨_, _, _, rfl, hdel⟩
    obtain ⟨t', ht', hcase⟩ := exec_stepPascii_of_sameProgress hagain hvys hv
    obtain ⟨htwait, ht'wait, hend⟩ | ⟨hno, -⟩ := hcase
    · exact ⟨htwait, .inr ⟨hust.trans hst, t', ht', ht'wait, hend⟩⟩
    · cases hno

end Sys2Proof
end

section
/-! The elements of the binary format, 44_tlv_parser.md R233 to R244: what each handler does, wherever its bytes lie, and the
values the big-endian bytes denote. -/

namespace Sys2Proof

open Sys2Proof.Machine

/-! ## The operands as numbers -/

/-- A byte behind a word is the word's least significant one (R65). -/
theorem toNat_append_byte {n : Nat} (x : BitVec n) (b : Byte) : (x ++ b).toNat = x.toNat * 256 + b.toNat := by
  rw [BitVec.toNat_append, ← Nat.shiftLeft_add_eq_or_of_lt b.isLt, Nat.shiftLeft_eq]

theorem be16_toNat (b0 b1 : Byte) : (be16 b0 b1).toNat = b0.toNat * 256 + b1.toNat :=
  toNat_append_byte b0 b1

theorem be32_toNat (b0 b1 b2 b3 : Byte) :
    (be32 b0 b1 b2 b3).toNat = b0.toNat * 16777216 + b1.toNat * 65536 + b2.toNat * 256 + b3.toNat := by
  rw [be32, toNat_append_byte, toNat_append_byte, toNat_append_byte]
  omega

theorem u32Value_eq_div (raw : BitVec 32) : u32Value raw = (raw.toNat : Rat) / 1000 := by
  rw [u32Value, Rat.mkRat_eq_div]
  push_cast
  rfl

theorem u16Value_eq_div (raw : BitVec 16) : u16Value raw = (raw.toNat : Rat) / 10 := by
  rw [u16Value, Rat.mkRat_eq_div]
  push_cast
  rfl

theorem s16Value_eq_div (raw : BitVec 16) : s16Value raw = (raw.toInt : Rat) / 10 := by
  rw [s16Value, Rat.mkRat_eq_div]
  rfl

/-- The sign extension of a 16-bit word as a comparison (R243). -/
theorem toInt_eq_ite (raw : BitVec 16) :
    raw.toInt = if raw.toNat < 32768 then (raw.toNat : Int) else (raw.toNat : Int) - 65536 := by
  rw [BitVec.toInt_eq_toNat_cond]
  split_ifs <;> omega

/-- Bytes fit their fields of a packed code, so packing masks nothing of them (R150). -/
theorem obisPack_bytes (a b c : Byte) :
    obisPack a.toNat b.toNat c.toNat = BitVec.ofNat 32 (a.toNat * 65536 + b.toNat * 256 + c.toNat) := by
  apply BitVec.eq_of_toNat_eq
  rw [obisPack_toNat, BitVec.toNat_ofNat]
  omega

/-! ## The handlers -/

theorem bufRead_snd (i : Nat) (s : State) : (bufRead i s).2 = { s with draws := (bufRead i s).2.draws } := by
  rw [bufRead_state]

theorem readBe16_snd (i : Nat) (s : State) : (readBe16 i s).2 = { s with draws := (readBe16 i s).2.draws } := by
  simp only [readBe16, bufRead_state]

theorem readBe32_snd (i : Nat) (s : State) : (readBe32 i s).2 = { s with draws := (readBe32 i s).2.draws } := by
  simp only [readBe32, bufRead_state]

theorem rememberCode_eq (s : State) :
    rememberCode s = { s with curCode := (rememberCode s).curCode, draws := (rememberCode s).draws } := by
  simp only [rememberCode, bufRead_state]

theorem tU32_eq (s : State) :
    tU32 s = { s with
      cur := s.cur + 5, draws := (readBe32 (s.cur + 1) s).2.draws,
      trace := s.trace ++ [dispatchEvent s s.curCode (u32Value (readBe32 (s.cur + 1) s).1)] } := by
  simp only [tU32, advance, dispatch_eq]
  rw [readBe32_snd]
  rfl

theorem tU16_eq (s : State) :
    tU16 s = { s with
      cur := s.cur + 3, draws := (readBe16 (s.cur + 1) s).2.draws,
      trace := s.trace ++ [dispatchEvent s s.curCode (u16Value (readBe16 (s.cur + 1) s).1)] } := by
  simp only [tU16, advance, dispatch_eq]
  rw [readBe16_snd]
  rfl

theorem tS16_eq (s : State) :
    tS16 s = { s with
      cur := s.cur + 3, draws := (readBe16 (s.cur + 1) s).2.draws,
      trace := s.trace ++ [dispatchEvent s s.curCode (s16Value (readBe16 (s.cur + 1) s).1)] } := by
  simp only [tS16, advance, dispatch_eq]
  rw [readBe16_snd]
  rfl

theorem tString_eq (s : State) :
    tString s = { s with
      cur := s.cur + (2 + (bufRead (s.cur + 1) s).1.toNat), draws := (bufRead (s.cur + 1) s).2.draws } := by
  simp only [tString, advance]
  rw [bufRead_snd]

/-- Behind its length byte an octet string of another length is a string (R239, R240). -/
theorem tOctet_of_ne {s : State} (h : (bufRead (s.cur + 1) s).1 ≠ 6#8) : tOctet s = tString s := by
  rw [tOctet, if_neg h, tString]

theorem tOctet_of_eq {s : State} (h : (bufRead (s.cur + 1) s).1 = 6#8) :
    tOctet s = advance 8 (rememberCode (bufRead (s.cur + 1) s).2) := by
  rw [tOctet, if_pos h, h]
  rfl

/-- Settles O43: the handlers read nothing, so each is its one update of the cursor. -/
theorem elementsThatOnlyAdvance : Obligations.ElementsThatOnlyAdvance :=
  fun _ => ⟨rfl, rfl, rfl, rfl, rfl, rfl⟩

theorem exec_tU32 (s : State) : exec .tU32 s = .next (tU32 s) := rfl

theorem exec_tU16 (s : State) : exec .tU16 s = .next (tU16 s) := rfl

theorem exec_tS16 (s : State) : exec .tS16 s = .next (tS16 s) := rfl

theorem exec_tString (s : State) : exec .tString s = .next (tString s) := rfl

theorem exec_tOctet (s : State) : exec .tOctet s = .next (tOctet s) := rfl

theorem rememberCode_of_lt {s : State} (h : s.cur + 6 < s.cfg.bufCap) :
    rememberCode s =
      { s with curCode := obisPack (s.at (s.cur + 4)).toNat (s.at (s.cur + 5)).toNat (s.at (s.cur + 6)).toNat } := by
  simp only [rememberCode, majorOff, minorOff, microOff, bufRead_of_lt (show s.cur + 4 < s.cfg.bufCap by omega),
    bufRead_of_lt (show s.cur + 5 < s.cfg.bufCap by omega), bufRead_of_lt h]

/-- Settles O44: the length byte decides between the skip both elements share and the three bytes of a code. -/
theorem octetAndStringElements : Obligations.OctetAndStringElements := by
  have hskip : ∀ s : State, s.cur + 1 < s.cfg.bufCap →
      tString s = { s with cur := s.cur + 2 + (s.at (s.cur + 1)).toNat } := by
    intro s hcap
    rw [tString_eq, bufRead_of_lt hcap, Nat.add_assoc]
  refine ⟨fun s hcap => ?_, fun s hcap hlen => ?_, fun s hcap hlen => ?_⟩
  · rw [exec_tString, hskip s hcap]
  · have hlen' : (bufRead (s.cur + 1) s).1 ≠ 6#8 := by rwa [bufRead_of_lt hcap]
    rw [exec_tOctet, tOctet_of_ne hlen', hskip s hcap]
  · have hread : bufRead (s.cur + 1) s = (s.at (s.cur + 1), s) := bufRead_of_lt (by omega)
    have hlen' : (bufRead (s.cur + 1) s).1 = 6#8 := by rwa [hread]
    rw [exec_tOctet, tOctet_of_eq hlen', hread, rememberCode_of_lt hcap, obisPack_bytes]
    rfl

/-- Settles O45: the bytes read are the stored ones, and the words they form are divided exactly. -/
theorem valueElementsDispatch : Obligations.ValueElementsDispatch := by
  refine ⟨fun s hcap => ?_, fun s hcap => ?_, fun s raw hcap hraw => ?_⟩
  · rw [exec_tU32, tU32_eq, readBe32_eq (by omega), u32Value_eq_div, be32_toNat]
  · rw [exec_tU16, tU16_eq, readBe16_eq (by omega), u16Value_eq_div, be16_toNat]
  · rw [exec_tS16, tS16_eq, readBe16_eq (by omega), s16Value_eq_div, toInt_eq_ite, be16_toNat, hraw]

/-- Settles O47: the raise writes neither the cursor nor a delivery (R274). -/
theorem unsupportedTagRaises : Obligations.UnsupportedTagRaises :=
  fun tag s => congrArg Host.Outcome.next (takeError_eq (.tag tag s.cur) s)

end Sys2Proof
end

section
/-! The step of the binary parser, 44_tlv_parser.md R230 to R232: the element at the cursor and the location of the first one,
each the same in every tick of a telegram; then the step as one round and the same step again. -/

namespace Sys2Proof

open Sys2Proof.Machine

/-! ## One element -/

/-- What an element that does not raise may write (R230); it moves the cursor forward. -/
def ElementStep (s t : State) : Prop :=
  ∃ cur code draws tr, s.cur < cur ∧ t = { s with cur := cur, curCode := code, draws := draws, trace := tr }

/-- An element changes neither the state of the machine nor `crc_pos`. -/
theorem ElementStep.frame {s t : State} (h : ElementStep s t) :
    s.cur < t.cur ∧ t.crcPos = s.crcPos ∧ t.st = s.st := by
  obtain ⟨cur, code, draws, tr, hcur, rfl⟩ := h
  exact ⟨hcur, rfl, rfl⟩

theorem elementStep_advance {n : Nat} (hn : 0 < n) (s : State) : ElementStep s (advance n s) :=
  ⟨_, _, _, _, Nat.lt_add_of_pos_right hn, rfl⟩

theorem elementStep_tString (s : State) : ElementStep s (tString s) :=
  ⟨_, _, _, _, by omega, tString_eq s⟩

theorem elementStep_tOctet (s : State) : ElementStep s (tOctet s) := by
  by_cases hlen : (bufRead (s.cur + 1) s).1 = 6#8
  · rw [tOctet_of_eq hlen, rememberCode_eq, bufRead_snd]
    exact ⟨_, _, _, _, Nat.lt_add_of_pos_right (by decide : 0 < 8), rfl⟩
  · rw [tOctet_of_ne hlen]
    exact elementStep_tString s

theorem elementStep_tU32 (s : State) : ElementStep s (tU32 s) := ⟨_, _, _, _, by omega, tU32_eq s⟩

theorem elementStep_tU16 (s : State) : ElementStep s (tU16 s) := ⟨_, _, _, _, by omega, tU16_eq s⟩

theorem elementStep_tS16 (s : State) : ElementStep s (tS16 s) := ⟨_, _, _, _, by omega, tS16_eq s⟩

/-- The handler of a tag moves on or raises EC_TAG (R233 to R244). -/
theorem tlvAction_cases (tag : Byte) (s : State) :
    (∃ t, tlvAction tag s = .go t ∧ ElementStep s t) ∨
      tlvAction tag s = .done (.next (takeError (.tag tag s.cur) s)) := by
  unfold tlvAction
  cases tlvTag tag with
  | null => exact .inl ⟨_, rfl, elementStep_advance (by decide) s⟩
  | array => exact .inl ⟨_, rfl, elementStep_advance (by decide) s⟩
  | struct => exact .inl ⟨_, rfl, elementStep_advance (by decide) s⟩
  | u32 => exact .inl ⟨_, rfl, elementStep_tU32 s⟩
  | octet => exact .inl ⟨_, rfl, elementStep_tOctet s⟩
  | string => exact .inl ⟨_, rfl, elementStep_tString s⟩
  | datetime => exact .inl ⟨_, rfl, elementStep_advance (by decide) s⟩
  | scalunit => exact .inl ⟨_, rfl, elementStep_advance (by decide) s⟩
  | u16 => exact .inl ⟨_, rfl, elementStep_tU16 s⟩
  | s16 => exact .inl ⟨_, rfl, elementStep_tS16 s⟩
  | enum => exact .inl ⟨_, rfl, elementStep_advance (by decide) s⟩
  | illegal => exact .inr rfl

/-- The element at the cursor (R230). -/
def elementAtCursor (s : State) : Flow := tlvAction (bufRead s.cur s).1 (bufRead s.cur s).2

theorem elementAtCursor_cases (s : State) :
    (∃ t, elementAtCursor s = .go t ∧ ElementStep s t) ∨
      ∃ c d, elementAtCursor s = .done (.next (takeError c { s with draws := d })) := by
  unfold elementAtCursor
  rw [bufRead_snd]
  obtain ⟨t, ht, cur, code, draws, tr, hcur, rfl⟩ | hraise :=
    tlvAction_cases (bufRead s.cur s).1 { s with draws := (bufRead s.cur s).2.draws }
  · exact .inl ⟨_, ht, cur, code, draws, tr, hcur, rfl⟩
  · exact .inr ⟨_, _, hraise⟩

theorem tlvRound_of_lt {s : State} (h : (s.cur : Int) < s.crcPos) : tlvRound s = elementAtCursor s :=
  if_neg (by simpa [cursorAtEnd] using h)

theorem tlvRound_of_le {s : State} (h : s.crcPos ≤ (s.cur : Int)) :
    tlvRound s = .done (.next (changeState .wait s)) :=
  if_pos (by simpa [cursorAtEnd] using h)

/-- What the location makes of the cursor its scan leaves (R231). -/
def behindScan (s : State) : Flow :=
  if cursorAtEnd s.cur s.crcPos then raiseError .hdrCtrl s else .go (advance hdrSkip s)

theorem locateFirst_eq (s : State) :
    locateFirst s = behindScan (controlScan (s.crcPos - 3).toNat { s with cur := 3 }) := rfl

theorem behindScan_of_le {s : State} (h : s.crcPos ≤ (s.cur : Int)) :
    behindScan s = .done (.next (takeError .hdrCtrl s)) :=
  if_pos (by simpa [cursorAtEnd] using h)

theorem behindScan_of_lt {s : State} (h : (s.cur : Int) < s.crcPos) : behindScan s = .go (advance 6 s) :=
  if_neg (by simpa [cursorAtEnd] using h)

/-! ## The same point of a telegram in another tick -/

/-- A state as another tick finds it: with a count of processing ticks and answers of `yield()` of its own. -/
def inTick (n : Nat) (ys : List Bool) (s : State) : State := { s with nProcTicks := n, yields := ys }

/-- A function of the state applied wherever a flow hands on a state. -/
def mapFlow (f : State → State) : Flow → Flow
  | .go s => .go (f s)
  | .done o => .done (mapNext f o)

section
variable (n : Nat) (ys : List Bool) (s : State)

@[simp] theorem inTick_cur : (inTick n ys s).cur = s.cur := rfl
@[simp] theorem inTick_curCode : (inTick n ys s).curCode = s.curCode := rfl
@[simp] theorem inTick_crcPos : (inTick n ys s).crcPos = s.crcPos := rfl

@[simp] theorem advance_inTick (k : Nat) : advance k (inTick n ys s) = inTick n ys (advance k s) := rfl

@[simp] theorem takeError_inTick (c : Cause) : takeError c (inTick n ys s) = inTick n ys (takeError c s) := by
  rw [takeError_eq, takeError_eq]
  rfl

@[simp] theorem dispatch_inTick (k : Code) (v : Rat) :
    dispatch k v (inTick n ys s) = inTick n ys (dispatch k v s) := by
  rw [dispatch_eq, dispatch_eq]
  rfl

@[simp] theorem bufRead_inTick (i : Nat) :
    bufRead i (inTick n ys s) = ((bufRead i s).1, inTick n ys (bufRead i s).2) := by
  unfold bufRead inTick
  dsimp only
  split <;> rfl

@[simp] theorem readBe16_inTick (i : Nat) :
    readBe16 i (inTick n ys s) = ((readBe16 i s).1, inTick n ys (readBe16 i s).2) := by
  simp [readBe16]

@[simp] theorem readBe32_inTick (i : Nat) :
    readBe32 i (inTick n ys s) = ((readBe32 i s).1, inTick n ys (readBe32 i s).2) := by
  simp [readBe32]

theorem rememberCode_inTick : rememberCode (inTick n ys s) = inTick n ys (rememberCode s) := by
  simp only [rememberCode, inTick_cur, bufRead_inTick]
  rfl

theorem tString_inTick : tString (inTick n ys s) = inTick n ys (tString s) := by
  simp [tString]

theorem tOctet_inTick : tOctet (inTick n ys s) = inTick n ys (tOctet s) := by
  simp only [tOctet, inTick_cur, bufRead_inTick, rememberCode_inTick]
  split <;> rfl

theorem tU32_inTick : tU32 (inTick n ys s) = inTick n ys (tU32 s) := by
  simp [tU32]

theorem tU16_inTick : tU16 (inTick n ys s) = inTick n ys (tU16 s) := by
  simp [tU16]

theorem tS16_inTick : tS16 (inTick n ys s) = inTick n ys (tS16 s) := by
  simp [tS16]

/-- A handler neither counts ticks nor asks `yield()`; the five that only advance are equal by their definitions. -/
theorem tlvAction_inTick (tag : Byte) :
    tlvAction tag (inTick n ys s) = mapFlow (inTick n ys) (tlvAction tag s) := by
  unfold tlvAction
  cases tlvTag tag with
  | octet => exact congrArg Flow.go (tOctet_inTick n ys s)
  | string => exact congrArg Flow.go (tString_inTick n ys s)
  | u32 => exact congrArg Flow.go (tU32_inTick n ys s)
  | u16 => exact congrArg Flow.go (tU16_inTick n ys s)
  | s16 => exact congrArg Flow.go (tS16_inTick n ys s)
  | illegal => simp [tIllegal, raiseError, mapFlow, mapNext]
  | null | array | struct | datetime | scalunit | enum => rfl

theorem elementAtCursor_inTick :
    elementAtCursor (inTick n ys s) = mapFlow (inTick n ys) (elementAtCursor s) := by
  simp [elementAtCursor, tlvAction_inTick]

theorem controlScan_inTick (k : Nat) : controlScan k (inTick n ys s) = inTick n ys (controlScan k s) := by
  induction k generalizing s with
  | zero => rfl
  | succ k ih =>
    simp only [controlScan, inTick_cur, bufRead_inTick, advance_inTick, ih]
    split <;> rfl

theorem behindScan_inTick : behindScan (inTick n ys s) = mapFlow (inTick n ys) (behindScan s) := by
  rcases lt_or_ge (s.cur : Int) s.crcPos with h | h
  · rw [behindScan_of_lt h, behindScan_of_lt (s := inTick n ys s) h]
    rfl
  · rw [behindScan_of_le h, behindScan_of_le (s := inTick n ys s) h, takeError_inTick]
    rfl

theorem locateFirst_inTick : locateFirst (inTick n ys s) = mapFlow (inTick n ys) (locateFirst s) := by
  change behindScan (controlScan (s.crcPos - 3).toNat (inTick n ys { s with cur := 3 })) = _
  rw [controlScan_inTick, behindScan_inTick, locateFirst_eq]

end

/-! ## The rounds of a tick -/

theorem tlvLoop_succ_of_done {s : State} {o : Out} (h : tlvRound s = .done o) (k : Nat) :
    tlvLoop (k + 1) s = .done o := by
  rw [tlvLoop, h, Flow.andThen_done]

/-- What a round that goes on leaves for `yield()` (R198). -/
theorem tlvLoop_succ_of_go {s t : State} (h : tlvRound s = .go t) (k : Nat) :
    tlvLoop (k + 1) s =
      if t.yields.headD false then .done (.next { t with yields := t.yields.tail })
      else tlvLoop k { t with yields := t.yields.tail } := by
  rw [tlvLoop, h, Flow.andThen_go, yieldNow_eq_headD]
  cases t.yields.headD false <;> rfl

/-- A round goes on only over an element that moved the cursor. -/
theorem elementStep_of_tlvRound {s t : State} (h : tlvRound s = .go t) :
    (s.cur : Int) < s.crcPos ∧ ElementStep s t := by
  rcases lt_or_ge (s.cur : Int) s.crcPos with hlt | hle
  · rw [tlvRound_of_lt hlt] at h
    obtain ⟨u, hu, hstep⟩ | ⟨c, d, hraise⟩ := elementAtCursor_cases s
    · cases hu.symm.trans h
      exact ⟨hlt, hstep⟩
    · cases hraise.symm.trans h
  · rw [tlvRound_of_le hle] at h
    cases h

/-- Fuel above the offsets left before `crc_pos` is never used up, so its amount does not matter. -/
theorem tlvLoop_fuel {s : State} {m n : Nat} (hm : (s.crcPos - s.cur).toNat < m) (hn : (s.crcPos - s.cur).toNat < n) :
    tlvLoop m s = tlvLoop n s := by
  induction m generalizing s n with
  | zero => omega
  | succ m ih =>
    obtain ⟨n, rfl⟩ : ∃ k, n = k + 1 := ⟨n - 1, by omega⟩
    cases h : tlvRound s with
    | done o => rw [tlvLoop_succ_of_done h, tlvLoop_succ_of_done h]
    | go t =>
      obtain ⟨hlt, cur, code, draws, tr, hcur, rfl⟩ := elementStep_of_tlvRound h
      rw [tlvLoop_succ_of_go h, tlvLoop_succ_of_go h]
      congr 1
      exact ih (by simp only; omega) (by simp only; omega)

/-! ## The step -/

/-- The rounds of a tick from a cursor that stands at an element, or at or beyond `crc_pos`. -/
def tlvRounds (s : State) : Flow := tlvLoop ((s.crcPos - s.cur).toNat + 1) s

section
variable {s : State} (n : Nat) (ys : List Bool)

theorem exec_stepPbin_inTick :
    exec .stepPbin (inTick n ys s) =
      ((if s.cur = 0 then locateFirst (inTick (n + 1) ys s) else .go (inTick (n + 1) ys s)).andThen tlvRounds).out := by
  change ((if decide (s.cur = 0) = true then locateFirst (inTick (n + 1) ys s)
    else .go (inTick (n + 1) ys s)).andThen tlvRounds).out = _
  simp only [decide_eq_true_eq]

theorem exec_stepPbin_located (h : s.cur ≠ 0) :
    exec .stepPbin (inTick n ys s) = (tlvRounds (inTick (n + 1) ys s)).out := by
  rw [exec_stepPbin_inTick, if_neg h, Flow.andThen_go]

theorem exec_stepPbin_unlocated (h : s.cur = 0) :
    exec .stepPbin (inTick n ys s) = ((mapFlow (inTick (n + 1) ys) (locateFirst s)).andThen tlvRounds).out := by
  rw [exec_stepPbin_inTick, if_pos h, locateFirst_inTick]

/-- The end test comes before the element (R230, R232). -/
theorem exec_stepPbin_end (hcur : s.cur ≠ 0) (hend : s.crcPos ≤ (s.cur : Int)) :
    exec .stepPbin (inTick n ys s) = .next (changeState .wait (inTick (n + 1) ys s)) := by
  have hround : tlvRound (inTick (n + 1) ys s) = .done (.next (changeState .wait (inTick (n + 1) ys s))) :=
    tlvRound_of_le hend
  rw [exec_stepPbin_located n ys hcur, tlvRounds, tlvLoop_succ_of_done hround, Flow.out_done]

theorem tlvRound_inTick (hlt : (s.cur : Int) < s.crcPos) :
    tlvRound (inTick n ys s) = mapFlow (inTick n ys) (elementAtCursor s) := by
  rw [tlvRound_of_lt (s := inTick n ys s) hlt, elementAtCursor_inTick]

theorem exec_stepPbin_raise {t : State} (hcur : s.cur ≠ 0) (hlt : (s.cur : Int) < s.crcPos)
    (h : elementAtCursor s = .done (.next t)) :
    exec .stepPbin (inTick n ys s) = .next (inTick (n + 1) ys t) := by
  have hround := tlvRound_inTick (n + 1) ys hlt
  rw [h] at hround
  rw [exec_stepPbin_located n ys hcur, tlvRounds, tlvLoop_succ_of_done hround]
  rfl

/-- Behind an element the tick ends on a true `yield()`; otherwise the rest of it is the same step again. -/
theorem exec_stepPbin_go {t : State} (hcur : s.cur ≠ 0) (hlt : (s.cur : Int) < s.crcPos)
    (h : elementAtCursor s = .go t) :
    exec .stepPbin (inTick n ys s) =
      if ys.headD false then .next (inTick (n + 1) ys.tail t) else exec .stepPbin (inTick n ys.tail t) := by
  have hround := tlvRound_inTick (n + 1) ys hlt
  rw [h] at hround
  obtain ⟨-, hstep⟩ := elementStep_of_tlvRound ((tlvRound_of_lt hlt).trans h)
  obtain ⟨hmove, hcrc, -⟩ := hstep.frame
  have hcur' : t.cur ≠ 0 := by omega
  have hfuel : (t.crcPos - t.cur).toNat < (s.crcPos - s.cur).toNat := by omega
  rw [exec_stepPbin_located n ys hcur, exec_stepPbin_located n ys.tail hcur', tlvRounds, tlvLoop_succ_of_go hround]
  change Flow.out (if ys.headD false then _ else _) = _
  split
  · rfl
  · exact congrArg Flow.out (tlvLoop_fuel hfuel (Nat.lt_succ_self _))

theorem exec_stepPbin_noHeader {t : State} (hcur : s.cur = 0) (h : locateFirst s = .done (.next t)) :
    exec .stepPbin (inTick n ys s) = .next (inTick (n + 1) ys t) := by
  rw [exec_stepPbin_unlocated n ys hcur, h]
  rfl

/-- Behind the header the rest of the tick is the same step again. -/
theorem exec_stepPbin_locate {t : State} (hcur : s.cur = 0) (h : locateFirst s = .go t) (hcur' : t.cur ≠ 0) :
    exec .stepPbin (inTick n ys s) = exec .stepPbin (inTick n ys t) := by
  rw [exec_stepPbin_unlocated n ys hcur, exec_stepPbin_located n ys hcur', h]
  rfl

end

/-! ## Locating the first element -/

section
variable {s : State} {p : Nat} (hp : s.crcPos = (p : Int)) (hcap : p ≤ s.cfg.bufCap)
include hp hcap

theorem locateFirst_of_none (hno : ∀ a, 3 ≤ a → a < p → s.at a ≠ 0x13#8) :
    locateFirst s = .done (.next (takeError .hdrCtrl { s with cur := max 3 p })) := by
  have hfuel : (s.crcPos - 3).toNat = p - 3 := by omega
  have hscan : controlScan (p - 3) { s with cur := 3 } = { s with cur := max 3 p } := by
    rcases Nat.le_total p 3 with h | h
    · rw [Nat.sub_eq_zero_of_le h, Nat.max_eq_left h]
      rfl
    · rw [Nat.max_eq_right h, controlScan_none (s := { s with cur := 3 }) (by simp only; omega)
        fun a ha hlt => hno a ha (by simp only at hlt; omega)]
      simp only [Nat.add_sub_cancel' h]
  rw [locateFirst_eq, hfuel, hscan, behindScan_of_le (by simp only; omega)]

theorem locateFirst_of_first {c : Nat} (h3 : 3 ≤ c) (hcp : c < p) (hc : s.at c = 0x13#8)
    (hno : ∀ a, 3 ≤ a → a < c → s.at a ≠ 0x13#8) : locateFirst s = .go { s with cur := c + 6 } := by
  have hscan : controlScan (s.crcPos - 3).toNat { s with cur := 3 } = { s with cur := c } :=
    controlScan_found h3 (by simp only; omega) (by simp only; omega) hno hc
  rw [locateFirst_eq, hscan, behindScan_of_lt (by simp only; omega)]
  rfl

end

/-- Settles O48: the scan stops at the first control byte or at the end, and behind a header the step goes on from the cursor
it gives, where the end test comes first. -/
theorem headerLocation : Obligations.HeaderLocation := by
  intro s p hst hcur hp hcap
  refine ⟨fun hno => ?_, fun c h3 hcp hc hno => ?_⟩
  · have hnone := exec_stepPbin_noHeader s.nProcTicks s.yields hcur (locateFirst_of_none hp hcap hno)
    rw [takeError_eq] at hnone
    exact hnone
  · have hfirst : exec .stepPbin s = exec .stepPbin { s with cur := c + 6 } :=
      exec_stepPbin_locate s.nProcTicks s.yields hcur (locateFirst_of_first hp hcap h3 hcp hc hno) (Nat.succ_ne_zero _)
    refine ⟨fun hfull => ?_, fun _ => hfirst⟩
    have hend := exec_stepPbin_end (s := { s with cur := c + 6 }) s.nProcTicks s.yields (Nat.succ_ne_zero _)
      (by simp only; omega)
    rw [changeState_wait] at hend
    rw [hfirst]
    refine hend.trans ?_
    simp [inTick, hst]

end Sys2Proof
end

section
/-! The comparison of binary processing ticks that differ in where they stop, 44_tlv_parser.md R248. -/

namespace Sys2Proof

open Sys2Proof.Machine

/-! ## Where a tick from one point can end -/

theorem controlScan_eq (k : Nat) (s : State) :
    ∃ c d, controlScan k s = { s with cur := c, draws := d } := by
  induction k generalizing s with
  | zero => exact ⟨_, _, rfl⟩
  | succ k ih =>
    simp only [controlScan]
    rw [bufRead_snd]
    split
    · exact ⟨_, _, rfl⟩
    · exact ih _

/-- The location puts the cursor behind the header, off 0, or raises EC_HDR_CTRL (R231). -/
theorem locateFirst_cases (s : State) :
    (∃ t, locateFirst s = .go t ∧ t.cur ≠ 0 ∧ t.st = s.st) ∨
      ∃ t, locateFirst s = .done (.next (takeError .hdrCtrl t)) := by
  obtain ⟨c, d, hscan⟩ := controlScan_eq (s.crcPos - 3).toNat { s with cur := 3 }
  rw [locateFirst_eq, hscan]
  rcases lt_or_ge (c : Int) s.crcPos with hlt | hend
  · exact .inl ⟨_, behindScan_of_lt hlt, Nat.succ_ne_zero _, rfl⟩
  · exact .inr ⟨_, behindScan_of_le hend⟩

/-- Two ways to end the processing of one binary telegram that R248 does not tell apart. -/
def EndsAlike (t u : State) : Prop :=
  t.st ≠ .pbin ∧ u.st = t.st ∧ deliveries u.trace = deliveries t.trace ∧ u.curCode = t.curCode ∧ u.cur = t.cur

theorem endsAlike_wait (m n : Nat) (ys zs : List Bool) (s : State) :
    EndsAlike (changeState .wait (inTick m ys s)) (changeState .wait (inTick n zs s)) := by
  have hsummary : ∀ i k, deliveries (if s.st = .err then [] else [.diag (.summary i k)]) = [] := by
    intro i k
    split <;> rfl
  simp only [changeState_wait, inTick]
  refine ⟨nofun, rfl, ?_, rfl, rfl⟩
  simp only [deliveries_append, hsummary]

theorem endsAlike_takeError (m n : Nat) (ys zs : List Bool) (c : Cause) (s : State) :
    EndsAlike (inTick m ys (takeError c s)) (inTick n zs (takeError c s)) :=
  ⟨by simp [inTick], rfl, rfl, rfl, rfl⟩

/-- How a tick compares with `t`, where a tick ends that began at the same point as its `m`-th and never yields: it ends alike,
or it has yielded and the unstopped tick could have been running from where it stopped. -/
def StopsOrEnds (m : Nat) (ys : List Bool) (t u : State) : Prop :=
  EndsAlike t u ∨ true ∈ ys ∧ u.st = .pbin ∧ u.cur ≠ 0 ∧ exec .stepPbin (inTick m [] u) = .next t

theorem exec_stepPbin_stopsOrEnds_of_located {s t : State} {m : Nat} (hst : s.st = .pbin) (hcur : s.cur ≠ 0)
    (ht : exec .stepPbin (inTick m [] s) = .next t) (n : Nat) (ys : List Bool) :
    ∃ u, exec .stepPbin (inTick n ys s) = .next u ∧ StopsOrEnds m ys t u := by
  induction hk : (s.crcPos - s.cur).toNat using Nat.strong_induction_on generalizing s ys with
  | _ k ih =>
    rcases lt_or_ge (s.cur : Int) s.crcPos with hlt | hend
    · obtain ⟨v, hv, hstep⟩ | ⟨c, d, hraise⟩ := elementAtCursor_cases s
      · rw [exec_stepPbin_go m [] hcur hlt hv, List.headD_nil, if_neg Bool.false_ne_true, List.tail_nil] at ht
        rw [exec_stepPbin_go n ys hcur hlt hv]
        obtain ⟨hmove, hcrc, hvst⟩ := hstep.frame
        have hcur' : v.cur ≠ 0 := by omega
        cases hyield : ys.headD false with
        | true => exact ⟨_, rfl, .inr ⟨true_mem_of_headD hyield, hvst.trans hst, hcur', ht⟩⟩
        | false =>
          obtain ⟨u, hu, hcase⟩ := ih _ (by omega) (hvst.trans hst) hcur' ht ys.tail rfl
          exact ⟨u, hu, hcase.imp_right fun ⟨hmem, hrest⟩ => ⟨List.mem_of_mem_tail hmem, hrest⟩⟩
      · rw [exec_stepPbin_raise m [] hcur hlt hraise] at ht
        obtain rfl := Host.Outcome.next.inj ht
        exact ⟨_, exec_stepPbin_raise n ys hcur hlt hraise, .inl (endsAlike_takeError _ _ _ _ _ _)⟩
    · rw [exec_stepPbin_end m [] hcur hend] at ht
      obtain rfl := Host.Outcome.next.inj ht
      exact ⟨_, exec_stepPbin_end n ys hcur hend, .inl (endsAlike_wait _ _ _ _ _)⟩

/-- From a header not yet located the two ticks locate it alike, before either can yield. -/
theorem exec_stepPbin_stopsOrEnds {s t : State} {m : Nat} (hst : s.st = .pbin)
    (ht : exec .stepPbin (inTick m [] s) = .next t) (n : Nat) (ys : List Bool) :
    ∃ u, exec .stepPbin (inTick n ys s) = .next u ∧ StopsOrEnds m ys t u := by
  by_cases hcur : s.cur = 0
  · obtain ⟨v, hgo, hcur', hvst⟩ | ⟨v, hraise⟩ := locateFirst_cases s
    · rw [exec_stepPbin_locate m [] hcur hgo hcur'] at ht
      rw [exec_stepPbin_locate n ys hcur hgo hcur']
      exact exec_stepPbin_stopsOrEnds_of_located (hvst.trans hst) hcur' ht n ys
    · rw [exec_stepPbin_noHeader m [] hcur hraise] at ht
      obtain rfl := Host.Outcome.next.inj ht
      exact ⟨_, exec_stepPbin_noHeader n ys hcur hraise, .inl (endsAlike_takeError _ _ _ _ _ _)⟩
  · exact exec_stepPbin_stopsOrEnds_of_located hst hcur ht n ys

/-- Settles O50: a stopped tick leaves a point from which the unstopped one could have been running, and the further tick,
which never yields, ends as that one does. -/
theorem binaryProcessingIsResumable : Obligations.BinaryProcessingIsResumable := by
  intro s t u ys _ hst ht hu
  obtain ⟨u', hu', hcase⟩ := exec_stepPbin_stopsOrEnds (m := s.nProcTicks) hst ht s.nProcTicks ys
  obtain rfl : u' = u := Host.Outcome.next.inj (hu'.symm.trans hu)
  obtain ⟨hleft, hend⟩ | ⟨-, hust, -, hrest⟩ := hcase
  · exact ⟨hleft, .inl hend⟩
  · obtain ⟨t', ht', hcase⟩ := exec_stepPbin_stopsOrEnds hust hrest u'.nProcTicks []
    obtain ⟨hleft, hend⟩ | ⟨hno, -⟩ := hcase
    · exact ⟨hleft, .inr ⟨hust, t', ht', hend⟩⟩
    · cases hno

end Sys2Proof
end

section
/-! Taking an error, 60_exceptions.md R274. -/

namespace Sys2Proof

open Sys2Proof.Machine

/-- `raise` answers the state `takeError` makes, and goes on with nothing (R9). -/
theorem raiseError_eq_done (c : Cause) (s : State) : raiseError c s = .done (.next (takeError c s)) := rfl

/-- Settles O23: the tick ends in the state of the error taken, which writes `st`, `t_err` and the trace alone. -/
theorem raiseSavesNothing : Obligations.RaiseSavesNothing := by
  intro c s
  rw [raiseError_eq_done, takeError_eq]

end Sys2Proof
end

section
/-! The reset column, 70_reset_and_hazards.md R300. -/

namespace Sys2Proof

open Sys2Proof.Machine

/-- The three registers of the reset column that hold a code: ERROR_RECOVERY, no format, `OBIS_INVALID` (R40). -/
theorem resetWith_codes (t0 tIdent tRead : Time) (buf : List Host.Cell) (s : State) :
    (s.resetWith t0 tIdent tRead buf).st.code = 6#3 ∧
    (s.resetWith t0 tIdent tRead buf).fmt.code = 0#2 ∧
    (s.resetWith t0 tIdent tRead buf).curCode = 0xFFFFFFFF#32 :=
  ⟨rfl, rfl, rfl⟩

/-- Reset writes neither the configuration nor the registry (R34, R35), and emits nothing. -/
theorem resetWith_frame (t0 tIdent tRead : Time) (buf : List Host.Cell) (s : State) :
    (s.resetWith t0 tIdent tRead buf).cfg = s.cfg ∧
    (s.resetWith t0 tIdent tRead buf).registry = s.registry ∧
    (s.resetWith t0 tIdent tRead buf).trace = s.trace :=
  ⟨rfl, rfl, rfl⟩

/-- Settles O1: besides the codes and the frame, each register is the constant or the draw that reset writes to it. -/
theorem resetLoadsTheResetColumn : Obligations.ResetLoadsTheResetColumn := by
  intro t0 tIdent tRead buf s
  obtain ⟨hst, hfmt, hcode⟩ := resetWith_codes t0 tIdent tRead buf s
  have hframe := resetWith_frame t0 tIdent tRead buf s
  exact ⟨hst, hfmt, rfl, rfl, rfl, hcode, rfl, rfl, rfl, rfl, rfl, rfl, rfl, rfl, rfl, hframe⟩

end Sys2Proof
end

section
/-! The encoder, 30_encoding.md R90 to R106: the texts it writes for DEC and FLOAT denote their numbers, so every encoding decodes
to its instruction. -/

namespace Sys2Proof

open Sys2Proof.Machine

/-! ## Decimal texts -/

/-- The byte the encoder writes for a digit below ten. -/
theorem digit_of_lt_ten {k : Nat} (hk : k < 10) :
    isDigit (BitVec.ofNat 8 (0x30 + k)) = true ∧ decimalNat [BitVec.ofNat 8 (0x30 + k)] = k := by
  have hbyte : (BitVec.ofNat 8 (0x30 + k)).toNat = 0x30 + k := by
    rw [BitVec.toNat_ofNat]
    omega
  constructor
  · simp only [isDigit, hbyte, Bool.and_eq_true, decide_eq_true_eq]
    omega
  · simp [decimalNat, hbyte]

/-- The digits written in front of `acc` denote the number; the fuel exceeds it. -/
theorem decDigitsAux_eq {fuel n : Nat} (h : n < fuel) (acc : List Byte) :
    ∃ ds, decDigitsAux fuel n acc = ds ++ acc ∧ isDec ds ∧ decimalNat ds = n := by
  induction fuel generalizing n acc with
  | zero => omega
  | succ fuel ih =>
    obtain ⟨hdigit, hvalue⟩ := digit_of_lt_ten (Nat.mod_lt n (by decide : 0 < 10))
    rw [decDigitsAux]
    split
    · next hsmall => exact ⟨_, rfl, ⟨by simp, by simpa using hdigit⟩, hvalue.trans (by omega)⟩
    · next hlarge =>
      obtain ⟨ds, htext, ⟨hne, hds⟩, hnum⟩ := ih (n := n / 10) (by omega) (BitVec.ofNat 8 (0x30 + n % 10) :: acc)
      refine ⟨ds ++ [BitVec.ofNat 8 (0x30 + n % 10)], by rw [htext, List.append_assoc, List.singleton_append],
        ⟨by simp, ?_⟩, ?_⟩
      · exact List.forall_mem_append.mpr ⟨hds, by simpa using hdigit⟩
      · rw [decimalNat_append, hnum, hvalue, List.length_singleton]
        omega

/-- R100: the encoder's DEC is one, and it denotes `n`. -/
theorem decDigits_denotes (n : Nat) : isDec (decDigits n) ∧ decimalNat (decDigits n) = n := by
  obtain ⟨ds, htext, hdec, hnum⟩ := decDigitsAux_eq (Nat.lt_succ_self n) []
  rw [List.append_nil] at htext
  rw [decDigits, htext]
  exact ⟨hdec, hnum⟩

theorem decimalNat_zeros (k : Nat) : decimalNat (List.replicate k 0x30#8) = 0 := by
  induction k with
  | zero => rfl
  | succ k ih =>
    rw [List.replicate_succ', decimalNat_append, ih]
    rfl

/-- Leading zeros change no value. -/
theorem paddedDigits_denotes (k n : Nat) :
    (∀ d ∈ paddedDigits k n, isDigit d = true) ∧ decimalNat (paddedDigits k n) = n ∧ k ≤ (paddedDigits k n).length := by
  obtain ⟨⟨-, hds⟩, hnum⟩ := decDigits_denotes n
  refine ⟨List.forall_mem_append.mpr ⟨fun d hd => ?_, hds⟩, ?_, ?_⟩
  · rw [List.eq_of_mem_replicate hd]
    rfl
  · rw [paddedDigits, decimalNat_append, decimalNat_zeros, hnum, Nat.zero_mul, Nat.zero_add]
  · rw [paddedDigits, List.length_append, List.length_replicate]
    omega

/-- The encoder's FLOAT: a sign, at least one digit before the point, and `scale` digits behind it (R102). -/
theorem floatText_eq (v : Decimal) :
    ∃ int frac, isDec int ∧ (∀ d ∈ frac, isDigit d = true) ∧ frac.length = v.scale ∧
      decimalNat (int ++ frac) = v.mant.natAbs ∧
      floatText v = (if v.mant < 0 then [0x2D#8] else []) ++ int ++ (if v.scale = 0 then [] else 0x2E#8 :: frac) := by
  obtain ⟨hdigits, hnum, hlen⟩ := paddedDigits_denotes (v.scale + 1) v.mant.natAbs
  refine ⟨_, _, ⟨?_, fun d hd => hdigits d (List.mem_of_mem_take hd)⟩, fun d hd => hdigits d (List.mem_of_mem_drop hd),
    ?_, ?_, rfl⟩
  · rw [Ne, List.take_eq_nil_iff, ← List.length_eq_zero_iff]
    omega
  · rw [List.length_drop]
    omega
  · rw [List.take_append_drop, hnum]

/-- Reading the encoder's FLOAT gives the decimal back and takes the whole text. -/
theorem parseFloat_floatText (v : Decimal) : parseFloat (floatText v) = some (v, []) := by
  obtain ⟨int, frac, hint, hfrac, hlen, hnum, htext⟩ := floatText_eq v
  obtain ⟨d, ds, rfl⟩ := List.exists_cons_of_ne_nil hint.1
  have hnosign := not_sign_of_isDigit (hint.2 d List.mem_cons_self)
  have hdecimal : decimalOf (decide (v.mant < 0)) (d :: ds) frac = v := by
    simp only [decimalOf, digitsValue_eq_decimalNat, hnum, hlen, decide_eq_true_eq]
    have hmant : (if v.mant < 0 then -(v.mant.natAbs : Int) else v.mant.natAbs) = v.mant := by
      split <;> omega
    rw [hmant]
  have hsign : ∀ l, parseSign ((if v.mant < 0 then [0x2D#8] else []) ++ (d :: ds) ++ l) =
      (decide (v.mant < 0), (d :: ds) ++ l) := by
    intro l
    by_cases hneg : v.mant < 0
    · simp [hneg, parseSign]
    · simp [hneg, parseSign, hnosign]
  rw [htext]
  by_cases hscale : v.scale = 0
  · obtain rfl := List.length_eq_zero_iff.mp (hlen.trans hscale)
    rw [if_pos hscale, parseFloat_of_no_point (hsign []) hint (by simp), hdecimal]
  · have hpoint : parseSign _ = (_, (d :: ds) ++ 0x2E#8 :: (frac ++ [])) :=
      (hsign (0x2E#8 :: frac)).trans (by rw [List.append_nil])
    rw [if_neg hscale, parseFloat_of_point hpoint hint.2 hfrac (.inl hint.1) (by simp), hdecimal]

/-! ## Measurement lines -/

theorem not_boundary_of_isDigit {b : Byte} (h : isDigit b = true) : isBoundary b = false := by
  simp only [isDigit, Bool.and_eq_true, decide_eq_true_eq] at h
  simp only [isBoundary, isTerminator, isEndMark, Bool.or_eq_false_iff, beq_eq_false_iff_ne]
  refine ⟨⟨?_, ?_⟩, ?_, ?_⟩ <;> rintro rfl <;> exact absurd h (by decide)

/-- No byte of the encoder's line ends a span (R104). -/
theorem not_boundary_of_mem_measText (a b c : Nat) (v : Decimal) :
    ∀ x ∈ measText a b c v, isBoundary x = false := by
  have hdec : ∀ n, ∀ x ∈ decDigits n, isBoundary x = false := fun n x hx =>
    not_boundary_of_isDigit ((decDigits_denotes n).1.2 x hx)
  have hfloat : ∀ x ∈ floatText v, isBoundary x = false := by
    obtain ⟨int, frac, hint, hfrac, -, -, htext⟩ := floatText_eq v
    have hsign : ∀ x ∈ (if v.mant < 0 then [0x2D#8] else []), isBoundary x = false := by split <;> decide
    have htail : ∀ x ∈ (if v.scale = 0 then [] else 0x2E#8 :: frac), isBoundary x = false := by
      split
      · simp
      · exact List.forall_mem_cons.mpr ⟨rfl, fun x hx => not_boundary_of_isDigit (hfrac x hx)⟩
    rw [htext]
    simp only [List.forall_mem_append]
    exact ⟨⟨hsign, fun x hx => not_boundary_of_isDigit (hint.2 x hx)⟩, htail⟩
  have hpoint : ∀ x ∈ [0x2E#8], isBoundary x = false := by decide
  have hbracket : ∀ x ∈ [0x28#8], isBoundary x = false := by decide
  have hprefix : ∀ x ∈ measPrefix, isBoundary x = false := by decide
  simp only [measText, List.forall_mem_append]
  exact ⟨⟨⟨⟨⟨⟨⟨hprefix, hdec a⟩, hpoint⟩, hdec b⟩, hpoint⟩, hdec c⟩, hbracket⟩, hfloat⟩

/-- R101: the encoder's line is a measurement line with the instruction's four values. -/
theorem parseMeas_measText (a b c : Nat) (v : Decimal) : parseMeas (measText a b c v) = some (a, b, c, v) := by
  obtain ⟨ha, hna⟩ := decDigits_denotes a
  obtain ⟨hb, hnb⟩ := decDigits_denotes b
  obtain ⟨hc, hnc⟩ := decDigits_denotes c
  exact parseMeas_eq_some.mpr ⟨_, _, _, floatText v, [], ha, hb, hc, by simp [measText], hna.symm, hnb.symm, hnc.symm,
    parseFloat_floatText v⟩

theorem decode_ln {line : List Byte} (hne : line ≠ []) (hline : ∀ b ∈ line, isBoundary b = false) :
    decode (.ln line) =
      .ok ((parseMeas line).elim (.lnOther line) fun m => .lnMeas m.1 m.2.1 m.2.2.1 m.2.2.2) := by
  have hany : line.any isBoundary = false := List.any_eq_false.mpr fun b hb => by simp [hline b hb]
  simp only [decode, decodeLine, List.isEmpty_iff, hne, hany, Bool.false_eq_true, if_false]
  cases parseMeas line <;> rfl

/-! ## Every instruction -/

/-- Settles O5: fixed words decode by the tables; the operand of a default row is well formed when no other row takes it, and a
measurement line is written as text and read back. -/
theorem decodeOfEncodeIsTheInstruction : Obligations.DecodeOfEncodeIsTheInstruction := by
  intro i hwf
  cases i with
  | lbIllegal b =>
    have hclass : leadClass b = .illegal := of_decide_eq_true hwf
    simp only [encode, decode, decodeLead, hclass]
  | tIllegal tag =>
    have hclass : tlvTag tag = .illegal := of_decide_eq_true hwf
    simp only [encode, decode, decodeTlv, hclass]
  | lnMeas a b c v =>
    have hne : measText a b c v ≠ [] := by simp [measText, measPrefix]
    rw [encode, decode_ln hne (not_boundary_of_mem_measText a b c v), parseMeas_measText, Option.elim_some]
  | lnOther line =>
    simp only [wellFormed, wfOther, Bool.and_eq_true, Bool.not_eq_true', List.isEmpty_eq_false_iff, List.any_eq_false,
      Bool.not_eq_true, Option.isNone_iff_eq_none] at hwf
    obtain ⟨⟨hne, hline⟩, hnone⟩ := hwf
    rw [encode, decode_ln hne hline, hnone, Option.elim_none]
  | lnEnd mark =>
    have hmark : isEndMark mark = true := hwf
    simp only [encode, decode, hmark, if_true]
  | _ => rfl

end Sys2Proof
end

section
/-! Reads at and beyond the capacity, 20_memory.md R62 and 44_tlv_parser.md R247: every operation that reads the buffer is a
function of the bytes `bufRead` gives, and of the state it leaves only the count of draws is new. -/

namespace Sys2Proof

open Sys2Proof.Machine

/-! ## Reading one byte after another -/

theorem bufRead_eq {i : Nat} {s s1 : State} {b : Byte} (h : bufRead i s = (b, s1)) :
    s1 = { s with draws := s1.draws } := by
  have hstate := bufRead_snd i s
  rwa [h] at hstate

theorem bufReads_snd (n i : Nat) (s : State) : (bufReads n i s).2 = { s with draws := (bufReads n i s).2.draws } := by
  obtain ⟨d, h⟩ := bufReads_state n i s
  rw [h]

theorem bufReads_succ {n i : Nat} {s s1 s2 : State} {b : Byte} {bs : List Byte} (h1 : bufRead i s = (b, s1))
    (h2 : bufReads n (i + 1) s1 = (bs, s2)) : bufReads (n + 1) i s = (b :: bs, s2) := by
  simp only [bufReads, h1, h2]

/-- One draw for each offset of the range that is at or beyond the capacity (log entry 7). -/
theorem bufReads_draws (n i : Nat) (s : State) :
    (bufReads n i s).2.draws = s.draws + (i + n - max i s.cfg.bufCap) := by
  induction n generalizing i s with
  | zero => simp [bufReads]
  | succ n ih =>
    simp only [bufReads, ih, bufRead_state]
    split <;> omega

/-! ## The value elements -/

theorem readBe16_of_bufRead {i : Nat} {s s1 s2 : State} {b1 b2 : Byte} (h1 : bufRead i s = (b1, s1))
    (h2 : bufRead (i + 1) s1 = (b2, s2)) : readBe16 i s = (be16 b1 b2, s2) := by
  simp only [readBe16, h1, h2]

theorem readBe32_of_bufRead {i : Nat} {s s1 s2 s3 s4 : State} {b1 b2 b3 b4 : Byte} (h1 : bufRead i s = (b1, s1))
    (h2 : bufRead (i + 1) s1 = (b2, s2)) (h3 : bufRead (i + 2) s2 = (b3, s3)) (h4 : bufRead (i + 3) s3 = (b4, s4)) :
    readBe32 i s = (be32 b1 b2 b3 b4, s4) := by
  simp only [readBe32, h1, h2, h3, h4]

/-- A length-6 octet string gives the current code of the three bytes read (R239). -/
theorem rememberCode_of_bufRead {s s1 s2 s3 : State} {a b c : Byte} (ha : bufRead (s.cur + 4) s = (a, s1))
    (hb : bufRead (s.cur + 5) s1 = (b, s2)) (hc : bufRead (s.cur + 6) s2 = (c, s3)) :
    rememberCode s = { s3 with curCode := BitVec.ofNat 32 (a.toNat * 65536 + b.toNat * 256 + c.toNat) } := by
  simp only [rememberCode, majorOff, minorOff, microOff, ha, hb, hc, obisPack_bytes]

/-! ## The header check -/

theorem rbHdr_of_bufRead {s s1 s2 : State} {b1 b2 : Byte} (h1 : bufRead 1 s = (b1, s1)) (h2 : bufRead 2 s1 = (b2, s2))
    (htype : b1.toNat / 32 = 5) : rbHdr s = .go { s2 with crcPos := (len13 b1 b2 : Int) - 1 } := by
  simp [rbHdr, h1, h2, (frameType_eq_five_iff b1).mpr htype]

theorem rbHdr_of_bufRead_ne {s s1 : State} {b1 : Byte} (h1 : bufRead 1 s = (b1, s1)) (htype : b1.toNat / 32 ≠ 5) :
    rbHdr s = .done (.next (takeError (.hdrFormat b1) s1)) := by
  have hne : frameType b1 ≠ 0b101#3 := fun h => htype ((frameType_eq_five_iff b1).mp h)
  simp only [rbHdr, h1, if_pos hne, raiseError]

/-! ## The checksum ranges -/

/-- The accumulators are not looked at by a read. -/
theorem bufRead_acc (i : Nat) (s : State) (a x : Option Crc) :
    bufRead i { s with crcA := a, crcX := x } = ((bufRead i s).1, { (bufRead i s).2 with crcA := a, crcX := x }) := by
  unfold bufRead
  dsimp only
  split <;> rfl

theorem crcaLoop_acc (n i : Nat) (s : State) (c : Crc) (x : Option Crc) :
    crcaLoop n i { s with crcA := some c, crcX := x } =
      { (bufReads n i s).2 with crcA := some ((bufReads n i s).1.foldl crcaUpd c), crcX := x } := by
  induction n generalizing i s c with
  | zero => rfl
  | succ n ih =>
    simp only [crcaLoop, bufRead_acc, Option.map_some]
    exact ih (i + 1) (bufRead i s).2 (crcaUpd c (bufRead i s).1)

theorem crcxLoop_acc (n i : Nat) (s : State) (c : Crc) (a : Option Crc) :
    crcxLoop n i { s with crcX := some c, crcA := a } =
      { (bufReads n i s).2 with crcX := some ((bufReads n i s).1.foldl crcxUpd c), crcA := a } := by
  induction n generalizing i s c with
  | zero => rfl
  | succ n ih =>
    simp only [crcxLoop, bufRead_acc, Option.map_some]
    exact ih (i + 1) (bufRead i s).2 (crcxUpd c (bufRead i s).1)

/-- `CRCA.RNG` of any range is the checksum of the bytes read one by one (R131, log entry 24). -/
theorem crcaRange_eq_bufReads (lo hi : Nat) (s : State) :
    crcaRange lo hi s =
      (crcaBytes (bufReads (hi - lo) lo s).1, { s with crcA := none, draws := (bufReads (hi - lo) lo s).2.draws }) := by
  have hloop := crcaLoop_acc (hi - lo) lo s 0x0000#16 s.crcX
  have hstate := bufReads_snd (hi - lo) lo s
  generalize bufReads (hi - lo) lo s = r at hloop hstate ⊢
  obtain ⟨bs, t⟩ := r
  rw [crcaRange, hloop]
  dsimp only at hstate ⊢
  rw [hstate]
  rfl

/-- `CRCX.RNG` likewise (R133). -/
theorem crcxRange_eq_bufReads (lo hi : Nat) (s : State) :
    crcxRange lo hi s =
      (crcxBytes (bufReads (hi - lo) lo s).1, { s with crcX := none, draws := (bufReads (hi - lo) lo s).2.draws }) := by
  have hloop := crcxLoop_acc (hi - lo) lo s 0xFFFF#16 s.crcA
  have hstate := bufReads_snd (hi - lo) lo s
  generalize bufReads (hi - lo) lo s = r at hloop hstate ⊢
  obtain ⟨bs, t⟩ := r
  rw [crcxRange, hloop]
  dsimp only at hstate ⊢
  rw [hstate]
  rfl

/-- Settles O46: each operation by its rule on the bytes read; a read leaves the state but for the draws it counts. -/
theorem readsBeyondTheBufferComplete : Obligations.ReadsBeyondTheBufferComplete := by
  refine ⟨fun i s => bufRead_of_ge, fun s s1 s2 s3 s4 b1 b2 b3 b4 h1 h2 h3 h4 => ?_,
    fun s s1 s2 b1 b2 h1 h2 => ⟨?_, ?_⟩, fun s s1 len hlen => ⟨?_, fun hne => ?_, fun h6 s2 s3 s4 a b c ha hb hc => ?_⟩,
    fun s s1 b b1 h1 => ⟨fun htype => ?_, fun htype s2 b2 h2 => ?_⟩, fun i s => rfl,
    fun n i s s1 s2 b bs h1 h2 => bufReads_succ h1 h2, fun lo hi s s1 bs h => ⟨?_, ?_, ?_⟩⟩
  · rw [exec_tU32, tU32_eq, readBe32_of_bufRead h1 h2 h3 h4, u32Value_eq_div, be32_toNat]
  · rw [exec_tU16, tU16_eq, readBe16_of_bufRead h1 h2, u16Value_eq_div, be16_toNat]
  · rw [exec_tS16, tS16_eq, readBe16_of_bufRead h1 h2, s16Value_eq_div, be16]
  · rw [exec_tString, tString_eq, hlen, Nat.add_assoc]
  · rw [exec_tOctet, tOctet_of_ne (by rwa [hlen]), tString_eq, hlen, Nat.add_assoc]
  · have hs1 := bufRead_eq hlen
    have hcur : s1.cur = s.cur := by rw [hs1]
    have hcode := rememberCode_of_bufRead (hcur ▸ ha) (hcur ▸ hb) (hcur ▸ hc)
    rw [exec_tOctet, tOctet_of_eq (by rwa [hlen]), hlen, hcode, bufRead_eq hc, bufRead_eq hb, bufRead_eq ha, hs1]
    rfl
  · rw [exec_rbHdr, rbHdr_of_bufRead_ne h1 htype, Flow.out_done, takeError_eq, bufRead_eq h1]
  · rw [exec_rbHdr, rbHdr_of_bufRead h1 h2 htype, Flow.out_go, bufRead_eq h2, bufRead_eq h1, len13]
  · have hdraws := bufReads_draws (hi - lo) lo s
    rw [h] at hdraws
    rw [hdraws]
    omega
  · have hrange := crcaRange_eq_bufReads lo hi s
    rw [h] at hrange
    exact exec_crcaRng_of_range hrange
  · have hrange := crcxRange_eq_bufReads lo hi s
    rw [h] at hrange
    exact exec_crcxRng_of_range hrange

end Sys2Proof
end

section
/-! ERROR_RECOVERY, 42_frame_fsm.md R192: one discard, the loop as discards in a row, and what the step makes of them. -/

namespace Sys2Proof

open Sys2Proof.Machine

/-! ## What a trace tells its listeners -/

theorem notifications_append (es fs : List Event) : notifications (es ++ fs) = notifications es ++ notifications fs := by
  induction es with
  | nil => rfl
  | cons e es ih => cases e <;> simp [notifications, ih]

/-- Between the two traces nothing was notified and nothing delivered. -/
def SameNews (tr tr' : List Event) : Prop := notifications tr' = notifications tr ∧ deliveries tr' = deliveries tr

theorem SameNews.refl (tr : List Event) : SameNews tr tr := ⟨rfl, rfl⟩

theorem SameNews.trans {tr tr' tr'' : List Event} (h : SameNews tr tr') (h' : SameNews tr' tr'') : SameNews tr tr'' :=
  ⟨h'.1.trans h.1, h'.2.trans h.2⟩

theorem sameNews_append (tr : List Event) {es : List Event} (hn : notifications es = []) (hd : deliveries es = []) :
    SameNews tr (tr ++ es) := by
  rw [SameNews, notifications_append, deliveries_append, hn, hd, List.append_nil, List.append_nil]
  exact ⟨rfl, rfl⟩

/-! ## One discard -/

/-- The byte `b` read from the source, `rest` left there, and discarded into the log (R192). -/
def discard (b : Byte) (rest : List Byte) (s : State) : State := discardByte b (passByte b { s with src := rest })

section
variable {s : State} (b : Byte) (rest : List Byte)

/-- A full log is flushed before the byte goes into it. -/
theorem discard_of_full (h : s.dlog.length = s.cfg.dlogCap) :
    discard b rest s =
      { s with
        src := rest, dlog := [b],
        trace := s.trace ++ (if s.cfg.passthrough then [.pass b] else []) ++
          (if s.dlog = [] then [] else [.diag (.discard s.dlog)]) } := by
  have hfull : (passByte b { s with src := rest }).dlog.length = (passByte b { s with src := rest }).cfg.dlogCap := by
    rw [passByte_dlog, passByte_cfg]
    exact h
  rw [discard, discardByte, if_pos hfull, flushDlog_eq, passByte_eq]
  rfl

theorem discard_of_not_full (h : s.dlog.length ≠ s.cfg.dlogCap) :
    discard b rest s =
      { s with
        src := rest, dlog := s.dlog ++ [b], trace := s.trace ++ if s.cfg.passthrough then [.pass b] else [] } := by
  have hroom : (passByte b { s with src := rest }).dlog.length ≠ (passByte b { s with src := rest }).cfg.dlogCap := by
    rw [passByte_dlog, passByte_cfg]
    exact h
  rw [discard, discardByte, if_neg hroom, passByte_eq]

/-- A log with room for at least one byte is not empty when it is full. -/
theorem discard_eq (hcap : 1 ≤ s.cfg.dlogCap) :
    discard b rest s =
      { s with
        src := rest, dlog := (if s.dlog.length = s.cfg.dlogCap then [] else s.dlog) ++ [b],
        trace := s.trace ++ (if s.cfg.passthrough then [.pass b] else []) ++
          (if s.dlog.length = s.cfg.dlogCap then [.diag (.discard s.dlog)] else []) } := by
  by_cases h : s.dlog.length = s.cfg.dlogCap
  · have hne : s.dlog ≠ [] := List.ne_nil_of_length_pos (by omega)
    rw [discard_of_full b rest h, if_neg hne, if_pos h, if_pos h]
    rfl
  · rw [discard_of_not_full b rest h, if_neg h, if_neg h, List.append_nil]

end

/-! ## Discards in a row -/

/-- What polling and discarding may write, whatever arrives; the log stays in its bound (R31), and nobody is told anything. -/
def Discards (s t : State) : Prop :=
  ∃ dlog src polls tr, t = { s with dlog := dlog, src := src, polls := polls, trace := tr } ∧ SameNews s.trace tr ∧
    (1 ≤ s.cfg.dlogCap → s.dlog.length ≤ s.cfg.dlogCap → dlog.length ≤ s.cfg.dlogCap)

theorem Discards.trans {s t u : State} (hst : Discards s t) (htu : Discards t u) : Discards s u := by
  obtain ⟨dlog, src, polls, tr, rfl, hnews, hbound⟩ := hst
  obtain ⟨dlog', src', polls', tr', rfl, hnews', hbound'⟩ := htu
  exact ⟨dlog', src', polls', tr', rfl, hnews.trans hnews', fun hcap hlen => hbound' hcap (hbound hcap hlen)⟩

theorem discards_avail (s : State) : Discards s (avail s).2 := by
  obtain ⟨src, polls, h⟩ := avail_update s
  rw [h]
  exact ⟨s.dlog, src, polls, s.trace, rfl, .refl _, fun _ hlen => hlen⟩

theorem discards_discard (b : Byte) (rest : List Byte) (s : State) : Discards s (discard b rest s) := by
  have hpass : SameNews s.trace (s.trace ++ if s.cfg.passthrough then [.pass b] else []) := by
    apply sameNews_append <;> split <;> rfl
  by_cases h : s.dlog.length = s.cfg.dlogCap
  · rw [discard_of_full b rest h]
    refine ⟨_, _, _, _, rfl, hpass.trans ?_, fun hcap _ => hcap⟩
    apply sameNews_append <;> split <;> rfl
  · rw [discard_of_not_full b rest h]
    refine ⟨_, _, _, _, rfl, hpass, fun _ hlen => ?_⟩
    rw [List.length_append, List.length_singleton]
    omega

theorem drainLoop_zero (s : State) : drainLoop 0 s = (0, (avail s).2) := rfl

theorem drainLoop_idle {s : State} (h : (avail s).1 = false) (k : Nat) : drainLoop k s = (0, (avail s).2) := by
  have hpoll : avail s = (false, (avail s).2) := Prod.ext h rfl
  cases k with
  | zero => rfl
  | succ k => rw [drainLoop, hpoll]

theorem drainLoop_succ {s s1 : State} {b : Byte} {rest : List Byte} (ha : avail s = (true, s1)) (hb : s1.src = b :: rest)
    (k : Nat) :
    drainLoop (k + 1) s = ((drainLoop k (discard b rest s1)).1 + 1, (drainLoop k (discard b rest s1)).2) := by
  rw [drainLoop, ha]
  dsimp only
  rw [readByte_cons hb]
  rfl

/-- A poll finds no byte, or a byte at the front of the source. -/
theorem avail_cases (s : State) : (avail s).1 = false ∨ ∃ s1 b rest, avail s = (true, s1) ∧ s1.src = b :: rest := by
  cases ha : (avail s).1 with
  | false => exact .inl rfl
  | true =>
    obtain ⟨b, rest, hb⟩ := src_of_avail ha
    exact .inr ⟨(avail s).2, b, rest, Prod.ext ha rfl, hb⟩

theorem discards_drainLoop (n : Nat) (s : State) : Discards s (drainLoop n s).2 := by
  induction n generalizing s with
  | zero => exact discards_avail s
  | succ n ih =>
    obtain ha | ⟨s1, b, rest, ha, hb⟩ := avail_cases s
    · rw [drainLoop_idle ha]
      exact discards_avail s
    · have hpoll := discards_avail s
      rw [ha] at hpoll
      rw [drainLoop_succ ha hb]
      exact hpoll.trans ((discards_discard b rest s1).trans (ih _))

theorem drainLoop_frame (n : Nat) (s : State) :
    (drainLoop n s).2.now = s.now ∧ (drainLoop n s).2.tErr = s.tErr ∧ (drainLoop n s).2.cfg = s.cfg := by
  obtain ⟨dlog, src, polls, tr, h, -, -⟩ := discards_drainLoop n s
  rw [h]
  exact ⟨rfl, rfl, rfl⟩

/-! ## The step -/

theorem exec_stepErr (s : State) :
    exec .stepErr s =
      .next (if 0 < (drainLoop s.cfg.drainMax s).1 then
        { (drainLoop s.cfg.drainMax s).2 with tErr := (drainLoop s.cfg.drainMax s).2.now }
      else if 500 ≤ elapsed (drainLoop s.cfg.drainMax s).2 (drainLoop s.cfg.drainMax s).2.tErr then
        returnFromError (drainLoop s.cfg.drainMax s).2
      else (drainLoop s.cfg.drainMax s).2) := by
  change stepErr s = _
  unfold stepErr
  dsimp only
  split
  · rfl
  · rw [Config.quietMs]
    split <;> rfl

/-- The step discards, and then restarts the quiet period, returns from the error, or stays (R192). -/
theorem exec_stepErr_cases (s : State) :
    ∃ u, Discards s u ∧
      (exec .stepErr s = .next { u with tErr := u.now } ∨ exec .stepErr s = .next (returnFromError u) ∨
        exec .stepErr s = .next u) := by
  refine ⟨_, discards_drainLoop s.cfg.drainMax s, ?_⟩
  rw [exec_stepErr]
  split
  · exact .inl rfl
  · split
    · exact .inr (.inl rfl)
    · exact .inr (.inr rfl)

/-- Settles O27: discards write the log, the source and the trace, and each way to end adds `st` or `t_err`. -/
theorem recoveryNeverRaises : Obligations.RecoveryNeverRaises := by
  intro s
  obtain ⟨u, ⟨dlog, src, polls, tr, rfl, -, -⟩, hend | hend | hend⟩ := exec_stepErr_cases s
  · exact ⟨_, hend, .inl rfl, rfl⟩
  · refine ⟨_, hend, .inr (changeState_st _ _), ?_⟩
    rw [returnFromError, changeState_wait, flushDlog_eq]
  · exact ⟨_, hend, .inl rfl, rfl⟩

/-- Settles O25: without a byte the loop discards nothing, so the time decides. -/
theorem recoveryEndsAfterTheQuietPeriod : Obligations.RecoveryEndsAfterTheQuietPeriod := by
  intro s hst hidle
  obtain ⟨src, polls, hpoll⟩ := avail_update s
  rw [exec_stepErr, drainLoop_idle hidle, if_neg (Nat.lt_irrefl 0), returnFromError_eq (by rw [hpoll]; exact hst), hpoll]
  rfl

/-! ## A burst -/

/-- One byte of a burst (R192), for a log capacity `cap` and passthrough flag `p`. -/
def discardNext (cap : Nat) (p : Bool) (u : State) (b : Byte) : State :=
  if u.dlog.length = cap then
    { u with dlog := [b], trace := u.trace ++ (if p then [.pass b] else []) ++ [.diag (.discard u.dlog)] }
  else { u with dlog := u.dlog ++ [b], trace := u.trace ++ (if p then [.pass b] else []) }

theorem discard_eq_discardNext {s : State} (hcap : 1 ≤ s.cfg.dlogCap) (b : Byte) (rest : List Byte) :
    discard b rest s = { discardNext s.cfg.dlogCap s.cfg.passthrough s b with src := rest } := by
  rw [discard_eq b rest hcap, discardNext]
  split
  · rfl
  · rw [List.append_nil]

theorem discardNext_frame (cap : Nat) (p : Bool) (u : State) (b : Byte) :
    (discardNext cap p u b).cfg = u.cfg ∧ (discardNext cap p u b).polls = u.polls := by
  unfold discardNext
  split <;> exact ⟨rfl, rfl⟩

theorem foldl_discardNext_src (cap : Nat) (p : Bool) (bs rest : List Byte) (u : State) :
    bs.foldl (discardNext cap p) { u with src := rest } = { bs.foldl (discardNext cap p) u with src := rest } := by
  induction bs generalizing u with
  | nil => rfl
  | cons b bs ih =>
    have hstep : discardNext cap p { u with src := rest } b = { discardNext cap p u b with src := rest } := by
      unfold discardNext
      dsimp only
      split <;> rfl
    rw [List.foldl_cons, hstep, ih, List.foldl_cons]

/-- With nothing arriving the loop discards the first bytes of the source one by one. -/
theorem drainLoop_burst {s : State} (hpolls : s.polls = []) (hcap : 1 ≤ s.cfg.dlogCap) (n : Nat) :
    drainLoop n s =
      ((s.src.take n).length,
        { (s.src.take n).foldl (discardNext s.cfg.dlogCap s.cfg.passthrough) s with src := s.src.drop n }) := by
  induction n generalizing s with
  | zero => rw [drainLoop_zero, avail, hpolls]; rfl
  | succ n ih =>
    have hpoll : avail s = (!s.src.isEmpty, s) := by rw [avail, hpolls]
    cases hsrc : s.src with
    | nil =>
      rw [drainLoop_idle (by rw [hpoll, hsrc]; rfl), hpoll, List.take_nil, List.drop_nil, List.foldl_nil, ← hsrc]
      exact congrArg (fun l => (List.length l, s)) hsrc.symm
    | cons b rest =>
      obtain ⟨hcfg, hpolls'⟩ := discardNext_frame s.cfg.dlogCap s.cfg.passthrough s b
      have hdiscard := discard_eq_discardNext hcap b rest
      rw [drainLoop_succ (by rw [hpoll, hsrc]; rfl) hsrc, List.take_succ_cons, List.drop_succ_cons, List.foldl_cons]
      generalize discardNext s.cfg.dlogCap s.cfg.passthrough s b = u at hcfg hpolls' hdiscard ⊢
      have hrest := ih (s := { u with src := rest }) (hpolls'.trans hpolls) (hcfg ▸ hcap)
      rw [hdiscard, hrest, foldl_discardNext_src, hcfg]
      rfl

/-! ## One round -/

/-- The state with another start of the quiet period and another number of discards left. -/
def withBudget (e : Time) (d : Nat) (s : State) : State := { s with tErr := e, cfg := { s.cfg with drainMax := d } }

section
variable (e : Time) (d : Nat) (s : State)

theorem avail_withBudget : avail (withBudget e d s) = ((avail s).1, withBudget e d (avail s).2) := by
  unfold avail withBudget
  dsimp only
  split <;> rfl

theorem discard_withBudget (b : Byte) (rest : List Byte) :
    discard b rest (withBudget e d s) = withBudget e d (discard b rest s) := by
  by_cases h : s.dlog.length = s.cfg.dlogCap
  · rw [discard_of_full b rest h, discard_of_full (s := withBudget e d s) b rest h]
    rfl
  · rw [discard_of_not_full b rest h, discard_of_not_full (s := withBudget e d s) b rest h]
    rfl

/-- The loop looks at neither. -/
theorem drainLoop_withBudget (n : Nat) :
    drainLoop n (withBudget e d s) = ((drainLoop n s).1, withBudget e d (drainLoop n s).2) := by
  have hpoll := avail_withBudget e d s
  induction n generalizing s with
  | zero => rw [drainLoop_zero, hpoll, drainLoop_zero]
  | succ n ih =>
    obtain ha | ⟨s1, b, rest, ha, hb⟩ := avail_cases s
    · rw [drainLoop_idle ha, drainLoop_idle (by rw [hpoll, ha]), hpoll]
    · rw [ha] at hpoll
      rw [drainLoop_succ ha hb, drainLoop_succ hpoll hb, discard_withBudget, ih _ (avail_withBudget e d _)]

end

/-- A quiet period that has just been restarted is not over (R192). -/
theorem elapsed_now {s : State} (h : s.tErr = s.now) : elapsed s s.tErr = 0 := by
  rw [elapsed, h, BitVec.sub_self]
  rfl

/-- The step from a quiet period just restarted is its loop: what it would do after the loop is done already. -/
theorem exec_stepErr_restarted {s : State} (h : s.tErr = s.now) :
    exec .stepErr s = .next (drainLoop s.cfg.drainMax s).2 := by
  obtain ⟨hnow, herr, -⟩ := drainLoop_frame s.cfg.drainMax s
  have hrestarted : (drainLoop s.cfg.drainMax s).2.tErr = (drainLoop s.cfg.drainMax s).2.now := by rw [hnow, herr, h]
  rw [exec_stepErr, elapsed_now hrestarted, if_neg (by decide : ¬ 500 ≤ 0), ← hrestarted]
  split <;> rfl

/-- A step that finds a byte discards it and restarts the quiet period; the rest is its loop with one discard less. -/
theorem exec_stepErr_discard {s s1 : State} {b : Byte} {rest : List Byte} {k : Nat} (ha : avail s = (true, s1))
    (hb : s1.src = b :: rest) (hmax : s.cfg.drainMax = k + 1) :
    exec .stepErr s = .next { (drainLoop k (discard b rest s1)).2 with tErr := s.now } := by
  obtain ⟨hnow, -, -⟩ := drainLoop_frame (k + 1) s
  rw [exec_stepErr, hmax, hnow, drainLoop_succ ha hb, if_pos (Nat.succ_pos _)]

/-- Settles O26: a burst is the loop run to its end; with arrivals one discard is taken out of the loop, and what is left is the
loop of a step that has just restarted the quiet period; without a discard left only the poll is made. -/
theorem recoveryDiscardsAndRestartsTheQuietPeriod : Obligations.RecoveryDiscardsAndRestartsTheQuietPeriod := by
  refine ⟨fun s hpolls hsrc hmax hcap => ?_, fun s s1 b rest k ha hb hmax hcap => ?_, fun s hmax hnow => ?_⟩
  · have hburst := drainLoop_burst hpolls hcap s.cfg.drainMax
    have hsome : 0 < (s.src.take s.cfg.drainMax).length := by
      rw [List.length_take]
      have := List.length_pos_of_ne_nil hsrc
      omega
    obtain ⟨hnow, -, -⟩ := drainLoop_frame s.cfg.drainMax s
    rw [exec_stepErr, hnow, hburst, if_pos hsome]
    rfl
  · obtain ⟨src, polls, hpoll⟩ := avail_update s
    obtain rfl : s1 = { s with src := src, polls := polls } := congrArg Prod.snd (ha.symm.trans hpoll)
    have hdiscard := discard_eq (s := { s with src := src, polls := polls }) b rest hcap
    have hround := exec_stepErr_discard ha hb hmax
    generalize discard b rest { s with src := src, polls := polls } = u at hdiscard hround
    have hnow : u.now = s.now := by rw [hdiscard]
    have hcfg : (drainLoop k u).2.cfg = s.cfg := by
      obtain ⟨-, -, h⟩ := drainLoop_frame k u
      rw [h, hdiscard]
    have hrest := exec_stepErr_restarted (s := withBudget s.now k u) hnow.symm
    have hloop := drainLoop_withBudget s.now k u k
    have hstate : withBudget s.now k u = { s with
        src := rest, polls := polls, tErr := s.now, cfg := { s.cfg with drainMax := k },
        dlog := (if s.dlog.length = s.cfg.dlogCap then [] else s.dlog) ++ [b],
        trace := s.trace ++ (if s.cfg.passthrough then [.pass b] else []) ++
          (if s.dlog.length = s.cfg.dlogCap then [.diag (.discard s.dlog)] else []) } := by
      rw [hdiscard]
      rfl
    rw [hround]
    refine Eq.trans ?_ (congrArg (mapNext fun t => { t with cfg := s.cfg }) (hrest.symm.trans (congrArg _ hstate)))
    change _ = Host.Outcome.next { (drainLoop k (withBudget s.now k u)).2 with cfg := s.cfg }
    rw [hloop, ← hcfg]
    rfl
  · rw [exec_stepErr_restarted hnow, hmax, drainLoop_zero]

end Sys2Proof
end

section
/-! What no operation looks at: the events emitted before (60_exceptions.md R282) and the passthrough flag (42_frame_fsm.md R195).
One map of states changes both; every operation commutes with it, and the two statements are two instances. -/

namespace Sys2Proof

open Sys2Proof.Machine

/-! ## The map -/

/-- The state with another passthrough flag and another past: `g` of its flag, `φ` of its trace. -/
def sideView (g : Bool → Bool) (φ : List Event → List Event) (s : State) : State :=
  { s with cfg := { s.cfg with passthrough := g s.cfg.passthrough }, trace := φ s.trace }

/-- A view of traces that keeps what is emitted, except that a byte is forwarded as the changed flag says. -/
structure SideView (g : Bool → Bool) (φ : List Event → List Event) : Prop where
  append : ∀ tr es, (∀ e ∈ es, e.isPass = false) → φ (tr ++ es) = φ tr ++ es
  pass : ∀ tr p b, φ (tr ++ if p = true then [.pass b] else []) = φ tr ++ if g p = true then [.pass b] else []

/-- Events put in front of the trace. -/
theorem sideView_past (past : List Event) : SideView id fun tr => past ++ tr where
  append _ _ _ := (List.append_assoc _ _ _).symm
  pass _ _ _ := (List.append_assoc _ _ _).symm

/-- The flag off and the `Pass` events taken out. -/
theorem sideView_withoutPass : SideView (fun _ => false) fun tr => tr.filter fun e => !e.isPass where
  append tr es hes := by
    have hkeep : es.filter (fun e => !e.isPass) = es := List.filter_eq_self.mpr fun e he => by simp [hes e he]
    rw [List.filter_append, hkeep]
  pass tr p b := by cases p <;> simp [Event.isPass]

theorem mapFlow_andThen {f : State → State} {k k' : State → Flow} (hk : ∀ s, k' (f s) = mapFlow f (k s)) (x : Flow) :
    (mapFlow f x).andThen k' = mapFlow f (x.andThen k) := by
  cases x with
  | go s => exact hk s
  | done o => rfl

theorem mapFlow_out (f : State → State) (x : Flow) : (mapFlow f x).out = mapNext f x.out := by
  cases x <;> rfl

/-! ## Operations that emit nothing -/

section
variable (g : Bool → Bool) (φ : List Event → List Event) (s : State)

theorem avail_sideView : avail (sideView g φ s) = ((avail s).1, sideView g φ (avail s).2) := by
  unfold avail sideView
  dsimp only
  split <;> rfl

theorem bufRead_sideView (i : Nat) :
    bufRead i (sideView g φ s) = ((bufRead i s).1, sideView g φ (bufRead i s).2) := by
  unfold bufRead sideView
  dsimp only
  split <;> rfl

theorem bufReads_sideView (n i : Nat) :
    bufReads n i (sideView g φ s) = ((bufReads n i s).1, sideView g φ (bufReads n i s).2) := by
  induction n generalizing i s with
  | zero => rfl
  | succ n ih => simp only [bufReads, bufRead_sideView, ih]

theorem readBe16_sideView (i : Nat) :
    readBe16 i (sideView g φ s) = ((readBe16 i s).1, sideView g φ (readBe16 i s).2) := by
  simp only [readBe16, bufRead_sideView]

theorem readBe32_sideView (i : Nat) :
    readBe32 i (sideView g φ s) = ((readBe32 i s).1, sideView g φ (readBe32 i s).2) := by
  simp only [readBe32, bufRead_sideView]

theorem storeByte_sideView (b : Byte) : storeByte b (sideView g φ s) = mapFlow (sideView g φ) (storeByte b s) := by
  unfold storeByte sideView
  dsimp only
  split <;> rfl

theorem yieldNow_sideView : yieldNow (sideView g φ s) = ((yieldNow s).1, sideView g φ (yieldNow s).2) := by
  rw [yieldNow_eq_headD, yieldNow_eq_headD]
  rfl

theorem crcaRange_sideView (lo hi : Nat) :
    crcaRange lo hi (sideView g φ s) = ((crcaRange lo hi s).1, sideView g φ (crcaRange lo hi s).2) := by
  simp only [crcaRange_eq_bufReads, bufReads_sideView]
  rfl

theorem crcxRange_sideView (lo hi : Nat) :
    crcxRange lo hi (sideView g φ s) = ((crcxRange lo hi s).1, sideView g φ (crcxRange lo hi s).2) := by
  simp only [crcxRange_eq_bufReads, bufReads_sideView]
  rfl

theorem advance_sideView (n : Nat) : advance n (sideView g φ s) = sideView g φ (advance n s) := rfl

theorem tString_sideView : tString (sideView g φ s) = sideView g φ (tString s) := by
  have hlen := bufRead_sideView g φ s (s.cur + 1)
  rw [tString, show (sideView g φ s).cur = s.cur from rfl, hlen, advance_sideView, tString]

theorem rememberCode_sideView : rememberCode (sideView g φ s) = sideView g φ (rememberCode s) := by
  simp only [rememberCode, show (sideView g φ s).cur = s.cur from rfl, bufRead_sideView]
  rfl

theorem tOctet_sideView : tOctet (sideView g φ s) = sideView g φ (tOctet s) := by
  have hlen := bufRead_sideView g φ s (s.cur + 1)
  rw [tOctet, show (sideView g φ s).cur = s.cur from rfl, hlen, rememberCode_sideView, ← apply_ite (sideView g φ),
    advance_sideView, tOctet]

theorem controlScan_sideView (n : Nat) : controlScan n (sideView g φ s) = sideView g φ (controlScan n s) := by
  have hbyte := bufRead_sideView g φ
  induction n generalizing s with
  | zero => rfl
  | succ n ih =>
    rw [controlScan, show (sideView g φ s).cur = s.cur from rfl, hbyte, controlScan]
    dsimp only
    split
    · rfl
    · exact ih (advance 1 (bufRead s.cur s).2)

theorem lineEvent_sideView (line : List Byte) : lineEvent (sideView g φ s) line = lineEvent s line := by
  unfold lineEvent
  split <;> rfl

end

/-! ## Operations that emit or forward -/

theorem dispatchEvent_isPass (s : State) (k : Code) (v : Rat) : (dispatchEvent s k v).isPass = false := by
  unfold dispatchEvent
  split <;> rfl

theorem lineEvent_isPass (s : State) (line : List Byte) : (lineEvent s line).isPass = false := by
  unfold lineEvent
  split
  · exact dispatchEvent_isPass _ _ _
  · rfl

section
variable {g : Bool → Bool} {φ : List Event → List Event} (h : SideView g φ) (s : State)
include h

theorem emit_sideView {e : Event} (he : e.isPass = false) : emit e (sideView g φ s) = sideView g φ (emit e s) := by
  have happend := h.append s.trace [e] (by simpa using he)
  simp only [emit, sideView, happend]

theorem passByte_sideView (b : Byte) : passByte b (sideView g φ s) = sideView g φ (passByte b s) := by
  simp only [passByte_eq, sideView, h.pass]

theorem takeError_sideView (c : Cause) : takeError c (sideView g φ s) = sideView g φ (takeError c s) := by
  have hevents := h.append s.trace [.diag (.error c), .notify .commError] (by simp [Event.isPass])
  simp only [takeError_eq, sideView, hevents]

/-- Every entry action but that of ERR emits at most one event, and its own (R172 to R178). -/
theorem changeState_sideView (n : Target) : changeState n (sideView g φ s) = sideView g φ (changeState n s) := by
  cases n with
  | ident =>
    have hready := h.append s.trace [.notify .ready] (by decide)
    simp only [changeState_ident, sideView, hready]
  | verify =>
    have hupdate := h.append s.trace [.notify .update] (by decide)
    simp only [changeState_verify, sideView, hupdate]
  | wait =>
    have hsummary := h.append s.trace (if s.st = .err then [] else [.diag (.summary s.nReadTicks s.nProcTicks)])
      (by split <;> simp [Event.isPass])
    simp only [changeState_wait, sideView, hsummary]
  | read | pascii | pbin => rfl
  | err c => exact takeError_sideView h s c

theorem raiseError_sideView (c : Cause) : raiseError c (sideView g φ s) = mapFlow (sideView g φ) (raiseError c s) := by
  rw [raiseError, takeError_sideView h]
  rfl

theorem dispatch_sideView (k : Code) (v : Rat) : dispatch k v (sideView g φ s) = sideView g φ (dispatch k v s) := by
  rw [dispatch_eq, dispatch_eq]
  exact emit_sideView h s (dispatchEvent_isPass s k v)

theorem obisParse_sideView (text : List Byte) :
    obisParse text (sideView g φ s) = ((obisParse text s).1, sideView g φ (obisParse text s).2) := by
  rw [obisParse_eq, obisParse_eq, emit_sideView h _ rfl]
  split <;> rfl

theorem flushDlog_sideView : flushDlog (sideView g φ s) = sideView g φ (flushDlog s) := by
  have hdiscard := h.append s.trace (if s.dlog = [] then [] else [.diag (.discard s.dlog)])
    (by split <;> simp [Event.isPass])
  simp only [flushDlog_eq, sideView, hdiscard]

/-! ## The lead byte and the bytes read -/

theorem readByte_sideView :
    readByte (sideView g φ s) = (readByte s).map fun r => (r.1, sideView g φ r.2) := by
  cases hs : s.src with
  | nil => rw [readByte, readByte, hs, show (sideView g φ s).src = [] from hs]; rfl
  | cons b bs =>
    rw [readByte_cons hs, readByte_cons (s := sideView g φ s) hs, Option.map_some, ← passByte_sideView h]
    rfl

theorem lbAction_sideView (b : Byte) : lbAction b (sideView g φ s) = mapFlow (sideView g φ) (lbAction b s) := by
  unfold lbAction
  cases leadClass b with
  | ascii | binary => rfl
  | illegal => exact raiseError_sideView h s _

theorem rbAppend_sideView (b : Byte) : rbAppend b (sideView g φ s) = mapFlow (sideView g φ) (rbAppend b s) := by
  unfold rbAppend
  rw [readByte_sideView h, raiseError_sideView h]
  change (if s.pos = s.cfg.bufCap then _ else _) = _
  split
  · rfl
  · cases readByte s with
    | none => rfl
    | some r =>
      dsimp only [Option.map_some]
      split
      · exact storeByte_sideView g φ r.2 b
      · rfl

theorem rbHdr_sideView : rbHdr (sideView g φ s) = mapFlow (sideView g φ) (rbHdr s) := by
  simp only [rbHdr, bufRead_sideView]
  split
  · exact raiseError_sideView h _ _
  · rfl

theorem rbEndA_sideView : rbEndA (sideView g φ s) = mapFlow (sideView g φ) (rbEndA s) := by
  rw [rbEndA, changeState_sideView h]
  rfl

theorem rbEndB_sideView (b : Byte) : rbEndB b (sideView g φ s) = mapFlow (sideView g φ) (rbEndB b s) := by
  unfold rbEndB
  split
  · exact rbEndA_sideView h s
  · exact raiseError_sideView h s _

theorem rbAction_sideView (b : Byte) : rbAction b (sideView g φ s) = mapFlow (sideView g φ) (rbAction b s) := by
  change (match rbClass s.fmt s.pos s.crcPos b with | .mark => _ | .hdr => _ | .endA => _ | .endB => _ | .data => _) = _
  unfold rbAction
  cases rbClass s.fmt s.pos s.crcPos b with
  | mark | data => rfl
  | hdr => exact rbHdr_sideView h s
  | endA => exact rbEndA_sideView h s
  | endB => exact rbEndB_sideView h s b

/-! ## The steps of the frame machine -/

theorem readLoop_sideView (n : Nat) : readLoop n (sideView g φ s) = mapFlow (sideView g φ) (readLoop n s) := by
  induction n generalizing s with
  | zero => rfl
  | succ n ih =>
    cases ha : (avail s).1 with
    | false => rw [readLoop_idle ha, readLoop_idle (by rw [avail_sideView, ha]), avail_sideView]; rfl
    | true =>
      obtain ⟨b, bs, hb⟩ := src_of_avail ha
      rw [readLoop_succ ha hb, readLoop_succ (b := b) (bs := bs) (by rw [avail_sideView, ha])
        (by rw [avail_sideView]; exact hb), avail_sideView, rbAppend_sideView h]
      refine mapFlow_andThen (fun u => ?_) _
      rw [rbAction_sideView h]
      exact mapFlow_andThen ih _

theorem readTimeout_sideView : readTimeout (sideView g φ s) = sideView g φ (readTimeout s) := by
  rw [readTimeout_eq, readTimeout_eq, takeError_sideView h]
  change (if 10000 < elapsed s s.tRead then _ else _) = _
  split <;> rfl

theorem finishRead_mapFlow (x : Flow) : finishRead (mapFlow (sideView g φ) x) = mapNext (sideView g φ) (finishRead x) := by
  cases x with
  | go s => exact congrArg Host.Outcome.next (readTimeout_sideView h s)
  | done o => rfl

theorem exec_stepRead_sideView : exec .stepRead (sideView g φ s) = mapNext (sideView g φ) (exec .stepRead s) := by
  rw [exec_stepRead, exec_stepRead, ← finishRead_mapFlow h, ← readLoop_sideView h]
  rfl

theorem exec_stepIdent_sideView : exec .stepIdent (sideView g φ s) = mapNext (sideView g φ) (exec .stepIdent s) := by
  have hpoll := avail_sideView g φ s
  cases ha : (avail s).1 with
  | false =>
    rw [exec_stepIdent_idle ha, exec_stepIdent_idle (by rw [hpoll, ha]), hpoll, takeError_sideView h]
    change Host.Outcome.next (if 60000 < elapsed (avail s).2 (avail s).2.tIdent then _ else _) = _
    split <;> rfl
  | true =>
    obtain ⟨b, bs, hb⟩ := src_of_avail ha
    have hfinish : ∀ x, finishIdent (mapFlow (sideView g φ) x) = mapNext (sideView g φ) (finishIdent x) := by
      intro x
      cases x with
      | go u =>
        change exec .stepRead (changeState .read (sideView g φ u)) = _
        rw [changeState_sideView h, exec_stepRead_sideView h]
        rfl
      | done o => rfl
    rw [exec_stepIdent_lead hb, exec_stepIdent_lead (b := b) (rest := bs) (by rw [hpoll]; exact hb), hpoll, ← hfinish,
      ← mapFlow_andThen fun u => storeByte_sideView g φ u b, ← lbAction_sideView h, ← passByte_sideView h]
    rfl

theorem verifyOutcome_sideView (computed : Crc) (expected : Option Nat) (dest : Target) :
    verifyOutcome computed expected dest (sideView g φ s) =
      sideView g φ (verifyOutcome computed expected dest s) := by
  have hdump := bufReads_sideView g φ s s.pos 0
  unfold verifyOutcome
  split
  · exact changeState_sideView h s dest
  · change takeError .crc (emit (.diag (.crcMismatch computed expected (bufReads s.pos 0 (sideView g φ s)).1))
      (bufReads s.pos 0 (sideView g φ s)).2) = _
    rw [hdump, emit_sideView h _ rfl, takeError_sideView h]

theorem verifyAscii_sideView : verifyAscii (sideView g φ s) = mapNext (sideView g φ) (verifyAscii s) := by
  simp only [verifyAscii, crcaRange_sideView, verifyOutcome_sideView h]
  change (match hexScan s.buf (s.cfg.bufCap - s.crcPos.toNat) s.crcPos.toNat none with | none => _ | some _ => _) = _
  cases hexScan s.buf (s.cfg.bufCap - s.crcPos.toNat) s.crcPos.toNat none <;> rfl

theorem verifyBinary_sideView : verifyBinary (sideView g φ s) = mapNext (sideView g φ) (verifyBinary s) := by
  simp only [verifyBinary, bufRead_sideView, crcxRange_sideView, verifyOutcome_sideView h]
  rfl

theorem exec_stepVerify_sideView : exec .stepVerify (sideView g φ s) = mapNext (sideView g φ) (exec .stepVerify s) := by
  change stepVerify (sideView g φ s) = mapNext (sideView g φ) (stepVerify s)
  simp only [stepVerify, verifyAscii_sideView h, verifyBinary_sideView h]
  change (if s.crcPos < 0 then _ else match s.fmt with | .ascii => _ | .binary => _ | .none => _) = _
  split
  · rfl
  · cases s.fmt <;> rfl

theorem exec_stepWait_sideView : exec .stepWait (sideView g φ s) = mapNext (sideView g φ) (exec .stepWait s) := by
  rw [exec_stepWait, exec_stepWait, changeState_sideView h]
  change Host.Outcome.next (if s.cfg.minPeriod.toNat ≤ elapsed s s.tIdent then _ else _) = _
  split <;> rfl

theorem discard_sideView (b : Byte) (rest : List Byte) :
    discard b rest (sideView g φ s) = sideView g φ (discard b rest s) := by
  have hread : passByte b { sideView g φ s with src := rest } = sideView g φ (passByte b { s with src := rest }) :=
    passByte_sideView h { s with src := rest } b
  rw [discard, hread, discard]
  generalize passByte b { s with src := rest } = u
  unfold discardByte
  rw [flushDlog_sideView h]
  by_cases hfull : u.dlog.length = u.cfg.dlogCap
  · rw [if_pos hfull, if_pos (show (sideView g φ u).dlog.length = (sideView g φ u).cfg.dlogCap from hfull)]
    rfl
  · rw [if_neg hfull, if_neg (show ¬ (sideView g φ u).dlog.length = (sideView g φ u).cfg.dlogCap from hfull)]
    rfl

theorem drainLoop_sideView (n : Nat) :
    drainLoop n (sideView g φ s) = ((drainLoop n s).1, sideView g φ (drainLoop n s).2) := by
  have hpoll := avail_sideView g φ s
  induction n generalizing s with
  | zero => rw [drainLoop_zero, hpoll, drainLoop_zero]
  | succ n ih =>
    obtain ha | ⟨s1, b, rest, ha, hb⟩ := avail_cases s
    · rw [drainLoop_idle ha, drainLoop_idle (by rw [hpoll, ha]), hpoll]
    · rw [ha] at hpoll
      rw [drainLoop_succ ha hb, drainLoop_succ hpoll hb, discard_sideView h, ih _ (avail_sideView g φ _)]

theorem exec_stepErr_sideView : exec .stepErr (sideView g φ s) = mapNext (sideView g φ) (exec .stepErr s) := by
  have hloop := drainLoop_sideView h s s.cfg.drainMax
  have hreturn : ∀ u, returnFromError (sideView g φ u) = sideView g φ (returnFromError u) := by
    intro u
    rw [returnFromError, flushDlog_sideView h, changeState_sideView h, returnFromError]
  rw [exec_stepErr, exec_stepErr, show (sideView g φ s).cfg.drainMax = s.cfg.drainMax from rfl, hloop, hreturn]
  generalize drainLoop s.cfg.drainMax s = r
  change Host.Outcome.next (if 0 < r.1 then _ else if 500 ≤ elapsed r.2 r.2.tErr then _ else _) = _
  split
  · rfl
  · split <;> rfl

/-! ## The decoders -/

theorem asciiRound_sideView : asciiRound (sideView g φ s) = mapFlow (sideView g φ) (asciiRound s) := by
  cases hspan : nextSpan s with
  | none => rw [asciiRound_of_none hspan, asciiRound_of_none (s := sideView g φ s) hspan]; rfl
  | some p =>
    obtain ⟨c, e⟩ := p
    have hline : afterLine (sideView g φ s) c e = sideView g φ (afterLine s c e) := by
      have hevent := h.append s.trace (if c = e then [] else [lineEvent s (s.bytes c e)])
        (by split <;> simp [lineEvent_isPass])
      simp only [afterLine, sideView, hevent]
      rfl
    rw [asciiRound_of_span hspan, asciiRound_of_span (s := sideView g φ s) hspan, spanAction_eq, spanAction_eq, hline,
      exec_lnEnd, exec_lnEnd, changeState_sideView h]
    change (if isEndMark (s.at e) = true then _ else _) = _
    split <;> rfl

theorem asciiLoop_sideView (n : Nat) : asciiLoop n (sideView g φ s) = mapFlow (sideView g φ) (asciiLoop n s) := by
  induction n generalizing s with
  | zero => rfl
  | succ n ih =>
    rw [asciiLoop, asciiRound_sideView h, asciiLoop]
    refine mapFlow_andThen (fun u => ?_) _
    rw [yieldNow_sideView]
    obtain ⟨y, v⟩ := yieldNow u
    cases y with
    | true => rfl
    | false => exact ih v

theorem exec_stepPascii_sideView : exec .stepPascii (sideView g φ s) = mapNext (sideView g φ) (exec .stepPascii s) := by
  rw [exec_stepPascii, exec_stepPascii, ← mapFlow_out, ← asciiLoop_sideView h]
  rfl

theorem tU32_sideView : tU32 (sideView g φ s) = sideView g φ (tU32 s) := by
  have hraw := readBe32_sideView g φ s (s.cur + 1)
  rw [tU32, show (sideView g φ s).cur = s.cur from rfl, hraw, tU32]
  generalize readBe32 (s.cur + 1) s = r
  exact congrArg (advance 5) (dispatch_sideView h r.2 r.2.curCode (u32Value r.1))

theorem tU16_sideView : tU16 (sideView g φ s) = sideView g φ (tU16 s) := by
  have hraw := readBe16_sideView g φ s (s.cur + 1)
  rw [tU16, show (sideView g φ s).cur = s.cur from rfl, hraw, tU16]
  generalize readBe16 (s.cur + 1) s = r
  exact congrArg (advance 3) (dispatch_sideView h r.2 r.2.curCode (u16Value r.1))

theorem tS16_sideView : tS16 (sideView g φ s) = sideView g φ (tS16 s) := by
  have hraw := readBe16_sideView g φ s (s.cur + 1)
  rw [tS16, show (sideView g φ s).cur = s.cur from rfl, hraw, tS16]
  generalize readBe16 (s.cur + 1) s = r
  exact congrArg (advance 3) (dispatch_sideView h r.2 r.2.curCode (s16Value r.1))

theorem tlvAction_sideView (tag : Byte) : tlvAction tag (sideView g φ s) = mapFlow (sideView g φ) (tlvAction tag s) := by
  unfold tlvAction
  cases tlvTag tag with
  | octet => exact congrArg Flow.go (tOctet_sideView g φ s)
  | string => exact congrArg Flow.go (tString_sideView g φ s)
  | u32 => exact congrArg Flow.go (tU32_sideView h s)
  | u16 => exact congrArg Flow.go (tU16_sideView h s)
  | s16 => exact congrArg Flow.go (tS16_sideView h s)
  | illegal => exact raiseError_sideView h s _
  | null | array | struct | datetime | scalunit | enum => rfl

theorem tlvRound_sideView : tlvRound (sideView g φ s) = mapFlow (sideView g φ) (tlvRound s) := by
  have htag := bufRead_sideView g φ s s.cur
  rcases lt_or_ge (s.cur : Int) s.crcPos with hlt | hend
  · rw [tlvRound_of_lt hlt, tlvRound_of_lt (s := sideView g φ s) hlt, elementAtCursor,
      show (sideView g φ s).cur = s.cur from rfl, htag, tlvAction_sideView h, elementAtCursor]
  · rw [tlvRound_of_le hend, tlvRound_of_le (s := sideView g φ s) hend, changeState_sideView h]
    rfl

theorem tlvLoop_sideView (n : Nat) : tlvLoop n (sideView g φ s) = mapFlow (sideView g φ) (tlvLoop n s) := by
  induction n generalizing s with
  | zero => rfl
  | succ n ih =>
    rw [tlvLoop, tlvRound_sideView h, tlvLoop]
    refine mapFlow_andThen (fun u => ?_) _
    rw [yieldNow_sideView]
    obtain ⟨y, v⟩ := yieldNow u
    cases y with
    | true => rfl
    | false => exact ih v

theorem locateFirst_sideView : locateFirst (sideView g φ s) = mapFlow (sideView g φ) (locateFirst s) := by
  have hscan := controlScan_sideView g φ { s with cur := 3 } (s.crcPos - 3).toNat
  change behindScan (controlScan (s.crcPos - 3).toNat (sideView g φ { s with cur := 3 })) = _
  rw [hscan, locateFirst_eq]
  generalize controlScan (s.crcPos - 3).toNat { s with cur := 3 } = u
  rcases lt_or_ge (u.cur : Int) u.crcPos with hlt | hend
  · rw [behindScan_of_lt hlt, behindScan_of_lt (s := sideView g φ u) hlt]
    rfl
  · rw [behindScan_of_le hend, behindScan_of_le (s := sideView g φ u) hend, takeError_sideView h]
    rfl

theorem exec_stepPbin_sideView : exec .stepPbin (sideView g φ s) = mapNext (sideView g φ) (exec .stepPbin s) := by
  have hrounds : ∀ u, tlvRounds (sideView g φ u) = mapFlow (sideView g φ) (tlvRounds u) := fun u =>
    tlvLoop_sideView h u _
  have hself := exec_stepPbin_inTick (s := s) s.nProcTicks s.yields
  have hview := exec_stepPbin_inTick (s := sideView g φ s) s.nProcTicks s.yields
  change exec .stepPbin (inTick s.nProcTicks s.yields (sideView g φ s)) =
    mapNext (sideView g φ) (exec .stepPbin (inTick s.nProcTicks s.yields s))
  rw [hself, hview, ← mapFlow_out, ← mapFlow_andThen hrounds]
  congr 2
  change (if s.cur = 0 then locateFirst (sideView g φ (inTick (s.nProcTicks + 1) s.yields s)) else _) = _
  rw [locateFirst_sideView h]
  split <;> rfl

/-! ## Every operation -/

/-- No operation depends on what the view changes: operations that touch neither the trace nor the flag are equal by their
definitions, the others by their lemmas above. -/
theorem exec_sideView (i : Instr) : exec i (sideView g φ s) = mapNext (sideView g φ) (exec i s) := by
  cases i with
  | crcaRng lo hi =>
    have hrange := crcaRange_sideView g φ s lo hi
    rw [exec_crcaRng_of_range hrange, exec_crcaRng_of_range rfl]
    rfl
  | crcxRng lo hi =>
    have hrange := crcxRange_sideView g φ s lo hi
    rw [exec_crcxRng_of_range hrange, exec_crcxRng_of_range rfl]
    rfl
  | obisParse text =>
    change Host.Outcome.next { (obisParse text (sideView g φ s)).2 with
      result := .code (obisParse text (sideView g φ s)).1 } = _
    rw [obisParse_sideView h]
    rfl
  | regAdd text k =>
    change execRegAdd text k (sideView g φ s) = mapNext (sideView g φ) (execRegAdd text k s)
    have hadd : ∀ code u, registryAdd code k (sideView g φ u) = sideView g φ (registryAdd code k u) := by
      intro code u
      unfold registryAdd
      split <;> rfl
    rw [execRegAdd, execRegAdd, obisParse_sideView h, hadd]
    change (if s.ticked = true then _ else _) = _
    split <;> rfl
  | stepIdent => exact exec_stepIdent_sideView h s
  | stepRead => exact exec_stepRead_sideView h s
  | stepVerify => exact exec_stepVerify_sideView h s
  | stepPascii => exact exec_stepPascii_sideView h s
  | stepPbin => exact exec_stepPbin_sideView h s
  | stepWait => exact exec_stepWait_sideView h s
  | stepErr => exact exec_stepErr_sideView h s
  | lbIllegal b => exact congrArg Host.Outcome.next (takeError_sideView h s (.lead b))
  | rbAppend b => exact (congrArg Flow.out (rbAppend_sideView h s b)).trans (mapFlow_out _ _)
  | rbHdr b => exact (congrArg Flow.out (rbHdr_sideView h s)).trans (mapFlow_out _ _)
  | rbEndA => exact (congrArg Flow.out (rbEndA_sideView h s)).trans (mapFlow_out _ _)
  | rbEndB b => exact (congrArg Flow.out (rbEndB_sideView h s b)).trans (mapFlow_out _ _)
  | tU32 => exact congrArg Host.Outcome.next (tU32_sideView h s)
  | tOctet => exact congrArg Host.Outcome.next (tOctet_sideView g φ s)
  | tString => exact congrArg Host.Outcome.next (tString_sideView g φ s)
  | tU16 => exact congrArg Host.Outcome.next (tU16_sideView h s)
  | tS16 => exact congrArg Host.Outcome.next (tS16_sideView h s)
  | tIllegal tag => exact congrArg Host.Outcome.next (takeError_sideView h s (.tag tag s.cur))
  | lnMeas a b c v => exact congrArg Host.Outcome.next (dispatch_sideView h s (obisPack a b c) (decimalValue v))
  | lnOther line => exact congrArg Host.Outcome.next (emit_sideView h s (e := .diag (.error (.line line))) rfl)
  | lnEnd mark => exact congrArg Host.Outcome.next (changeState_sideView h s .wait)
  | _ => rfl

end

/-- Settles O58: the events in front are a side view. -/
theorem traceIsOnlyAppendedTo : Obligations.TraceIsOnlyAppendedTo :=
  fun i s past => exec_sideView (sideView_past past) s i

/-- Settles O57: the state without the passthrough is a side view, and taking the passthrough away twice is taking it away
once. -/
theorem passthroughHasNoEffect : Obligations.PassthroughHasNoEffect := by
  intro i s
  have hview : exec i s.withoutPass = mapNext State.withoutPass (exec i s) := exec_sideView sideView_withoutPass s i
  have htwice : ∀ t : State, t.withoutPass.withoutPass = t.withoutPass := by
    intro t
    simp [State.withoutPass]
  rw [hview]
  cases exec i s with
  | next t => exact congrArg Host.Outcome.next (htwice t).symm
  | fault r => rfl
  | refused r => rfl

end Sys2Proof
end

section
/-! The residues of both checksums and the leading zeros of CRCA, 40_crc.md R131 and R133: the update is linear. -/

namespace Sys2Proof

open Sys2Proof.Machine

/-! ## Linearity -/

theorem crcShift_xor (poly x y : Crc) : crcShift poly (x ^^^ y) = crcShift poly x ^^^ crcShift poly y := by
  have hbit : (x ^^^ y).getLsbD 0 = (x.getLsbD 0 ^^ y.getLsbD 0) := BitVec.getLsbD_xor
  unfold crcShift
  rw [hbit, BitVec.ushiftRight_xor_distrib]
  cases x.getLsbD 0 <;> cases y.getLsbD 0
  · rfl
  · simp [BitVec.xor_assoc]
  · simp [BitVec.xor_assoc, BitVec.xor_comm poly]
  · simp only [Bool.xor_self, Bool.false_eq_true, if_false, if_true]
    rw [BitVec.xor_assoc, BitVec.xor_comm poly, BitVec.xor_assoc, BitVec.xor_self, BitVec.xor_zero]

theorem crcShift_iterate_xor (poly x y : Crc) (k : Nat) :
    (crcShift poly)^[k] (x ^^^ y) = (crcShift poly)^[k] x ^^^ (crcShift poly)^[k] y := by
  induction k generalizing x y with
  | zero => rfl
  | succ k ih => rw [Function.iterate_succ_apply, Function.iterate_succ_apply, Function.iterate_succ_apply, crcShift_xor, ih]

/-- A value whose bit 0 is clear is only shifted. -/
theorem crcShift_of_even {poly x : Crc} (h : x.getLsbD 0 = false) : crcShift poly x = x >>> 1 := by
  rw [crcShift, h]
  rfl

/-- A byte in the high half comes down in eight steps, the polynomial never applied. -/
theorem crcShift_iterate_high (poly : Crc) (b : Byte) : (crcShift poly)^[8] (b.setWidth 16 <<< 8) = b.setWidth 16 := by
  have hdown : ∀ k ≤ 8, (crcShift poly)^[k] (b.setWidth 16 <<< k) = b.setWidth 16 := by
    intro k hk
    induction k with
    | zero => rw [BitVec.shiftLeft_zero]; rfl
    | succ k ih =>
      have hstep : (b.setWidth 16 <<< (k + 1)) >>> 1 = b.setWidth 16 <<< k := by
        apply BitVec.eq_of_toNat_eq
        have hb : b.toNat * 2 ^ (k + 1) < 2 ^ 16 := by
          calc b.toNat * 2 ^ (k + 1) < 2 ^ 8 * 2 ^ (k + 1) := Nat.mul_lt_mul_of_pos_right b.isLt (by positivity)
            _ ≤ 2 ^ 8 * 2 ^ 8 := Nat.mul_le_mul_left _ (Nat.pow_le_pow_right (by decide) hk)
        have hb' : b.toNat * 2 ^ k < 2 ^ 16 :=
          lt_of_le_of_lt (Nat.mul_le_mul_left _ (Nat.pow_le_pow_right (by decide) k.le_succ)) hb
        have hsmall : b.toNat % 2 ^ 16 = b.toNat := Nat.mod_eq_of_lt (by omega)
        simp only [BitVec.toNat_ushiftRight, BitVec.toNat_shiftLeft, BitVec.toNat_setWidth, Nat.shiftLeft_eq,
          Nat.shiftRight_eq_div_pow, hsmall, Nat.mod_eq_of_lt hb, Nat.mod_eq_of_lt hb']
        rw [pow_succ, ← Nat.mul_assoc, pow_one, Nat.mul_div_cancel _ (by decide)]
      rw [Function.iterate_succ_apply, crcShift_of_even (by simp), hstep, ih (Nat.le_of_succ_le hk)]
  exact hdown 8 (le_refl 8)

/-! ## The residue -/

/-- Taking the low byte out of a word leaves the high byte. -/
theorem xor_low_byte (c : Crc) : c ^^^ (c.extractLsb' 0 8).setWidth 16 = (c.extractLsb' 8 8).setWidth 16 <<< 8 := by
  apply BitVec.eq_of_getLsbD_eq
  intro i hi
  simp only [BitVec.getLsbD_xor, BitVec.getLsbD_setWidth, BitVec.getLsbD_extractLsb', BitVec.getLsbD_shiftLeft]
  rcases Nat.lt_or_ge i 8 with h | h
  · simp [h, hi]
  · have hidx : i - 8 < 8 ∧ i - 8 < 16 := by omega
    simp [Nat.not_lt.mpr h, hi, hidx, Nat.add_sub_cancel' h]

/-- Both bytes of the accumulator, each with `k` added, leave what `k` twice leaves of the zero accumulator: the accumulator's own
bytes cancel. -/
theorem crcUpd_own_bytes (poly c : Crc) (k : Byte) :
    crcUpd poly (crcUpd poly c (c.extractLsb' 0 8 ^^^ k)) (c.extractLsb' 8 8 ^^^ k) = crcUpd poly (crcUpd poly 0#16 k) k := by
  have hlow : crcUpd poly c (c.extractLsb' 0 8 ^^^ k) =
      (c.extractLsb' 8 8).setWidth 16 ^^^ (crcShift poly)^[8] (k.setWidth 16) := by
    rw [crcUpd_eq_iterate, BitVec.setWidth_xor, ← BitVec.xor_assoc, xor_low_byte, crcShift_iterate_xor,
      crcShift_iterate_high]
  rw [hlow, crcUpd_eq_iterate, crcUpd_eq_iterate, crcUpd_eq_iterate, BitVec.setWidth_xor, BitVec.zero_xor]
  congr 1
  rw [BitVec.xor_comm ((c.extractLsb' 8 8).setWidth 16), BitVec.xor_assoc, ← BitVec.xor_assoc ((c.extractLsb' 8 8).setWidth 16),
    BitVec.xor_self, BitVec.zero_xor]

theorem crcaBytes_residue (m : List Byte) :
    crcaBytes (m ++ [(crcaBytes m).extractLsb' 0 8, (crcaBytes m).extractLsb' 8 8]) = 0x0000#16 := by
  have hown := crcUpd_own_bytes polyA (crcaBytes m) 0x00#8
  rw [BitVec.xor_zero, BitVec.xor_zero] at hown
  have hzero : crcUpd polyA 0#16 0x00#8 = 0#16 := by decide
  rw [hzero, hzero] at hown
  rw [crcaBytes, List.foldl_append]
  exact hown

theorem crcxBytes_residue (m : List Byte) :
    crcxBytes (m ++ [(crcxBytes m).extractLsb' 0 8, (crcxBytes m).extractLsb' 8 8]) = 0x0F47#16 := by
  have hown := crcUpd_own_bytes polyX (m.foldl crcxUpd 0xFFFF#16) 0xFF#8
  have hlow : (crcxBytes m).extractLsb' 0 8 = (m.foldl crcxUpd 0xFFFF#16).extractLsb' 0 8 ^^^ 0xFF#8 :=
    BitVec.extractLsb'_xor
  have hhigh : (crcxBytes m).extractLsb' 8 8 = (m.foldl crcxUpd 0xFFFF#16).extractLsb' 8 8 ^^^ 0xFF#8 :=
    BitVec.extractLsb'_xor
  have hfirst : crcUpd polyX 0#16 0xFF#8 = 0x0F78#16 := by decide
  have hsecond : crcUpd polyX 0x0F78#16 0xFF#8 = 0xF0B8#16 := by decide
  rw [hfirst, hsecond] at hown
  rw [hlow, hhigh, crcxBytes, List.foldl_append]
  exact congrArg (· ^^^ 0xFFFF#16) hown

/-- A zero byte leaves the zero accumulator as it is (R131). -/
theorem crcaBytes_zeros (n : Nat) (m : List Byte) : crcaBytes (List.replicate n 0x00#8 ++ m) = crcaBytes m := by
  have hzero : crcaUpd 0x0000#16 0x00#8 = 0x0000#16 := by decide
  induction n with
  | zero => rfl
  | succ n ih => rwa [List.replicate_succ, List.cons_append, crcaBytes, List.foldl_cons, hzero]

/-- Settles O14: the accumulator's own bytes cancel, with CRCX's output constant left in both. -/
theorem crcResiduesAndLeadingZeros : Obligations.CrcResiduesAndLeadingZeros :=
  ⟨crcaBytes_residue, crcxBytes_residue, crcaBytes_zeros⟩

end Sys2Proof
end

section
/-! The fixed words of the decoder, the fetch, the handlers a tick selects and what the host's contract refuses: 30_encoding.md,
42_frame_fsm.md R170 and R196, 70_reset_and_hazards.md R303. -/

namespace Sys2Proof

open Sys2Proof.Machine

/-- Settles O6, word by word. -/
theorem specWordsDecodeAsTabulated : Obligations.SpecWordsDecodeAsTabulated := by
  unfold Obligations.SpecWordsDecodeAsTabulated
  decide

/-- Settles O22: the two sides of the capacity. -/
theorem bufferReadsInsideAndBeyond : Obligations.BufferReadsInsideAndBeyond :=
  fun _ _ => ⟨bufRead_of_lt, bufRead_of_ge⟩

/-- Settles O21: subtraction of words undoes their addition, the wrap included. -/
theorem elapsedIsRightAcrossTheWrap : Obligations.ElapsedIsRightAcrossTheWrap := by
  intro s a n hn hnow
  rw [elapsed, hnow, BitVec.add_comm, BitVec.add_sub_cancel, BitVec.toNat_ofNat, Nat.mod_eq_of_lt hn]

/-! ## The fetch -/

/-- Every state selects its operation (R91). -/
theorem decode_st_code (p : Phase) : decode (.st p.code) = .ok p.instr := by
  cases p <;> rfl

/-- A tick runs the operation its state selects (R170). -/
theorem fetchTick_eq (s : State) : fetchTick s = .run s.st.instr { s with ticked := true } := by
  rw [fetchTick, decode_st_code]

theorem step_of_sched_nil {s : State} (h : s.sched = []) : step s = exec s.st.instr { s with ticked := true } := by
  have hfetch : fetch s = fetchTick s := by rw [fetch, h]
  rw [step, hfetch, fetchTick_eq]

section
variable {s : State} {rest : List Activation}

theorem step_of_tick {t : Time} {arrived : List Byte} {polls : List (List Byte)} {yields : List Bool}
    (h : s.sched = .tick t arrived polls yields :: rest) :
    step s =
      exec s.st.instr { latchTick t arrived polls yields { s with sched := rest } with ticked := true } := by
  rw [step, fetch, h]
  dsimp only
  rw [fetchTick_eq]
  rfl

theorem step_of_call {index : BitVec 4} {args : FuArgs} {i : Instr} (h : s.sched = .call index args :: rest)
    (hdec : decode (.fu index args) = .ok i) : step s = exec i { s with sched := rest } := by
  have hfetch : fetch s = .run i { s with sched := rest } := by
    rw [fetch, h]
    dsimp only
    rw [fetchCall, hdec]
  rw [step, hfetch]

theorem step_of_call_error {index : BitVec 4} {args : FuArgs} {e : DecodeError} (h : s.sched = .call index args :: rest)
    (hdec : decode (.fu index args) = .error e) : step s = .refused .unusedFunction := by
  have hfetch : fetch s = .refuse .unusedFunction := by
    rw [fetch, h]
    dsimp only
    rw [fetchCall, hdec]
  rw [step, hfetch]

theorem step_of_reset {t0 tIdent tRead : Time} {bytes : List Byte}
    (h : s.sched = .reset t0 tIdent tRead bytes :: rest) :
    step s =
      .next (State.resetWith t0 tIdent tRead (Memory.ofBytes s.cfg.bufCap bytes) { s with sched := rest }) := by
  rw [step, fetch, h]

theorem step_of_configure_ticked {c : Conf} (h : s.sched = .configure c :: rest) (hs : s.ticked = true) :
    step s = .refused .reconfigurationAfterFirstTick := by
  have hfetch : fetch s = .refuse .reconfigurationAfterFirstTick := by
    rw [fetch, h]
    exact if_pos hs
  rw [step, hfetch]

/-- Before the first tick a configuration is taken when it is in its range (R7). -/
theorem step_of_configure_boot {c : Conf} (h : s.sched = .configure c :: rest) (hs : s.ticked = false) :
    step s =
      if c.legal then .next { s with sched := rest, cfg := c, buf := Memory.restrict c.bufCap s.buf }
      else .refused .badConfiguration := by
  have hfetch : fetch s =
      if c.legal then .host { s with sched := rest, cfg := c, buf := Memory.restrict c.bufCap s.buf }
      else .refuse .badConfiguration := by
    rw [fetch, h]
    exact if_neg (by rw [hs]; exact Bool.false_ne_true)
  rw [step, hfetch]
  cases c.legal <;> rfl

end

theorem legal_iff (c : Conf) : c.legal = true ↔ 1 ≤ c.bufCap ∧ 1 ≤ c.drainMax ∧ 1 ≤ c.dlogCap := by
  simp [Conf.legal, and_assoc]

/-- Settles O7, activation by activation; `st` selects one operation only. -/
theorem stepRunsTheSelectedOperation : Obligations.StepRunsTheSelectedOperation := by
  refine ⟨fun s i hsched hdec => ?_, fun s i t arrived polls yields rest hsched hdec => ?_,
    fun s i index args rest hsched hdec => step_of_call hsched hdec,
    fun s t0 tIdent tRead bytes rest hsched => step_of_reset hsched⟩
  · obtain rfl : s.st.instr = i := Except.ok.inj ((decode_st_code s.st).symm.trans hdec)
    exact step_of_sched_nil hsched
  · obtain rfl : s.st.instr = i := Except.ok.inj ((decode_st_code s.st).symm.trans hdec)
    exact step_of_tick hsched

/-! ## The host's contract -/

/-- The indices 9 to 15 select nothing (R113). -/
theorem decodeFu_of_unused {index : BitVec 4} (h : 9 ≤ index.toNat) (args : FuArgs) :
    decode (.fu index args) = .error .unusedFunction := by
  obtain ⟨k, hk⟩ := Nat.exists_eq_add_of_le' h
  rw [decode, decodeFu, hk]
  rfl

theorem rbAppend_of_not_oldest {s : State} {b : Byte} (hpos : s.pos ≠ s.cfg.bufCap) (hsrc : s.src.head? ≠ some b) :
    rbAppend b s = .done (.refused .readWithoutByte) := by
  rw [rbAppend, if_neg hpos]
  cases h : s.src with
  | nil => rw [readByte, h]
  | cons x xs =>
    have hx : x ≠ b := fun hxb => hsrc (by rw [h, hxb, List.head?_cons])
    rw [readByte_cons h]
    exact if_neg hx

/-- Settles O19, each refusal by the test that makes it. -/
theorem hostContractIsKeptByRefusal : Obligations.HostContractIsKeptByRefusal := by
  refine ⟨fun text h s hs => if_pos hs, fun s c rest hsched hs => step_of_configure_ticked hsched hs,
    fun s c rest hsched hs hbad => ?_, fun s c rest hsched hs hbuf hdrain hlog => ?_,
    fun s index args rest hsched hindex => step_of_call_error hsched (decodeFu_of_unused hindex args),
    fun b s hpos hsrc => ?_⟩
  · rw [step_of_configure_boot hsched hs, if_neg]
    rw [legal_iff]
    omega
  · rw [step_of_configure_boot hsched hs, if_pos ((legal_iff c).mpr ⟨hbuf, hdrain, hlog⟩)]
  · rw [exec_rbAppend, rbAppend_of_not_oldest hpos hsrc, Flow.out_done]

/-! ## The handlers -/

theorem lbAction_out (b : Byte) (s : State) : (lbAction b s).out = exec (decodeLead b) s := by
  unfold lbAction decodeLead
  cases leadClass b <;> rfl

theorem tlvAction_out (tag : Byte) (s : State) : (tlvAction tag s).out = exec (decodeTlv tag) s := by
  unfold tlvAction decodeTlv
  cases tlvTag tag <;> rfl

/-- Settles O8: both sides branch on the same class of the byte, the tag or the line. -/
theorem tickRunsTheDecodedHandlers : Obligations.TickRunsTheDecodedHandlers := by
  refine ⟨lbAction_out, fun b s i hdec => ?_, fun b s hdec => ?_, tlvAction_out, fun line s i hdec => ?_⟩
  · simp only [decode, decodeRb] at hdec
    unfold rbAction
    cases hclass : rbClass s.fmt s.pos s.crcPos b with
    | mark | hdr | endA | endB =>
      rw [hclass] at hdec
      obtain rfl := Except.ok.inj hdec
      rfl
    | data =>
      rw [hclass] at hdec
      cases hdec
  · rw [rbAction_eq_decodedAction, hdec]
    rfl
  · rw [decode, decodeLine] at hdec
    split_ifs at hdec
    unfold lineAction
    cases hmeas : parseMeas line with
    | none =>
      rw [hmeas] at hdec
      obtain rfl := Except.ok.inj hdec
      rfl
    | some m =>
      rw [hmeas] at hdec
      obtain rfl := Except.ok.inj hdec
      rfl

end Sys2Proof
end

section
/-! What the reading steps may write, 42_frame_fsm.md R179 to R187: the byte actions case by case, then the loop of `STEP.READ` as
their repetition, and `STEP.IDENT` in front of it. -/

namespace Sys2Proof

open Sys2Proof.Machine

/-! ## The byte actions -/

/-- All that `RB.APPEND` can do (R182). -/
theorem rbAppend_cases (b : Byte) (s : State) :
    (s.pos = s.cfg.bufCap ∧ rbAppend b s = .done (.next (takeError .overrun s))) ∨
    (∃ rest, s.src = b :: rest ∧ s.pos < s.cfg.bufCap ∧
      rbAppend b s = .go { s with
        src := rest, buf := Memory.write s.buf s.pos b, pos := s.pos + 1,
        trace := s.trace ++ (if s.cfg.passthrough then [.pass b] else []) }) ∨
    rbAppend b s = .done (.refused .readWithoutByte) ∨ rbAppend b s = .done (.fault .writeBeyondCapacity) := by
  by_cases hfull : s.pos = s.cfg.bufCap
  · exact .inl ⟨hfull, rbAppend_of_full hfull b⟩
  by_cases hsrc : s.src.head? = some b
  · obtain ⟨rest, hrest⟩ := List.head?_eq_some_iff.mp hsrc
    rcases Nat.lt_or_gt_of_ne hfull with hroom | hbeyond
    · exact .inr (.inl ⟨rest, hrest, hroom, rbAppend_eq hrest hroom⟩)
    · refine .inr (.inr (.inr ?_))
      rw [rbAppend, if_neg hfull, readByte_cons hrest]
      dsimp only
      rw [if_pos rfl, storeByte, if_pos (by rw [passByte_cfg, passByte_pos]; exact Nat.le_of_lt hbeyond)]
  · exact .inr (.inr (.inl (rbAppend_of_not_oldest hfull hsrc)))

theorem rbHdr_cases (s : State) :
    (∃ c d, rbHdr s = .go { s with crcPos := c, draws := d }) ∨
      ∃ c d, rbHdr s = .done (.next (takeError c { s with draws := d })) := by
  obtain ⟨b1, s1, h1⟩ : ∃ b1 s1, bufRead 1 s = (b1, s1) := ⟨_, _, rfl⟩
  obtain ⟨b2, s2, h2⟩ : ∃ b2 s2, bufRead 2 s1 = (b2, s2) := ⟨_, _, rfl⟩
  by_cases htype : b1.toNat / 32 = 5
  · rw [rbHdr_of_bufRead h1 h2 htype, bufRead_eq h2, bufRead_eq h1]
    exact .inl ⟨_, _, rfl⟩
  · rw [rbHdr_of_bufRead_ne h1 htype, bufRead_eq h1]
    exact .inr ⟨_, _, rfl⟩

theorem rbEndB_cases (b : Byte) (s : State) :
    rbEndB b s = .done (.next (changeState .verify s)) ∨ ∃ c, rbEndB b s = .done (.next (takeError c s)) := by
  unfold rbEndB
  split
  · exact .inl rfl
  · exact .inr ⟨_, rfl⟩

/-- All that the action on an appended byte can do (R183 to R186): go on with another `crc_pos`, complete the frame, or raise. -/
theorem rbAction_cases (b : Byte) (s : State) :
    (∃ c d, rbAction b s = .go { s with crcPos := c, draws := d }) ∨
    rbAction b s = .done (.next (changeState .verify s)) ∨
    ∃ c d, rbAction b s = .done (.next (takeError c { s with draws := d })) := by
  unfold rbAction
  cases rbClass s.fmt s.pos s.crcPos b with
  | mark => exact .inl ⟨_, _, rfl⟩
  | hdr =>
    obtain hgo | hraise := rbHdr_cases s
    · exact .inl hgo
    · exact .inr (.inr hraise)
  | endA => exact .inr (.inl rfl)
  | endB =>
    obtain hend | ⟨c, hraise⟩ := rbEndB_cases b s
    · exact .inr (.inl hend)
    · exact .inr (.inr ⟨c, s.draws, hraise⟩)
  | data => exact .inl ⟨s.crcPos, s.draws, rfl⟩

/-! ## Rounds of reading -/

/-- A buffer written at or above `pos` and below the capacity `cap` only, as far as the position `pos'` (20_memory.md R63). -/
def WrittenFrom (cap pos pos' : Nat) (m m' : List Host.Cell) : Prop :=
  pos ≤ pos' ∧ (pos ≤ cap → pos' ≤ cap) ∧
    (Memory.wf m = true → Memory.wf m' = true ∧ ∀ a, a < pos ∨ cap ≤ a → Memory.read m' a = Memory.read m a)

theorem WrittenFrom.refl (cap pos : Nat) (m : List Host.Cell) : WrittenFrom cap pos pos m m :=
  ⟨le_refl _, id, fun hm => ⟨hm, fun _ _ => rfl⟩⟩

theorem WrittenFrom.trans {cap p q r : Nat} {m m' m'' : List Host.Cell} (h : WrittenFrom cap p q m m')
    (h' : WrittenFrom cap q r m' m'') : WrittenFrom cap p r m m'' := by
  obtain ⟨hpq, hcap, hm⟩ := h
  obtain ⟨hqr, hcap', hm'⟩ := h'
  refine ⟨hpq.trans hqr, fun hp => hcap' (hcap hp), fun hwf => ?_⟩
  obtain ⟨hwf', hread⟩ := hm hwf
  obtain ⟨hwf'', hread'⟩ := hm' hwf'
  exact ⟨hwf'', fun a ha => (hread' a (by omega)).trans (hread a ha)⟩

theorem writtenFrom_write {cap pos : Nat} (h : pos < cap) (m : List Host.Cell) (b : Byte) :
    WrittenFrom cap pos (pos + 1) m (Memory.write m pos b) := by
  refine ⟨Nat.le_succ _, fun _ => h, fun hm => ⟨Memory.wf_write pos b hm, fun a ha => ?_⟩⟩
  rw [Memory.read_write hm, if_neg (by omega)]

/-- What polls, reads and byte actions that go on may write; nobody is told anything. -/
def Reads (s t : State) : Prop :=
  ∃ pos crcPos buf src polls draws tr,
    t = { s with pos := pos, crcPos := crcPos, buf := buf, src := src, polls := polls, draws := draws, trace := tr } ∧
      SameNews s.trace tr ∧ WrittenFrom s.cfg.bufCap s.pos pos s.buf buf

theorem Reads.refl (s : State) : Reads s s := ⟨_, _, _, _, _, _, _, rfl, .refl _, .refl _ _ _⟩

theorem Reads.trans {s t u : State} (h : Reads s t) (h' : Reads t u) : Reads s u := by
  obtain ⟨pos, crcPos, buf, src, polls, draws, tr, rfl, hnews, hbuf⟩ := h
  obtain ⟨pos', crcPos', buf', src', polls', draws', tr', rfl, hnews', hbuf'⟩ := h'
  exact ⟨_, _, _, _, _, _, _, rfl, hnews.trans hnews', hbuf.trans hbuf'⟩

theorem reads_avail (s : State) : Reads s (avail s).2 := by
  obtain ⟨src, polls, h⟩ := avail_update s
  rw [h]
  exact ⟨_, _, _, _, _, _, _, rfl, .refl _, .refl _ _ _⟩

theorem reads_crcPos (s : State) (c : Int) (d : Nat) : Reads s { s with crcPos := c, draws := d } :=
  ⟨_, _, _, _, _, _, _, rfl, .refl _, .refl _ _ _⟩

/-- The byte read and forwarded. -/
theorem reads_passByte (b : Byte) (rest : List Byte) (s : State) : Reads s (passByte b { s with src := rest }) := by
  rw [passByte_eq]
  refine ⟨_, _, _, _, _, _, _, rfl, ?_, .refl _ _ _⟩
  apply sameNews_append <;> split <;> rfl

theorem reads_append {s : State} (hroom : s.pos < s.cfg.bufCap) (b : Byte) (rest : List Byte) :
    Reads s { s with
      src := rest, buf := Memory.write s.buf s.pos b, pos := s.pos + 1,
      trace := s.trace ++ (if s.cfg.passthrough then [.pass b] else []) } := by
  refine ⟨_, _, _, _, _, _, _, rfl, ?_, writtenFrom_write hroom _ _⟩
  apply sameNews_append <;> split <;> rfl

/-- How reading from `s` can stand after some rounds: going on, a frame complete, or an error taken. -/
def ReadsTo (s : State) : Flow → Prop
  | .go u => Reads s u
  | .done (.next t) => ∃ u, Reads s u ∧ (t = changeState .verify u ∨ ∃ c, t = takeError c u)
  | .done (.fault _) => True
  | .done (.refused _) => True

theorem ReadsTo.andThen {s : State} {x : Flow} {k : State → Flow} (hx : ReadsTo s x)
    (hk : ∀ u, Reads s u → ReadsTo u (k u)) : ReadsTo s (x.andThen k) := by
  cases x with
  | done o => exact hx
  | go u =>
    have hu := hk u hx
    rw [Flow.andThen_go]
    generalize k u = y at hu
    match y, hu with
    | .go v, hv => exact hx.trans hv
    | .done (.next t), ⟨v, hv, ht⟩ => exact ⟨v, hx.trans hv, ht⟩
    | .done (.fault _), _ => trivial
    | .done (.refused _), _ => trivial

theorem readsTo_rbAppend (b : Byte) (s : State) : ReadsTo s (rbAppend b s) := by
  obtain ⟨-, h⟩ | ⟨rest, -, hroom, h⟩ | h | h := rbAppend_cases b s <;> rw [h]
  · exact ⟨s, .refl s, .inr ⟨_, rfl⟩⟩
  · exact reads_append hroom b rest
  · trivial
  · trivial

theorem readsTo_rbAction (b : Byte) (s : State) : ReadsTo s (rbAction b s) := by
  obtain ⟨c, d, h⟩ | h | ⟨c, d, h⟩ := rbAction_cases b s <;> rw [h]
  · exact reads_crcPos s c d
  · exact ⟨s, .refl s, .inl rfl⟩
  · exact ⟨_, reads_crcPos s s.crcPos d, .inr ⟨c, rfl⟩⟩

theorem readsTo_readLoop (n : Nat) (s : State) : ReadsTo s (readLoop n s) := by
  induction n generalizing s with
  | zero => exact Reads.refl s
  | succ n ih =>
    have hpoll : ReadsTo s (.go (avail s).2) := reads_avail s
    cases ha : (avail s).1 with
    | false =>
      rw [readLoop_idle ha]
      exact hpoll
    | true =>
      obtain ⟨b, rest, hb⟩ := src_of_avail ha
      rw [readLoop_succ ha hb]
      exact hpoll.andThen (k := fun s1 => (rbAppend b s1).andThen fun s2 => (rbAction b s2).andThen (readLoop n))
        fun s1 _ => (readsTo_rbAppend b s1).andThen fun s2 _ => (readsTo_rbAction b s2).andThen fun s3 _ => ih s3

/-! ## The steps -/

/-- All that `STEP.READ` can answer: it has counted itself and read, and then stays, has a frame complete, or has raised. -/
theorem exec_stepRead_cases {s t : State} (h : exec .stepRead s = .next t) :
    ∃ u, Reads { s with nReadTicks := s.nReadTicks + 1 } u ∧
      (t = u ∨ t = changeState .verify u ∨ ∃ c, t = takeError c u) := by
  have hloop := readsTo_readLoop (arriving s + 1) { s with nReadTicks := s.nReadTicks + 1 }
  rw [exec_stepRead] at h
  generalize readLoop (arriving s + 1) { s with nReadTicks := s.nReadTicks + 1 } = x at h hloop
  match x, h, hloop with
  | .go u, h, hu =>
    obtain rfl := Host.Outcome.next.inj h
    refine ⟨u, hu, ?_⟩
    rw [readTimeout_eq]
    split
    · exact .inr (.inr ⟨_, rfl⟩)
    · exact .inl rfl
  | .done (.next v), h, ⟨u, hu, hv⟩ =>
    obtain rfl := Host.Outcome.next.inj h
    exact ⟨u, hu, .inr hv⟩

/-- A lead byte selects a format or raises (R93). -/
theorem lbAction_cases (b : Byte) (s : State) :
    (∃ f, lbAction b s = .go { s with fmt := f }) ∨ ∃ c, lbAction b s = .done (.next (takeError c s)) := by
  unfold lbAction
  cases leadClass b with
  | ascii => exact .inl ⟨_, rfl⟩
  | binary => exact .inl ⟨_, rfl⟩
  | illegal => exact .inr ⟨_, rfl⟩

/-- All that `STEP.IDENT` can answer: it stays or raises, or it stores a lead byte and answers as `STEP.READ` from there (R180). -/
theorem exec_stepIdent_cases {s t : State} (h : exec .stepIdent s = .next t) :
    (∃ u, Reads s u ∧ (t = u ∨ ∃ c, t = takeError c u)) ∨
      ∃ u f, Reads s u ∧ exec .stepRead { u with fmt := f, st := .read, tRead := u.now } = .next t := by
  have hpoll := reads_avail s
  cases ha : (avail s).1 with
  | false =>
    rw [exec_stepIdent_idle ha] at h
    obtain rfl := Host.Outcome.next.inj h
    refine .inl ⟨_, hpoll, ?_⟩
    split
    · exact .inr ⟨_, rfl⟩
    · exact .inl rfl
  | true =>
    obtain ⟨b, rest, hb⟩ := src_of_avail ha
    have hread := hpoll.trans (reads_passByte b rest (avail s).2)
    rw [exec_stepIdent_lead hb] at h
    generalize passByte b { (avail s).2 with src := rest } = v at h hread
    obtain ⟨f, hf⟩ | ⟨c, hc⟩ := lbAction_cases b v
    · rw [hf, Flow.andThen_go] at h
      rcases Nat.lt_or_ge v.pos v.cfg.bufCap with hroom | hbeyond
      · have hstore := storeByte_of_lt (b := b) (s := { v with fmt := f }) hroom
        rw [hstore] at h
        refine .inr ⟨{ v with buf := Memory.write v.buf v.pos b, pos := v.pos + 1 }, f, hread.trans ?_, h⟩
        exact ⟨_, _, _, _, _, _, _, rfl, .refl _, writtenFrom_write hroom _ _⟩
      · have hstore : storeByte b { v with fmt := f } = .done (.fault .writeBeyondCapacity) := if_pos hbeyond
        rw [hstore] at h
        cases h
    · rw [hc] at h
      obtain rfl := Host.Outcome.next.inj h
      exact .inl ⟨v, hread, .inr ⟨c, rfl⟩⟩

end Sys2Proof
end

section
/-! What verification and the two decoders may write: 42_frame_fsm.md R188 to R190, 43_ascii_parser.md R210 and 44_tlv_parser.md R230. -/

namespace Sys2Proof

open Sys2Proof.Machine

/-! ## STEP.VERIFY -/

/-- What a checksum over the buffer may write: the draws, and accumulators it leaves empty (R33). -/
def Checks (s u : State) : Prop :=
  ∃ a x d, u = { s with crcA := a, crcX := x, draws := d } ∧ (s.crcA = none → a = none) ∧ (s.crcX = none → x = none)

theorem verifyOutcome_cases (computed : Crc) (expected : Option Nat) (dest : Target) (s : State) :
    verifyOutcome computed expected dest s = changeState dest s ∨
      ∃ m d, verifyOutcome computed expected dest s = takeError .crc (emit (.diag m) { s with draws := d }) := by
  unfold verifyOutcome
  split
  · exact .inl rfl
  · refine .inr ⟨.crcMismatch computed expected (bufReads s.pos 0 s).1, (bufReads s.pos 0 s).2.draws, ?_⟩
    dsimp only
    rw [← bufReads_snd]

/-- All that `STEP.VERIFY` can answer: the processing state of the format, or EC_CRC behind one dump (R190). -/
theorem exec_stepVerify_cases {s t : State} (h : exec .stepVerify s = .next t) :
    ∃ u, Checks s u ∧ ((s.fmt = .ascii ∧ t = changeState .pascii u) ∨ (s.fmt = .binary ∧ t = changeState .pbin u) ∨
      ∃ m, t = takeError .crc (emit (.diag m) u)) := by
  change stepVerify s = _ at h
  rw [stepVerify] at h
  split at h
  · cases h
  cases hfmt : s.fmt with
  | none => rw [hfmt] at h; cases h
  | ascii =>
    rw [hfmt] at h
    simp only [verifyAscii, crcaRange_eq_bufReads] at h
    split at h
    · cases h
    obtain rfl := Host.Outcome.next.inj h
    refine (verifyOutcome_cases _ _ _ _).elim (fun hok => ⟨_, ⟨_, _, _, rfl, fun _ => rfl, id⟩, .inl ⟨rfl, hok⟩⟩) ?_
    rintro ⟨m, d, hraise⟩
    exact ⟨_, ⟨_, _, _, rfl, fun _ => rfl, id⟩, .inr (.inr ⟨m, hraise⟩)⟩
  | binary =>
    rw [hfmt] at h
    change verifyBinary s = _ at h
    simp only [verifyBinary, crcxRange_eq_bufReads] at h
    obtain rfl := Host.Outcome.next.inj h
    rw [bufRead_snd (s.crcPos.toNat + 1), bufRead_snd s.crcPos.toNat]
    refine (verifyOutcome_cases _ _ _ _).elim
      (fun hok => ⟨_, ⟨_, _, _, rfl, id, fun _ => rfl⟩, .inr (.inl ⟨rfl, hok⟩)⟩) ?_
    rintro ⟨m, d, hraise⟩
    exact ⟨_, ⟨_, _, _, rfl, id, fun _ => rfl⟩, .inr (.inr ⟨m, hraise⟩)⟩

/-! ## STEP.PASCII -/

/-- What lines may write: the cursor, the answers of `yield()` used, and events that notify nobody. -/
def Lines (s u : State) : Prop :=
  ∃ cur ys tr, u = { s with cur := cur, yields := ys, trace := tr } ∧ notifications tr = notifications s.trace

theorem Lines.trans {s u v : State} (h : Lines s u) (h' : Lines u v) : Lines s v := by
  obtain ⟨cur, ys, tr, rfl, hn⟩ := h
  obtain ⟨cur', ys', tr', rfl, hn'⟩ := h'
  exact ⟨_, _, _, rfl, hn'.trans hn⟩

theorem notifications_dispatchEvent (s : State) (k : Code) (v : Rat) : notifications [dispatchEvent s k v] = [] := by
  unfold dispatchEvent
  split <;> rfl

theorem notifications_lineEvent (s : State) (line : List Byte) : notifications [lineEvent s line] = [] := by
  unfold lineEvent
  split
  · exact notifications_dispatchEvent _ _ _
  · rfl

theorem lines_afterLine (s : State) (c e cur : Nat) (ys : List Bool) :
    Lines s { afterLine s c e with cur := cur, yields := ys } := by
  refine ⟨cur, ys, _, rfl, ?_⟩
  have hline : notifications (if c = e then [] else [lineEvent s (s.bytes c e)]) = [] := by
    split
    · rfl
    · exact notifications_lineEvent s _
  simp only [afterLine, notifications_append, hline, List.append_nil]

theorem Lines.count {s u : State} (h : Lines s u) (n : Nat) :
    Lines { s with nProcTicks := n } { u with nProcTicks := n } := by
  obtain ⟨cur, ys, tr, rfl, hn⟩ := h
  exact ⟨cur, ys, tr, rfl, hn⟩

/-- All that `STEP.PASCII` can answer: it has counted itself and handled lines, and then stays or goes to WAITING (R210). -/
theorem exec_stepPascii_cases {s t : State} (h : exec .stepPascii s = .next t) :
    ∃ u, Lines { s with nProcTicks := s.nProcTicks + 1 } u ∧ (t = u ∨ t = changeState .wait u) := by
  induction hk : s.cfg.bufCap - s.cur using Nat.strong_induction_on generalizing s with
  | _ k ih =>
    cases hspan : nextSpan s with
    | none => rw [exec_stepPascii_of_none hspan] at h; cases h
    | some p =>
      obtain ⟨c, e⟩ := p
      cases hend : isEndMark (s.at e) with
      | true =>
        rw [exec_stepPascii_end hspan hend, exec_lnEnd] at h
        obtain rfl := Host.Outcome.next.inj h
        exact ⟨_, (lines_afterLine s c e c s.yields).count (s.nProcTicks + 1), .inr rfl⟩
      | false =>
        obtain ⟨hcur, hcap⟩ := nextSpan_bounds hspan
        have hline := lines_afterLine s c e (e + 1) s.yields.tail
        rw [exec_stepPascii_go hspan hend] at h
        split at h
        · obtain rfl := Host.Outcome.next.inj h
          exact ⟨_, hline.count (s.nProcTicks + 1), .inl rfl⟩
        · obtain ⟨u, hu, ht⟩ := ih (s.cfg.bufCap - (e + 1)) (by omega) h rfl
          exact ⟨u, (hline.count (s.nProcTicks + 1)).trans hu, ht⟩

/-! ## STEP.PBIN -/

/-- What elements may write: the cursor, the current code, the answers used, the draws, and events that notify nobody. -/
def Elements (s u : State) : Prop :=
  ∃ cur code ys draws tr, u = { s with cur := cur, curCode := code, yields := ys, draws := draws, trace := tr } ∧
    notifications tr = notifications s.trace

theorem Elements.trans {s u v : State} (h : Elements s u) (h' : Elements u v) : Elements s v := by
  obtain ⟨cur, code, ys, draws, tr, rfl, hn⟩ := h
  obtain ⟨cur', code', ys', draws', tr', rfl, hn'⟩ := h'
  exact ⟨_, _, _, _, _, rfl, hn'.trans hn⟩

theorem Elements.inTick {s u : State} (h : Elements s u) (n : Nat) (ys zs : List Bool) :
    Elements (inTick n ys s) (inTick n zs u) := by
  obtain ⟨cur, code, ys', draws, tr, rfl, hn⟩ := h
  exact ⟨cur, code, zs, draws, tr, rfl, hn⟩

/-- An element is at most a tag, a length byte and 255 bytes long, and notifies nobody. -/
theorem tlvAction_go {tag : Byte} {s t : State} (h : tlvAction tag s = .go t) :
    t.cur ≤ s.cur + 257 ∧ notifications t.trace = notifications s.trace := by
  have hstring : ∀ u : State, u = tString s → u.cur ≤ s.cur + 257 ∧ notifications u.trace = notifications s.trace := by
    rintro u rfl
    have := (bufRead (s.cur + 1) s).1.isLt
    rw [tString_eq]
    exact ⟨by simp only; omega, rfl⟩
  have hvalue : ∀ (k : Code) (v : Rat), notifications (s.trace ++ [dispatchEvent s k v]) = notifications s.trace := by
    intro k v
    rw [notifications_append, notifications_dispatchEvent, List.append_nil]
  unfold tlvAction at h
  cases htag : tlvTag tag with
  | null | array | struct | datetime | scalunit | enum =>
    rw [htag] at h
    obtain rfl := Flow.go.inj h
    exact ⟨Nat.add_le_add_left (by decide) _, rfl⟩
  | string =>
    rw [htag] at h
    exact hstring t (Flow.go.inj h).symm
  | octet =>
    rw [htag] at h
    obtain rfl := Flow.go.inj h
    by_cases hlen : (bufRead (s.cur + 1) s).1 = 6#8
    · rw [tOctet_of_eq hlen, rememberCode_eq, bufRead_snd]
      exact ⟨Nat.add_le_add_left (by decide) _, rfl⟩
    · exact hstring _ (tOctet_of_ne hlen)
  | u32 =>
    rw [htag] at h
    obtain rfl := Flow.go.inj h
    rw [tU32_eq]
    exact ⟨Nat.add_le_add_left (by decide) _, hvalue _ _⟩
  | u16 =>
    rw [htag] at h
    obtain rfl := Flow.go.inj h
    rw [tU16_eq]
    exact ⟨Nat.add_le_add_left (by decide) _, hvalue _ _⟩
  | s16 =>
    rw [htag] at h
    obtain rfl := Flow.go.inj h
    rw [tS16_eq]
    exact ⟨Nat.add_le_add_left (by decide) _, hvalue _ _⟩
  | illegal =>
    rw [htag] at h
    cases h

theorem elementAtCursor_go {s t : State} (h : elementAtCursor s = .go t) :
    Elements s t ∧ s.cur < t.cur ∧ t.cur ≤ s.cur + 257 ∧ t.crcPos = s.crcPos := by
  obtain ⟨t', ht', cur, code, draws, tr, hcur, rfl⟩ | ⟨c, d, hraise⟩ := elementAtCursor_cases s
  · obtain rfl := Flow.go.inj (ht'.symm.trans h)
    rw [elementAtCursor] at h
    obtain ⟨hbound, hn⟩ := tlvAction_go h
    rw [bufRead_snd] at hbound hn
    exact ⟨⟨cur, code, s.yields, draws, tr, rfl, hn⟩, hcur, hbound, rfl⟩
  · cases hraise.symm.trans h

theorem controlScan_cur_le (k : Nat) (s : State) : s.cur ≤ (controlScan k s).cur := by
  induction k generalizing s with
  | zero => exact le_refl _
  | succ k ih =>
    rw [controlScan]
    split
    · rw [bufRead_snd]
    · refine Nat.le_trans ?_ (ih (advance 1 (bufRead s.cur s).2))
      rw [bufRead_snd]
      exact Nat.le_succ _

/-- The location skips the header from a control byte inside the frame, or raises (R231). -/
theorem locateFirst_frame (s : State) :
    (∃ c d, locateFirst s = .go { s with cur := c + 6, draws := d } ∧ 3 ≤ c ∧ (c : Int) < s.crcPos) ∨
      ∃ c d, locateFirst s = .done (.next (takeError .hdrCtrl { s with cur := c, draws := d })) := by
  obtain ⟨c, d, hscan⟩ := controlScan_eq (s.crcPos - 3).toNat { s with cur := 3 }
  have hcur := controlScan_cur_le (s.crcPos - 3).toNat { s with cur := 3 }
  rw [hscan] at hcur
  rw [locateFirst_eq, hscan]
  rcases lt_or_ge (c : Int) s.crcPos with hlt | hend
  · exact .inl ⟨c, d, behindScan_of_lt hlt, hcur, hlt⟩
  · exact .inr ⟨c, d, behindScan_of_le hend⟩

/-- Where the cursor of the binary decoder stands between two ticks (10_state.md R37): not yet located, or at an offset no element
of a frame of 13-bit length carries it past. -/
def CursorInv (cur : Nat) : Prop := (cur = 0 ∨ 9 ≤ cur) ∧ cur ≤ 8446

/-- How a tick of `STEP.PBIN` from `s` can end behind the elements that led to `u`. -/
def PbinEnds (s u : State) (o : Out) : Prop :=
  (o = .next u ∧ (s.crcPos ≤ 8190 → CursorInv s.cur → CursorInv u.cur)) ∨
    o = .next (changeState .wait u) ∨ ∃ c, o = .next (takeError c u)

theorem exec_stepPbin_cases_of_located {s : State} (hcur : s.cur ≠ 0) (n : Nat) (ys : List Bool) :
    ∃ u, Elements (inTick (n + 1) ys s) u ∧ PbinEnds s u (exec .stepPbin (inTick n ys s)) := by
  induction hk : (s.crcPos - s.cur).toNat using Nat.strong_induction_on generalizing s ys with
  | _ k ih =>
    have hself : Elements s s := ⟨_, _, _, _, _, rfl, rfl⟩
    rcases lt_or_ge (s.cur : Int) s.crcPos with hlt | hend
    · obtain ⟨v, hv, -⟩ | ⟨c, d, hraise⟩ := elementAtCursor_cases s
      · obtain ⟨helem, hmove, hbound, hcrc⟩ := elementAtCursor_go hv
        have hkept : s.crcPos ≤ 8190 → CursorInv s.cur → CursorInv v.cur := by
          rintro hcrc' ⟨hloc, -⟩
          exact ⟨by omega, by omega⟩
        rw [exec_stepPbin_go n ys hcur hlt hv]
        cases hyield : ys.headD false with
        | true => exact ⟨_, helem.inTick (n + 1) ys ys.tail, .inl ⟨rfl, hkept⟩⟩
        | false =>
          obtain ⟨u, hu, hend⟩ := ih _ (by omega) (by omega : v.cur ≠ 0) ys.tail rfl
          refine ⟨u, (helem.inTick (n + 1) ys ys.tail).trans hu, hend.imp_left ?_⟩
          rintro ⟨ho, hrest⟩
          exact ⟨ho, fun hcrc' hinv => hrest (hcrc.trans_le hcrc') (hkept hcrc' hinv)⟩
      · rw [exec_stepPbin_raise n ys hcur hlt hraise, ← takeError_inTick]
        exact ⟨_, ⟨s.cur, s.curCode, ys, d, s.trace, rfl, rfl⟩, .inr (.inr ⟨c, rfl⟩)⟩
    · rw [exec_stepPbin_end n ys hcur hend]
      exact ⟨_, hself.inTick (n + 1) ys ys, .inr (.inl rfl)⟩

/-- All that `STEP.PBIN` can answer, in every state: it has counted itself and handled elements, and then stays, goes to WAITING, or has
raised (R230). -/
theorem exec_stepPbin_cases (s : State) :
    ∃ u, Elements { s with nProcTicks := s.nProcTicks + 1 } u ∧ PbinEnds s u (exec .stepPbin s) := by
  by_cases hcur : s.cur = 0
  · obtain ⟨c, d, hgo, h3, hlt⟩ | ⟨c, d, hraise⟩ := locateFirst_frame s
    · obtain ⟨u, hu, hend⟩ :=
        exec_stepPbin_cases_of_located (s := { s with cur := c + 6, draws := d }) (Nat.succ_ne_zero _) s.nProcTicks s.yields
      rw [← exec_stepPbin_locate s.nProcTicks s.yields hcur hgo (Nat.succ_ne_zero _)] at hend
      have hfirst : Elements { s with nProcTicks := s.nProcTicks + 1 }
          (inTick (s.nProcTicks + 1) s.yields { s with cur := c + 6, draws := d }) := ⟨_, _, _, _, _, rfl, rfl⟩
      refine ⟨u, hfirst.trans hu, hend.imp_left ?_⟩
      rintro ⟨ho, hrest⟩
      exact ⟨ho, fun hcrc _ => hrest hcrc ⟨.inr (by simp only; omega), by simp only; omega⟩⟩
    · have hnone := exec_stepPbin_noHeader s.nProcTicks s.yields hcur hraise
      rw [← takeError_inTick] at hnone
      exact ⟨_, ⟨c, s.curCode, s.yields, d, s.trace, rfl, rfl⟩, .inr (.inr ⟨_, hnone⟩)⟩
  · exact exec_stepPbin_cases_of_located hcur s.nProcTicks s.yields

/-- Settles O49: elements write the decoder's registers, and each way to end adds `st`, `t_err` and events. -/
theorem binaryProcessingAlwaysCompletes : Obligations.BinaryProcessingAlwaysCompletes := by
  intro s
  obtain ⟨u, ⟨cur, code, ys, draws, tr, rfl, -⟩, ⟨hend, -⟩ | hend | ⟨c, hend⟩⟩ := exec_stepPbin_cases s
  · exact ⟨_, hend, .inl rfl, rfl⟩
  · rw [changeState_wait] at hend
    exact ⟨_, hend, .inr (.inl rfl), rfl⟩
  · rw [takeError_eq] at hend
    exact ⟨_, hend, .inr (.inr rfl), rfl⟩

/-! ## The element at the cursor -/

/-- A supported tag's handler goes on (R233 to R243). -/
theorem exists_tlvAction_go {tag : Byte} (h : tlvTag tag ≠ .illegal) (s : State) : ∃ v, tlvAction tag s = .go v := by
  unfold tlvAction
  cases htag : tlvTag tag with
  | illegal => exact absurd htag h
  | _ => exact ⟨_, rfl⟩

/-- Settles O9: the end test, the handler's state in the tick that counted itself, and the raise. -/
theorem processingTickRunsTheElementAtTheCursor : Obligations.ProcessingTickRunsTheElementAtTheCursor := by
  refine ⟨fun s hcur hend => ?_, fun s t hcur hlt hcap htag ht => ?_, fun s hcur hlt hcap htag => ?_⟩
  · have hstep := exec_stepPbin_end s.nProcTicks s.yields (by omega) hend
    rw [changeState_wait] at hstep
    exact hstep
  · have hcur' : s.cur ≠ 0 := by omega
    obtain ⟨v, hv⟩ := exists_tlvAction_go htag s
    have helem : elementAtCursor s = .go v := by rw [elementAtCursor, bufRead_of_lt hcap, hv]
    have hstep : exec .stepPbin s = _ := exec_stepPbin_go s.nProcTicks s.yields hcur' hlt helem
    have htick := tlvAction_inTick (s.nProcTicks + 1) s.yields s (s.at s.cur)
    rw [hv] at htick
    rw [← tlvAction_out] at ht
    obtain rfl := Host.Outcome.next.inj ((congrArg Flow.out htick).symm.trans ht)
    refine ⟨fun ys hys => ?_, fun ys hys => ?_, fun hys => ?_⟩
    · rw [hstep, hys]
      rfl
    · rw [hstep, hys]
      rfl
    · rw [hstep, hys]
      rfl
  · have helem : elementAtCursor s = .done (.next (takeError (.tag (s.at s.cur) s.cur) s)) := by
      rw [elementAtCursor, bufRead_of_lt hcap, tlvAction, htag]
      rfl
    have hstep := exec_stepPbin_raise s.nProcTicks s.yields (by omega) hlt helem
    rw [← takeError_inTick] at hstep
    exact hstep

end Sys2Proof
end

section
/-! The whole-machine rules: what every operation keeps (10_state.md R34, R37, 20_memory.md R78), and how a tick changes the state and
notifies of it (42_frame_fsm.md R193, 60_exceptions.md R283). -/

namespace Sys2Proof

open Sys2Proof.Machine

/-! ## The frames of the steps -/

theorem exec_stepRead_frame {s t : State} (h : exec .stepRead s = .next t) :
    t = { s with
      st := t.st, pos := t.pos, crcPos := t.crcPos, tErr := t.tErr, buf := t.buf,
      nReadTicks := s.nReadTicks + 1, src := t.src, polls := t.polls, draws := t.draws, trace := t.trace } := by
  obtain ⟨u, ⟨pos, crcPos, buf, src, polls, draws, tr, rfl, -, -⟩, rfl | rfl | ⟨c, rfl⟩⟩ := exec_stepRead_cases h
  · rfl
  · rw [changeState_verify]
  · rw [takeError_eq]

theorem exec_stepIdent_frame {s t : State} (h : exec .stepIdent s = .next t) :
    t = { s with
      st := t.st, fmt := t.fmt, pos := t.pos, crcPos := t.crcPos, tRead := t.tRead, tErr := t.tErr, buf := t.buf,
      nReadTicks := t.nReadTicks, src := t.src, polls := t.polls, draws := t.draws, trace := t.trace } := by
  obtain ⟨u, ⟨pos, crcPos, buf, src, polls, draws, tr, rfl, -, -⟩, rfl | ⟨c, rfl⟩⟩ | ⟨u, f, hu, hread⟩ :=
    exec_stepIdent_cases h
  · rfl
  · rw [takeError_eq]
  · obtain ⟨pos, crcPos, buf, src, polls, draws, tr, rfl, -, -⟩ := hu
    rw [exec_stepRead_frame hread]

theorem exec_stepVerify_frame {s t : State} (hA : s.crcA = none) (hX : s.crcX = none) (h : exec .stepVerify s = .next t) :
    t = { s with st := t.st, tErr := t.tErr, draws := t.draws, trace := t.trace } := by
  obtain ⟨u, ⟨a, x, d, rfl, ha, hx⟩, hend⟩ := exec_stepVerify_cases h
  obtain rfl : a = s.crcA := (ha hA).trans hA.symm
  obtain rfl : x = s.crcX := (hx hX).trans hX.symm
  obtain ⟨-, rfl⟩ | ⟨-, rfl⟩ | ⟨m, rfl⟩ := hend
  · rfl
  · rfl
  · rw [takeError_eq, emit]

theorem exec_stepPascii_frame {s t : State} (h : exec .stepPascii s = .next t) :
    t = { s with
      st := t.st, cur := t.cur, nProcTicks := s.nProcTicks + 1, yields := t.yields, trace := t.trace } := by
  obtain ⟨u, ⟨cur, ys, tr, rfl, -⟩, rfl | rfl⟩ := exec_stepPascii_cases h
  · rfl
  · rw [changeState_wait]

/-- Settles O56, step by step. -/
theorem stepsWriteOnlyTheirRegisters : Obligations.StepsWriteOnlyTheirRegisters :=
  ⟨fun _ _ => exec_stepIdent_frame, fun _ _ => exec_stepRead_frame, fun _ _ => exec_stepVerify_frame,
    fun _ _ => exec_stepPascii_frame⟩

/-! ## The operations of the function units -/

/-- What a function-unit operation may write (R113): the result port, the registry before the first tick, the draws, and events that
tell the listeners nothing. -/
def HostCall (s t : State) : Prop :=
  ∃ a x d r reg tr, t = { s with crcA := a, crcX := x, draws := d, result := r, registry := reg, trace := tr } ∧
    (s.crcA = none → a = none) ∧ (s.crcX = none → x = none) ∧ SameNews s.trace tr ∧
    (s.ticked = true → reg = s.registry) ∧ (Registry.wf s.registry = true → Registry.wf reg = true) ∧
    Registry.find reg Config.obisInvalid = Registry.find s.registry Config.obisInvalid

theorem hostCall_result (s : State) (r : FuResult) : HostCall s { s with result := r } :=
  ⟨_, _, _, _, _, _, rfl, id, id, .refl _, fun _ => rfl, id, rfl⟩

theorem sameNews_obisText (tr : List Event) : SameNews tr (tr ++ [.diag (.error .obisText)]) :=
  sameNews_append tr rfl rfl

theorem hostCall_obisParse (text : List Byte) {s t : State} (h : exec (.obisParse text) s = .next t) : HostCall s t := by
  cases hparse : parseObisText text with
  | none =>
    rw [exec_obisParse_of_none hparse] at h
    obtain rfl := Host.Outcome.next.inj h
    exact ⟨_, _, _, _, _, _, rfl, id, id, sameNews_obisText _, fun _ => rfl, id, rfl⟩
  | some c =>
    rw [exec_obisParse_of_some hparse] at h
    obtain rfl := Host.Outcome.next.inj h
    exact hostCall_result s _

/-- A registration is never at the sentinel (R155). -/
theorem hostCall_regAdd (text : List Byte) (k : Nat) {s t : State} (h : exec (.regAdd text k) s = .next t) :
    HostCall s t := by
  cases hs : s.ticked with
  | true =>
    have hrefused : exec (.regAdd text k) s = .refused .registrationAfterFirstTick := if_pos hs
    rw [hrefused] at h
    cases h
  | false =>
    rw [exec_regAdd_of_not_ticked hs] at h
    obtain rfl := Host.Outcome.next.inj h
    by_cases hcode : obisTextCode text = Config.obisInvalid
    · rw [if_pos hcode, hcode, registryAdd_obisInvalid, emit]
      exact ⟨_, _, _, _, _, _, rfl, id, id, sameNews_obisText _, fun _ => rfl, id, rfl⟩
    · rw [if_neg hcode, registryAdd_of_ne hcode]
      refine ⟨_, _, _, _, _, _, rfl, id, id, .refl _, fun hticked => ?_, Registry.wf_insert _ _, ?_⟩
      · rw [hs] at hticked
        cases hticked
      · rw [Registry.find_insert, if_neg (Ne.symm hcode)]

theorem hostCall_exec {i : Instr} {s t : State} (hfu : Laws.tableFormat i = .fu) (h : exec i s = .next t) :
    HostCall s t := by
  cases i with
  | crcaUpd | crcxUpd | obisPack | obisUnpk | regLookup =>
    obtain rfl := Host.Outcome.next.inj h
    exact hostCall_result s _
  | crcaRng lo hi =>
    rw [exec_crcaRng_of_range (crcaRange_eq_bufReads lo hi s)] at h
    obtain rfl := Host.Outcome.next.inj h
    exact ⟨_, _, _, _, _, _, rfl, fun _ => rfl, id, .refl _, fun _ => rfl, id, rfl⟩
  | crcxRng lo hi =>
    rw [exec_crcxRng_of_range (crcxRange_eq_bufReads lo hi s)] at h
    obtain rfl := Host.Outcome.next.inj h
    exact ⟨_, _, _, _, _, _, rfl, id, fun _ => rfl, .refl _, fun _ => rfl, id, rfl⟩
  | obisParse text => exact hostCall_obisParse text h
  | regAdd text k => exact hostCall_regAdd text k h
  | _ => cases hfu

/-- The decoder of format `FU` selects operations of that format (R113). -/
theorem tableFormat_of_decode_fu {index : BitVec 4} {args : FuArgs} {i : Instr} (h : decode (.fu index args) = .ok i) :
    Laws.tableFormat i = .fu := by
  simp only [decode, decodeFu] at h
  split at h <;> cases h <;> rfl

/-! ## The buffer and the deliveries -/

/-- The buffer, its capacity and its position as they were, or the position back at 0 (R172). -/
def KeepsBuffer (s t : State) : Prop := t.buf = s.buf ∧ t.cfg = s.cfg ∧ (t.pos = s.pos ∨ t.pos = 0)

/-- Nothing written to the buffer and nothing delivered. -/
def KeepsQuiet (s t : State) : Prop := KeepsBuffer s t ∧ deliveries t.trace = deliveries s.trace

theorem KeepsBuffer.of_eq {s t : State} (hbuf : t.buf = s.buf) (hcfg : t.cfg = s.cfg) (hpos : t.pos = s.pos) :
    KeepsBuffer s t :=
  ⟨hbuf, hcfg, .inl hpos⟩

theorem KeepsBuffer.trans {s t u : State} (h : KeepsBuffer s t) (h' : KeepsBuffer t u) : KeepsBuffer s u := by
  obtain ⟨hbuf, hcfg, hpos⟩ := h
  obtain ⟨hbuf', hcfg', hpos'⟩ := h'
  refine ⟨hbuf'.trans hbuf, hcfg'.trans hcfg, ?_⟩
  omega

theorem keepsQuiet_refl (s : State) : KeepsQuiet s s := ⟨.of_eq rfl rfl rfl, rfl⟩

theorem KeepsQuiet.trans {s t u : State} (h : KeepsQuiet s t) (h' : KeepsQuiet t u) : KeepsQuiet s u :=
  ⟨h.1.trans h'.1, h'.2.trans h.2⟩

/-- The entry actions write no byte and deliver nothing (R172 to R178). -/
theorem keepsQuiet_changeState (n : Target) (s : State) : KeepsQuiet s (changeState n s) := by
  have hquiet : ∀ es, deliveries es = [] → deliveries (s.trace ++ es) = deliveries s.trace := by
    intro es hes
    rw [deliveries_append, hes, List.append_nil]
  cases n with
  | ident => exact ⟨⟨rfl, rfl, .inr rfl⟩, hquiet _ rfl⟩
  | verify => exact ⟨.of_eq rfl rfl rfl, hquiet _ rfl⟩
  | read | pascii | pbin => exact ⟨.of_eq rfl rfl rfl, rfl⟩
  | wait =>
    rw [changeState_wait]
    refine ⟨.of_eq rfl rfl rfl, hquiet _ ?_⟩
    split <;> rfl
  | err c =>
    change KeepsQuiet s (takeError c s)
    rw [takeError_eq]
    exact ⟨.of_eq rfl rfl rfl, hquiet _ rfl⟩

theorem keepsQuiet_takeError (c : Cause) (s : State) : KeepsQuiet s (takeError c s) := keepsQuiet_changeState (.err c) s

theorem keepsQuiet_diag (m : Diag) (s : State) : KeepsQuiet s (emit (.diag m) s) := by
  refine ⟨.of_eq rfl rfl rfl, ?_⟩
  rw [emit_trace, deliveries_append]
  exact List.append_nil _

theorem keepsQuiet_flushDlog (s : State) : KeepsQuiet s (flushDlog s) := by
  rw [flushDlog_eq]
  refine ⟨.of_eq rfl rfl rfl, ?_⟩
  rw [deliveries_append]
  split <;> exact List.append_nil _

theorem HostCall.keepsQuiet {s t : State} (h : HostCall s t) : KeepsQuiet s t := by
  obtain ⟨a, x, d, r, reg, tr, rfl, -, -, ⟨-, hdel⟩, -⟩ := h
  exact ⟨.of_eq rfl rfl rfl, hdel⟩

theorem Discards.keepsQuiet {s t : State} (h : Discards s t) : KeepsQuiet s t := by
  obtain ⟨dlog, src, polls, tr, rfl, ⟨-, hdel⟩, -⟩ := h
  exact ⟨.of_eq rfl rfl rfl, hdel⟩

theorem Checks.keepsQuiet {s t : State} (h : Checks s t) : KeepsQuiet s t := by
  obtain ⟨a, x, d, rfl, -, -⟩ := h
  exact ⟨.of_eq rfl rfl rfl, rfl⟩

/-- The operations that decode values (10_state.md R37 (5)). -/
def Decodes (i : Instr) : Prop :=
  i = .stepPascii ∨ i = .stepPbin ∨ i = .tU32 ∨ i = .tU16 ∨ i = .tS16 ∨ ∃ a b c v, i = .lnMeas a b c v

/-- The operations that store bytes (20_memory.md R78). -/
def Stores (i : Instr) : Prop := i = .stepIdent ∨ i = .stepRead ∨ ∃ b, i = .rbAppend b

/-- What an operation that stores no byte keeps: the buffer, and the deliveries unless it decodes values. -/
def Keeps (i : Instr) (s t : State) : Prop := KeepsBuffer s t ∧ (Decodes i ∨ deliveries t.trace = deliveries s.trace)

theorem KeepsQuiet.keeps {s t : State} (h : KeepsQuiet s t) (i : Instr) : Keeps i s t := ⟨h.1, .inr h.2⟩

section
variable {i : Instr} {s t : State} (h : exec i s = .next t)
include h

theorem keeps_st (hfmt : Laws.tableFormat i = .st) (hstores : ¬ Stores i) : Keeps i s t := by
  cases i with
  | stepIdent => exact absurd (.inl rfl) hstores
  | stepRead => exact absurd (.inr (.inl rfl)) hstores
  | stepVerify =>
    obtain ⟨u, hu, ⟨-, rfl⟩ | ⟨-, rfl⟩ | ⟨m, rfl⟩⟩ := exec_stepVerify_cases h
    · exact (hu.keepsQuiet.trans (keepsQuiet_changeState .pascii u)).keeps _
    · exact (hu.keepsQuiet.trans (keepsQuiet_changeState .pbin u)).keeps _
    · exact (hu.keepsQuiet.trans ((keepsQuiet_diag m u).trans (keepsQuiet_takeError .crc _))).keeps _
  | stepErr =>
    obtain ⟨u, hu, hend⟩ := exec_stepErr_cases s
    rw [h] at hend
    obtain hend | hend | hend := hend <;> obtain rfl := Host.Outcome.next.inj hend
    · exact hu.keepsQuiet.keeps _
    · exact (hu.keepsQuiet.trans ((keepsQuiet_flushDlog u).trans (keepsQuiet_changeState .wait _))).keeps _
    · exact hu.keepsQuiet.keeps _
  | stepWait =>
    rw [exec_stepWait] at h
    obtain rfl := Host.Outcome.next.inj h
    refine KeepsQuiet.keeps ?_ _
    split
    · exact keepsQuiet_changeState .ident s
    · exact keepsQuiet_refl s
  | stepPascii =>
    refine ⟨?_, .inl (.inl rfl)⟩
    obtain ⟨u, ⟨cur, ys, tr, rfl, -⟩, rfl | rfl⟩ := exec_stepPascii_cases h
    · exact .of_eq rfl rfl rfl
    · exact (keepsQuiet_changeState .wait _).1
  | stepPbin =>
    refine ⟨?_, .inl (.inr (.inl rfl))⟩
    obtain ⟨u, ⟨cur, code, ys, d, tr, rfl, -⟩, hend⟩ := exec_stepPbin_cases s
    rw [h] at hend
    obtain ⟨hend, -⟩ | hend | ⟨c, hend⟩ := hend <;> obtain rfl := Host.Outcome.next.inj hend
    · exact .of_eq rfl rfl rfl
    · exact (keepsQuiet_changeState .wait _).1
    · exact (keepsQuiet_takeError c _).1
  | _ => cases hfmt

theorem keeps_lb (hfmt : Laws.tableFormat i = .lb) : Keeps i s t := by
  cases i with
  | lbAscii | lbBinary =>
    obtain rfl := Host.Outcome.next.inj h
    exact KeepsQuiet.keeps ⟨.of_eq rfl rfl rfl, rfl⟩ _
  | lbIllegal b =>
    obtain rfl := Host.Outcome.next.inj h
    exact (keepsQuiet_takeError (.lead b) s).keeps _
  | _ => cases hfmt

theorem keeps_rb (hfmt : Laws.tableFormat i = .rb) (hstores : ¬ Stores i) : Keeps i s t := by
  cases i with
  | rbAppend b => exact absurd (.inr (.inr ⟨b, rfl⟩)) hstores
  | rbMark =>
    obtain rfl := Host.Outcome.next.inj h
    exact KeepsQuiet.keeps ⟨.of_eq rfl rfl rfl, rfl⟩ _
  | rbHdr b =>
    rw [exec_rbHdr] at h
    obtain ⟨c, d, hgo⟩ | ⟨c, d, hraise⟩ := rbHdr_cases s
    · rw [hgo] at h
      obtain rfl := Host.Outcome.next.inj h
      exact KeepsQuiet.keeps ⟨.of_eq rfl rfl rfl, rfl⟩ _
    · rw [hraise] at h
      obtain rfl := Host.Outcome.next.inj h
      exact (keepsQuiet_takeError c { s with draws := d }).keeps _
  | rbEndA =>
    obtain rfl := Host.Outcome.next.inj h
    exact (keepsQuiet_changeState .verify s).keeps _
  | rbEndB b =>
    rw [exec_rbEndB] at h
    obtain rfl := Host.Outcome.next.inj h
    refine KeepsQuiet.keeps ?_ _
    split
    · exact keepsQuiet_changeState .verify s
    · exact keepsQuiet_takeError (.hdrEnd b) s
  | _ => cases hfmt

theorem keeps_tlv (hfmt : Laws.tableFormat i = .tlv) : Keeps i s t := by
  have hstring : KeepsQuiet s (tString s) := by
    rw [tString_eq]
    exact ⟨.of_eq rfl rfl rfl, rfl⟩
  cases i with
  | tNull | tArray | tStruct | tScalunit | tEnum | tDatetime =>
    obtain rfl := Host.Outcome.next.inj h
    exact KeepsQuiet.keeps ⟨.of_eq rfl rfl rfl, rfl⟩ _
  | tString =>
    obtain rfl := Host.Outcome.next.inj h
    exact hstring.keeps _
  | tOctet =>
    obtain rfl := Host.Outcome.next.inj h
    by_cases hlen : (bufRead (s.cur + 1) s).1 = 6#8
    · rw [tOctet_of_eq hlen, rememberCode_eq, bufRead_snd]
      exact KeepsQuiet.keeps ⟨.of_eq rfl rfl rfl, rfl⟩ _
    · rw [tOctet_of_ne hlen]
      exact hstring.keeps _
  | tU32 =>
    obtain rfl := Host.Outcome.next.inj h
    rw [tU32_eq]
    exact ⟨.of_eq rfl rfl rfl, .inl (by simp [Decodes])⟩
  | tU16 =>
    obtain rfl := Host.Outcome.next.inj h
    rw [tU16_eq]
    exact ⟨.of_eq rfl rfl rfl, .inl (by simp [Decodes])⟩
  | tS16 =>
    obtain rfl := Host.Outcome.next.inj h
    rw [tS16_eq]
    exact ⟨.of_eq rfl rfl rfl, .inl (by simp [Decodes])⟩
  | tIllegal tag =>
    obtain rfl := Host.Outcome.next.inj h
    exact (keepsQuiet_takeError (.tag tag s.cur) s).keeps _
  | _ => cases hfmt

theorem keeps_ln (hfmt : Laws.tableFormat i = .ln) : Keeps i s t := by
  cases i with
  | lnMeas a b c v =>
    rw [exec_lnMeas] at h
    obtain rfl := Host.Outcome.next.inj h
    exact ⟨.of_eq rfl rfl rfl, .inl (by simp [Decodes])⟩
  | lnOther line =>
    obtain rfl := Host.Outcome.next.inj h
    exact (keepsQuiet_diag (.error (.line line)) s).keeps _
  | lnEnd mark =>
    obtain rfl := Host.Outcome.next.inj h
    exact (keepsQuiet_changeState .wait s).keeps _
  | _ => cases hfmt

/-- Every operation that stores no byte, format by format. -/
theorem exec_keeps (hstores : ¬ Stores i) : Keeps i s t := by
  cases hfmt : Laws.tableFormat i with
  | fu => exact (hostCall_exec hfmt h).keepsQuiet.keeps i
  | st => exact keeps_st h hfmt hstores
  | lb => exact keeps_lb h hfmt
  | rb => exact keeps_rb h hfmt hstores
  | tlv => exact keeps_tlv h hfmt
  | ln => exact keeps_ln h hfmt

end

/-! ## The operations that store bytes -/

/-- What storing bytes keeps: all of the buffer but the offsets from `pos` to `BUF_CAP`, and the deliveries. -/
def StoresFrom (s t : State) : Prop :=
  t.cfg = s.cfg ∧ deliveries t.trace = deliveries s.trace ∧ WrittenFrom s.cfg.bufCap s.pos t.pos s.buf t.buf

theorem Reads.storesFrom {s t : State} (h : Reads s t) : StoresFrom s t := by
  obtain ⟨pos, crcPos, buf, src, polls, draws, tr, rfl, ⟨-, hdel⟩, hbuf⟩ := h
  exact ⟨rfl, hdel, hbuf⟩

theorem StoresFrom.trans {s t u : State} (h : StoresFrom s t) (h' : StoresFrom t u) : StoresFrom s u := by
  obtain ⟨hcfg, hdel, hbuf⟩ := h
  obtain ⟨hcfg', hdel', hbuf'⟩ := h'
  rw [hcfg] at hbuf'
  exact ⟨hcfg'.trans hcfg, hdel'.trans hdel, hbuf.trans hbuf'⟩

theorem storesFrom_of_keepsQuiet {s t : State} (h : KeepsQuiet s t) (hpos : t.pos = s.pos) : StoresFrom s t := by
  obtain ⟨⟨hbuf, hcfg, -⟩, hdel⟩ := h
  refine ⟨hcfg, hdel, ?_⟩
  rw [hbuf, hpos]
  exact .refl _ _ _

/-- Completing a frame and raising store nothing more. -/
theorem Reads.storesFrom_end {s t u : State} (h : Reads s u)
    (ht : t = u ∨ t = changeState .verify u ∨ ∃ c, t = takeError c u) : StoresFrom s t := by
  obtain rfl | rfl | ⟨c, rfl⟩ := ht
  · exact h.storesFrom
  · exact h.storesFrom.trans (storesFrom_of_keepsQuiet (keepsQuiet_changeState .verify u) rfl)
  · exact h.storesFrom.trans (storesFrom_of_keepsQuiet (keepsQuiet_takeError c u) (takeError_pos c u))

theorem storesFrom_stepRead {s t : State} (h : exec .stepRead s = .next t) : StoresFrom s t := by
  obtain ⟨u, hu, ht⟩ := exec_stepRead_cases h
  exact hu.storesFrom_end ht

theorem storesFrom_stepIdent {s t : State} (h : exec .stepIdent s = .next t) : StoresFrom s t := by
  obtain ⟨u, hu, ht⟩ | ⟨u, f, hu, hread⟩ := exec_stepIdent_cases h
  · exact hu.storesFrom_end (ht.imp_right .inr)
  · have hrest := storesFrom_stepRead hread
    exact StoresFrom.trans hu.storesFrom (show StoresFrom u t from hrest)

theorem storesFrom_rbAppend {b : Byte} {s t : State} (h : exec (.rbAppend b) s = .next t) : StoresFrom s t := by
  rw [exec_rbAppend] at h
  obtain ⟨-, happ⟩ | ⟨rest, -, hroom, happ⟩ | happ | happ := rbAppend_cases b s <;> rw [happ] at h
  · obtain rfl := Host.Outcome.next.inj h
    exact (Reads.refl s).storesFrom_end (.inr (.inr ⟨_, rfl⟩))
  · obtain rfl := Host.Outcome.next.inj h
    exact (reads_append hroom b rest).storesFrom
  · cases h
  · cases h

theorem exec_storesFrom {i : Instr} {s t : State} (hi : Stores i) (h : exec i s = .next t) : StoresFrom s t := by
  obtain rfl | rfl | ⟨b, rfl⟩ := hi
  · exact storesFrom_stepIdent h
  · exact storesFrom_stepRead h
  · exact storesFrom_rbAppend h

/-- Settles O53: storing bytes delivers nothing, and of the other operations only the decoders deliver. -/
theorem onlyTheDecodersDeliver : Obligations.OnlyTheDecodersDeliver := by
  intro i s t h
  have hall : Decodes i ∨ deliveries t.trace = deliveries s.trace := by
    by_cases hi : Stores i
    · obtain ⟨-, hdel, -⟩ := exec_storesFrom hi h
      exact .inr hdel
    · obtain ⟨-, hdel⟩ := exec_keeps h hi
      exact hdel
  simpa only [Decodes, or_assoc] using hall

/-- Settles O55: what stores bytes stores them from `pos` on below the capacity, and everything else keeps the buffer. -/
theorem bufferIsWrittenOnlyAtThePosition : Obligations.BufferIsWrittenOnlyAtThePosition := by
  intro i s t hwf hpos h
  by_cases hi : Stores i
  · obtain ⟨hcfg, -, -, hbound, hbuf⟩ := exec_storesFrom hi h
    obtain ⟨-, hread⟩ := hbuf hwf
    refine ⟨?_, hread, (hbound hpos).trans_eq (by rw [hcfg])⟩
    rintro ⟨hident, hstepRead, happend⟩
    obtain rfl | rfl | ⟨b, rfl⟩ := hi
    · exact absurd rfl hident
    · exact absurd rfl hstepRead
    · exact absurd rfl (happend b)
  · obtain ⟨⟨hbuf, hcfg, hpos'⟩, -⟩ := exec_keeps h hi
    refine ⟨fun _ => hbuf, fun a _ => by rw [State.at, hbuf], ?_⟩
    rw [hcfg]
    omega

/-! ## The configuration and the registry -/

/-- The configuration, the registry and the mark of the first tick as they were. -/
def KeepsSetup (s t : State) : Prop := t.cfg = s.cfg ∧ t.registry = s.registry ∧ t.ticked = s.ticked

/-- No step writes the setup (20_memory.md R79). -/
theorem keepsSetup_tick {p : Phase} {s t : State} (h : exec p.instr s = .next t) : KeepsSetup s t := by
  cases p with
  | ident => rw [exec_stepIdent_frame h]; exact ⟨rfl, rfl, rfl⟩
  | read => rw [exec_stepRead_frame h]; exact ⟨rfl, rfl, rfl⟩
  | verify =>
    obtain ⟨u, ⟨a, x, d, rfl, -, -⟩, ⟨-, rfl⟩ | ⟨-, rfl⟩ | ⟨m, rfl⟩⟩ := exec_stepVerify_cases h
    · exact ⟨rfl, rfl, rfl⟩
    · exact ⟨rfl, rfl, rfl⟩
    · rw [takeError_eq]
      exact ⟨rfl, rfl, rfl⟩
  | pascii => rw [exec_stepPascii_frame h]; exact ⟨rfl, rfl, rfl⟩
  | pbin =>
    obtain ⟨t', ht', -, hframe⟩ := binaryProcessingAlwaysCompletes s
    obtain rfl := Host.Outcome.next.inj (ht'.symm.trans h)
    rw [hframe]
    exact ⟨rfl, rfl, rfl⟩
  | wait =>
    rw [Phase.instr, waitEndsWhenThePeriodHasElapsed] at h
    obtain rfl := Host.Outcome.next.inj h
    split <;> exact ⟨rfl, rfl, rfl⟩
  | err =>
    obtain ⟨t', ht', -, hframe⟩ := recoveryNeverRaises s
    obtain rfl := Host.Outcome.next.inj (ht'.symm.trans h)
    rw [hframe]
    exact ⟨rfl, rfl, rfl⟩

/-- Settles O54, activation by activation: a tick writes no setup, a call not after the first tick, and a configuration is refused. -/
theorem configurationAndRegistryAreFixed : Obligations.ConfigurationAndRegistryAreFixed := by
  intro s t hticked hreset h
  cases hsched : s.sched with
  | nil =>
    rw [step_of_sched_nil hsched] at h
    exact keepsSetup_tick h
  | cons a rest =>
    cases a with
    | tick time arrived polls yields =>
      rw [step_of_tick hsched] at h
      exact keepsSetup_tick h
    | call index args =>
      cases hdec : decode (.fu index args) with
      | ok i =>
        rw [step_of_call hsched hdec] at h
        obtain ⟨a, x, d, r, reg, tr, rfl, -, -, -, hreg, -⟩ := hostCall_exec (tableFormat_of_decode_fu hdec) h
        exact ⟨rfl, hreg hticked, hticked⟩
      | error e =>
        rw [step_of_call_error hsched hdec] at h
        cases h
    | configure c =>
      rw [step_of_configure_ticked hsched hticked] at h
      cases h
    | reset t0 tIdent tRead bytes => exact absurd hsched (hreset t0 tIdent tRead bytes rest)

/-! ## The transitions of a tick -/

/-- The notification a state is entered with (60_exceptions.md R283). -/
def channelOf : Phase → List Channel
  | .ident => [.ready]
  | .verify => [.update]
  | .err => [.commError]
  | .read => []
  | .pascii => []
  | .pbin => []
  | .wait => []

/-- The states a tick can enter from each state (42_frame_fsm.md R193). -/
def targets : Phase → List Phase
  | .ident => [.read, .verify, .err]
  | .read => [.verify, .err]
  | .verify => [.pascii, .pbin, .err]
  | .pascii => [.wait]
  | .pbin => [.wait, .err]
  | .wait => [.ident]
  | .err => [.wait]

/-- The tick leaves the state and notifies nobody. -/
def Stays (s t : State) : Prop := t.st = s.st ∧ notifications t.trace = notifications s.trace

/-- The tick enters `p` and notifies of it alone. -/
def Enters (s t : State) (p : Phase) : Prop :=
  t.st = p ∧ notifications t.trace = notifications s.trace ++ channelOf p

theorem enters_changeState {s u : State} (h : notifications u.trace = notifications s.trace) (n : Target) :
    Enters s (changeState n u) n.phase := by
  refine ⟨changeState_st n u, ?_⟩
  rw [← h]
  cases n with
  | ident => exact notifications_append _ _
  | verify => exact notifications_append _ _
  | read | pascii | pbin => exact (List.append_nil _).symm
  | wait =>
    rw [changeState_wait, notifications_append]
    split <;> rfl
  | err c =>
    change notifications (takeError c u).trace = _
    rw [takeError_eq, notifications_append]
    rfl

theorem transition_stepRead {s t : State} (h : exec .stepRead s = .next t) :
    Stays s t ∨ Enters s t .verify ∨ Enters s t .err := by
  obtain ⟨u, ⟨pos, crcPos, buf, src, polls, draws, tr, rfl, ⟨hn, -⟩, -⟩, rfl | rfl | ⟨c, rfl⟩⟩ :=
    exec_stepRead_cases h
  · exact .inl ⟨rfl, hn⟩
  · exact .inr (.inl (enters_changeState hn .verify))
  · exact .inr (.inr (enters_changeState hn (.err c)))

theorem transition_stepIdent {s t : State} (h : exec .stepIdent s = .next t) :
    Stays s t ∨ Enters s t .read ∨ Enters s t .verify ∨ Enters s t .err := by
  obtain ⟨u, ⟨pos, crcPos, buf, src, polls, draws, tr, rfl, ⟨hn, -⟩, -⟩, rfl | ⟨c, rfl⟩⟩ | ⟨u, f, hu, hread⟩ :=
    exec_stepIdent_cases h
  · exact .inl ⟨rfl, hn⟩
  · exact .inr (.inr (.inr (enters_changeState hn (.err c))))
  · obtain ⟨pos, crcPos, buf, src, polls, draws, tr, rfl, ⟨hn, -⟩, -⟩ := hu
    obtain ⟨hst, hstay⟩ | ⟨hst, henter⟩ | ⟨hst, henter⟩ := transition_stepRead hread
    · exact .inr (.inl ⟨hst, hstay.trans (hn.trans (List.append_nil _).symm)⟩)
    · exact .inr (.inr (.inl ⟨hst, henter.trans (congrArg (· ++ _) hn)⟩))
    · exact .inr (.inr (.inr ⟨hst, henter.trans (congrArg (· ++ _) hn)⟩))

theorem transition_stepVerify {s t : State} (h : exec .stepVerify s = .next t) :
    (s.fmt = .ascii ∧ Enters s t .pascii) ∨ (s.fmt = .binary ∧ Enters s t .pbin) ∨ Enters s t .err := by
  obtain ⟨u, ⟨a, x, d, rfl, -, -⟩, ⟨hfmt, rfl⟩ | ⟨hfmt, rfl⟩ | ⟨m, rfl⟩⟩ := exec_stepVerify_cases h
  · exact .inl ⟨hfmt, enters_changeState rfl .pascii⟩
  · exact .inr (.inl ⟨hfmt, enters_changeState rfl .pbin⟩)
  · refine .inr (.inr (enters_changeState ?_ (.err .crc)))
    rw [emit_trace, notifications_append]
    exact List.append_nil _

theorem transition_stepPascii {s t : State} (h : exec .stepPascii s = .next t) : Stays s t ∨ Enters s t .wait := by
  obtain ⟨u, ⟨cur, ys, tr, rfl, hn⟩, rfl | rfl⟩ := exec_stepPascii_cases h
  · exact .inl ⟨rfl, hn⟩
  · exact .inr (enters_changeState hn .wait)

theorem transition_stepPbin {s t : State} (h : exec .stepPbin s = .next t) :
    Stays s t ∨ Enters s t .wait ∨ Enters s t .err := by
  obtain ⟨u, ⟨cur, code, ys, draws, tr, rfl, hn⟩, hend⟩ := exec_stepPbin_cases s
  rw [h] at hend
  obtain ⟨hend, -⟩ | hend | ⟨c, hend⟩ := hend <;> obtain rfl := Host.Outcome.next.inj hend
  · exact .inl ⟨rfl, hn⟩
  · exact .inr (.inl (enters_changeState hn .wait))
  · exact .inr (.inr (enters_changeState hn (.err c)))

theorem transition_stepWait {s t : State} (h : exec .stepWait s = .next t) : Stays s t ∨ Enters s t .ident := by
  rw [exec_stepWait] at h
  obtain rfl := Host.Outcome.next.inj h
  split
  · exact .inr (enters_changeState rfl .ident)
  · exact .inl ⟨rfl, rfl⟩

theorem transition_stepErr {s t : State} (h : exec .stepErr s = .next t) : Stays s t ∨ Enters s t .wait := by
  obtain ⟨u, ⟨dlog, src, polls, tr, rfl, ⟨hn, -⟩, -⟩, hend⟩ := exec_stepErr_cases s
  rw [h] at hend
  obtain hend | hend | hend := hend <;> obtain rfl := Host.Outcome.next.inj hend
  · exact .inl ⟨rfl, hn⟩
  · refine .inr (enters_changeState ?_ .wait)
    rw [flushDlog_eq, notifications_append, ← hn]
    dsimp only
    split <;> exact List.append_nil _
  · exact .inl ⟨rfl, hn⟩

/-- The transition table (R193), for the step `st` selects. -/
theorem transition_tick {s t : State} (h : exec s.st.instr s = .next t) :
    (Stays s t ∧ s.st ≠ .verify) ∨ ∃ p ∈ targets s.st, Enters s t p := by
  cases hst : s.st <;> rw [hst] at h
  case ident => simpa [targets] using transition_stepIdent h
  case read => simpa [targets] using transition_stepRead h
  case verify =>
    obtain ⟨-, henter⟩ | ⟨-, henter⟩ | henter := transition_stepVerify h
    · exact .inr ⟨_, by simp [targets], henter⟩
    · exact .inr ⟨_, by simp [targets], henter⟩
    · exact .inr ⟨_, by simp [targets], henter⟩
  case pascii => simpa [targets] using transition_stepPascii h
  case pbin => simpa [targets] using transition_stepPbin h
  case wait => simpa [targets] using transition_stepWait h
  case err => simpa [targets] using transition_stepErr h

/-- A tick is the step `st` selects, in a state that differs in the host's inputs alone. -/
theorem step_of_nextIsTick {s : State} (h : nextIsTick s = true) :
    ∃ now src polls yields sched, step s =
      exec s.st.instr
        { s with now := now, src := src, polls := polls, yields := yields, sched := sched, ticked := true } := by
  cases hsched : s.sched with
  | nil => exact ⟨_, _, _, _, _, step_of_sched_nil hsched⟩
  | cons a rest =>
    cases a with
    | tick time arrived polls yields => exact ⟨_, _, _, _, _, step_of_tick hsched⟩
    | call | configure | reset =>
      rw [nextIsTick, hsched] at h
      cases h

/-- Settles O51: the table, and the format that each processing state is entered with. -/
theorem ticksFollowTheTransitionTable : Obligations.TicksFollowTheTransitionTable := by
  intro s t htick h
  obtain ⟨now, src, polls, yields, sched, hstep⟩ := step_of_nextIsTick htick
  rw [hstep] at h
  have hverify : s.st = .verify → (s.fmt = .ascii ∧ t.st = .pascii) ∨ (s.fmt = .binary ∧ t.st = .pbin) ∨ t.st = .err := by
    intro hst
    rw [hst] at h
    exact (transition_stepVerify h).imp (fun hp => ⟨hp.1, hp.2.1⟩) (Or.imp (fun hp => ⟨hp.1, hp.2.1⟩) (·.1))
  refine ⟨?_, fun hst ht => ?_, fun hst ht => ?_⟩
  · obtain ⟨⟨hst, -⟩, hne⟩ | ⟨p, hp, hst, -⟩ := transition_tick (s := { s with
        now := now, src := src, polls := polls, yields := yields, sched := sched, ticked := true }) h
    · change t.st = s.st at hst
      change s.st ≠ .verify at hne
      rw [hst]
      revert hne
      cases s.st <;> decide
    · change p ∈ targets s.st at hp
      rw [hst]
      revert hp
      cases s.st <;> cases p <;> decide
  · rw [ht] at hverify
    simpa using hverify hst
  · rw [ht] at hverify
    simpa using hverify hst

/-- No operation looks at its trace, so it can only add to it (60_exceptions.md R282). -/
theorem exists_new_events {i : Instr} {s t : State} (h : exec i s = .next t) : ∃ new, t.trace = s.trace ++ new := by
  have hempty := traceIsOnlyAppendedTo i { s with trace := [] } s.trace
  rw [List.append_nil] at hempty
  rw [show exec i s = _ from hempty] at h
  cases hexec : exec i { s with trace := [] } with
  | next u =>
    rw [hexec] at h
    obtain rfl := Host.Outcome.next.inj h
    exact ⟨u.trace, rfl⟩
  | fault r => rw [hexec] at h; cases h
  | refused r => rw [hexec] at h; cases h

/-- Settles O52: the new events are what the trace grew by, and their notifications are those of the transition. -/
theorem notificationsFollowTheStateEntered : Obligations.NotificationsFollowTheStateEntered := by
  intro s t htick h
  obtain ⟨now, src, polls, yields, sched, hstep⟩ := step_of_nextIsTick htick
  rw [hstep] at h
  obtain ⟨new, hnew⟩ := exists_new_events h
  have hcount : notifications t.trace = notifications s.trace ++ notifications new := by
    rw [hnew, notifications_append]
  refine ⟨new, hnew, ?_⟩
  obtain ⟨⟨hst, hn⟩, -⟩ | ⟨p, hp, hst, hn⟩ := transition_tick (s := { s with
      now := now, src := src, polls := polls, yields := yields, sched := sched, ticked := true }) h
  · rw [if_pos hst]
    exact List.self_eq_append_right.mp (hn.symm.trans hcount)
  · have hne : p ≠ s.st := by
      change p ∈ targets s.st at hp
      rintro rfl
      revert hp
      cases s.st <;> decide
    rw [if_neg (hst.trans_ne hne), hst]
    have hchannel : notifications new = channelOf p := List.append_cancel_left (hcount.symm.trans hn)
    rw [hchannel]
    cases p <;> rfl

end Sys2Proof
end

section
/-! The invariant of 10_state.md R37: what holds inside a tick of a telegram, and what the steps that do not read leave of it. -/

namespace Sys2Proof

open Sys2Proof.Machine

/-! ## Inside a tick -/

/-- The invariant without its clause for the phase, in a tick of a state that keeps no log (R37 (6)). -/
structure Settled (s : State) : Prop where
  cfgLegal : s.cfg.legal = true
  bufWf : Memory.wf s.buf = true
  bufBelow : Memory.below s.cfg.bufCap s.buf = true
  regWf : Registry.wf s.registry = true
  regSentinel : Registry.find s.registry Config.obisInvalid = none
  posBound : s.pos ≤ s.cfg.bufCap
  dlogEmpty : s.dlog = []
  noAcc : s.crcA = none ∧ s.crcX = none
  ticked : s.ticked = true

theorem phaseInv_ident {s : State} (h : s.st = .ident) :
    PhaseInv s ↔ s.pos = 0 ∧ s.crcPos = 0 ∧ s.cur = 0 ∧ s.curCode = Config.obisInvalid := by rw [PhaseInv, h]

theorem phaseInv_read {s : State} (h : s.st = .read) : PhaseInv s ↔ ReadingInv s := by rw [PhaseInv, h]

theorem phaseInv_verify {s : State} (h : s.st = .verify) :
    PhaseInv s ↔ FrameInv s ∧ s.cur = 0 ∧ s.curCode = Config.obisInvalid := by rw [PhaseInv, h]

theorem phaseInv_pascii {s : State} (h : s.st = .pascii) :
    PhaseInv s ↔ FrameInv s ∧ s.fmt = .ascii ∧ (s.cur : Int) + 1 ≤ s.crcPos := by rw [PhaseInv, h]

theorem phaseInv_pbin {s : State} (h : s.st = .pbin) :
    PhaseInv s ↔ FrameInv s ∧ s.fmt = .binary ∧ (s.cur = 0 ∨ 9 ≤ s.cur) ∧ s.cur ≤ 8446 := by rw [PhaseInv, h]

theorem phaseInv_err {s : State} (h : s.st = .err) : PhaseInv s := by
  rw [PhaseInv, h]
  trivial

/-- Only ERROR_RECOVERY keeps a log, and only it is held before the first tick. -/
theorem settled_of_inv {s : State} (h : Inv s) (hst : s.st ≠ .err) : Settled s where
  cfgLegal := h.cfgLegal
  bufWf := h.bufWf
  bufBelow := h.bufBelow
  regWf := h.regWf
  regSentinel := h.regSentinel
  posBound := h.posBound
  dlogEmpty := h.dlogEmpty hst
  noAcc := h.noAcc
  ticked := by
    by_contra hno
    obtain ⟨herr, -, -⟩ := h.boot (by simpa using hno)
    exact hst herr

theorem Settled.inv {s : State} (h : Settled s) (hphase : PhaseInv s) : Inv s where
  cfgLegal := h.cfgLegal
  bufWf := h.bufWf
  bufBelow := h.bufBelow
  regWf := h.regWf
  regSentinel := h.regSentinel
  posBound := h.posBound
  dlogEmpty _ := h.dlogEmpty
  dlogBound := by rw [h.dlogEmpty]; exact Nat.zero_le _
  noAcc := h.noAcc
  boot hno := absurd (h.ticked.symm.trans hno) (by decide)
  phase := hphase

theorem Settled.changeState {s : State} (h : Settled s) (n : Target) : Settled (changeState n s) where
  cfgLegal := by rw [changeState_cfg]; exact h.cfgLegal
  bufWf := by rw [changeState_buf]; exact h.bufWf
  bufBelow := by rw [changeState_cfg, changeState_buf]; exact h.bufBelow
  regWf := by rw [changeState_registry]; exact h.regWf
  regSentinel := by rw [changeState_registry]; exact h.regSentinel
  posBound := by
    obtain ⟨⟨-, hcfg, hpos⟩, -⟩ := keepsQuiet_changeState n s
    have := h.posBound
    rw [hcfg]
    omega
  dlogEmpty := by rw [changeState_dlog]; exact h.dlogEmpty
  noAcc := by rw [changeState_crcA, changeState_crcX]; exact h.noAcc
  ticked := by rw [changeState_ticked]; exact h.ticked

/-- An error may be taken anywhere in a tick: ERROR_RECOVERY asks nothing of the frame. -/
theorem Settled.inv_takeError {s : State} (h : Settled s) (c : Cause) : Inv (takeError c s) :=
  (h.changeState (.err c)).inv (phaseInv_err (changeState_st _ _))

theorem Settled.inv_wait {s : State} (h : Settled s) : Inv (Machine.changeState .wait s) :=
  (h.changeState .wait).inv (by rw [PhaseInv, changeState_st]; trivial)

/-- The entry action of IDENT makes the telegram's registers new (R172). -/
theorem Settled.inv_ident {s : State} (h : Settled s) : Inv (Machine.changeState .ident s) :=
  (h.changeState .ident).inv ⟨rfl, rfl, rfl, rfl⟩

/-! ## STEP.WAIT and STEP.ERR -/

theorem inv_stepWait {s : State} (h : Inv s) (hst : s.st = .wait) : ∃ t, exec .stepWait s = .next t ∧ Inv t := by
  refine ⟨_, exec_stepWait s, ?_⟩
  split
  · exact (settled_of_inv h (by rw [hst]; decide)).inv_ident
  · exact h

/-- Discards keep the invariant of ERROR_RECOVERY, whose log they bound (R31). -/
theorem Discards.inv {s u : State} (hu : Discards s u) (h : Inv s) (hst : s.st = .err) (hticked : s.ticked = true) :
    Inv u := by
  obtain ⟨dlog, src, polls, tr, rfl, -, hbound⟩ := hu
  obtain ⟨-, -, hcap⟩ := (legal_iff s.cfg).mp h.cfgLegal
  exact {
    cfgLegal := h.cfgLegal, bufWf := h.bufWf, bufBelow := h.bufBelow, regWf := h.regWf, regSentinel := h.regSentinel
    posBound := h.posBound, dlogEmpty := fun hne => absurd hst hne, dlogBound := hbound hcap h.dlogBound
    noAcc := h.noAcc, boot := fun hno => absurd (hticked.symm.trans hno) (by decide)
    phase := phaseInv_err hst }

theorem inv_stepErr {s : State} (h : Inv s) (hst : s.st = .err) (hticked : s.ticked = true) :
    ∃ t, exec .stepErr s = .next t ∧ Inv t := by
  obtain ⟨u, hu, hend⟩ := exec_stepErr_cases s
  have hinv := hu.inv h hst hticked
  have hust : u.st = .err ∧ u.ticked = true := by
    obtain ⟨dlog, src, polls, tr, rfl, -, -⟩ := hu
    exact ⟨hst, hticked⟩
  obtain hend | hend | hend := hend
  · exact ⟨_, hend, { hinv with phase := phaseInv_err hust.1 }⟩
  · refine ⟨_, hend, ?_⟩
    have hflushed : Settled (flushDlog u) := by
      rw [flushDlog_eq]
      exact ⟨hinv.cfgLegal, hinv.bufWf, hinv.bufBelow, hinv.regWf, hinv.regSentinel, hinv.posBound, rfl, hinv.noAcc, hust.2⟩
    exact hflushed.inv_wait
  · exact ⟨u, hend, hinv⟩

/-! ## STEP.VERIFY -/

/-- The scan of a hexadecimal field stops at or before a byte that is no digit (R103). -/
theorem exists_hexScan {m : List Host.Cell} {n i a : Nat} (v : Option Nat) (hia : i ≤ a) (ha : a < i + n)
    (hstop : hexDigit (Memory.read m a) = none) : ∃ r, hexScan m n i v = some r := by
  induction n generalizing i v with
  | zero => omega
  | succ n ih =>
    rw [hexScan]
    cases hd : hexDigit (Memory.read m i) with
    | none => exact ⟨v, rfl⟩
    | some d =>
      have hne : i ≠ a := by
        rintro rfl
        rw [hstop] at hd
        cases hd
      exact ih _ (by omega) (by omega)

/-- Either outcome of the verification of a frame inside the buffer keeps the invariant (R190). -/
theorem inv_verifyOutcome {s : State} (h : Settled s) {dest : Target}
    (hdest : PhaseInv (changeState dest s)) (computed : Crc) (expected : Option Nat) :
    Inv (verifyOutcome computed expected dest s) := by
  have hraise : Inv (takeError .crc (emit (.diag (.crcMismatch computed expected (s.bytes 0 s.pos))) s)) := by
    refine Settled.inv_takeError ?_ .crc
    exact { h with }
  rw [verifyOutcome_eq h.posBound]
  split
  · exact (h.changeState dest).inv hdest
  · rw [takeError_eq, emit] at hraise
    simpa using hraise

theorem inv_stepVerify {s : State} (h : Inv s) (hst : s.st = .verify) : ∃ t, exec .stepVerify s = .next t ∧ Inv t := by
  have hset := settled_of_inv h (by rw [hst]; decide)
  have hpos := hset.posBound
  obtain ⟨hA, hX⟩ := hset.noAcc
  obtain ⟨hframe, hcur, -⟩ := (phaseInv_verify hst).mp h.phase
  obtain ⟨hcrc1, hcrc2, ⟨hascii, -, -, hnewline⟩ | ⟨hbinary, hlen, -⟩⟩ := id hframe
  all_goals obtain ⟨p, hp⟩ : ∃ p : Nat, s.crcPos = (p : Int) := ⟨s.crcPos.toNat, by omega⟩
  · have hstop : hexDigit (Memory.read s.buf (s.pos - 1)) = none := by
      rw [show Memory.read s.buf (s.pos - 1) = 0x0A#8 from hnewline]
      decide
    obtain ⟨expected, hscan⟩ :=
      exists_hexScan (n := s.cfg.bufCap - p) (i := p) none (by omega) (by omega) hstop
    have hdest : PhaseInv (changeState .pascii s) := ⟨hframe, hascii, by rw [changeState_pascii]; dsimp only; omega⟩
    rw [exec_stepVerify_ascii hp hascii, verifyAscii_eq hp hscan (by omega) hA]
    exact ⟨_, rfl, inv_verifyOutcome hset hdest _ _⟩
  · have hdest : PhaseInv (changeState .pbin s) :=
      ⟨hframe, hbinary, .inl hcur, by rw [changeState_pbin]; dsimp only; omega⟩
    rw [exec_stepVerify_binary hp hbinary, verifyBinary_eq hp (by omega) hX]
    exact ⟨_, rfl, inv_verifyOutcome hset hdest _ _⟩

/-! ## STEP.PASCII -/

/-- The skip stops at or before a byte that is no terminator. -/
theorem exists_skipTerminators {m : List Host.Cell} {n i a : Nat} (hia : i ≤ a) (ha : a < i + n)
    (hstop : isTerminator (Memory.read m a) = false) : ∃ c, skipTerminators m n i = some c ∧ c ≤ a := by
  induction n generalizing i with
  | zero => omega
  | succ n ih =>
    rw [skipTerminators]
    cases ht : isTerminator (Memory.read m i) with
    | false => exact ⟨i, rfl, hia⟩
    | true =>
      have hne : i ≠ a := by
        rintro rfl
        rw [hstop] at ht
        cases ht
      exact ih (by omega) (by omega)

/-- The search stops at or before a boundary. -/
theorem exists_findBoundary {m : List Host.Cell} {n i a : Nat} (hia : i ≤ a) (ha : a < i + n)
    (hstop : isBoundary (Memory.read m a) = true) : ∃ e, findBoundary m n i = some e ∧ e ≤ a := by
  induction n generalizing i with
  | zero => omega
  | succ n ih =>
    rw [findBoundary]
    cases hb : isBoundary (Memory.read m i) with
    | true => exact ⟨i, rfl, hia⟩
    | false =>
      have hne : i ≠ a := by
        rintro rfl
        rw [hstop] at hb
        cases hb
      exact ih (by omega) (by omega)

/-- An end mark at or behind the cursor ends the next span at the latest (R211). -/
theorem exists_nextSpan {s : State} {a : Nat} (hcur : s.cur ≤ a) (hcap : a < s.cfg.bufCap) (hmark : s.at a = 0x21#8) :
    ∃ c e, nextSpan s = some (c, e) ∧ e ≤ a := by
  have hread : Memory.read s.buf a = 0x21#8 := hmark
  obtain ⟨c, hskip, hca⟩ :=
    exists_skipTerminators (n := s.cfg.bufCap - s.cur) hcur (by omega) (by rw [hread]; decide)
  obtain ⟨e, hfind, hea⟩ := exists_findBoundary (n := s.cfg.bufCap - c) hca (by omega) (by rw [hread]; decide)
  exact ⟨c, e, by rw [nextSpan, hskip, Option.bind_some, hfind, Option.map_some], hea⟩

theorem Settled.afterLine {s : State} (h : Settled s) (c e cur : Nat) (ys : List Bool) (n : Nat) :
    Settled { afterLine s c e with cur := cur, yields := ys, nProcTicks := n } := { h with }

theorem inv_stepPascii {s : State} (h : Inv s) (hst : s.st = .pascii) : ∃ t, exec .stepPascii s = .next t ∧ Inv t := by
  have hset := settled_of_inv h (by rw [hst]; decide)
  have hphase := (phaseInv_pascii hst).mp h.phase
  clear h
  induction hk : s.cfg.bufCap - s.cur using Nat.strong_induction_on generalizing s with
  | _ k ih =>
    obtain ⟨hframe, hascii, hcur⟩ := hphase
    have hpos := hset.posBound
    obtain ⟨hcrc1, hcrc2, ⟨-, -, hmark, -⟩ | ⟨hbinary, -⟩⟩ := id hframe
    · obtain ⟨c, e, hspan, he⟩ := exists_nextSpan (by omega) (by omega) hmark
      obtain ⟨hcure, -⟩ := nextSpan_bounds hspan
      cases hend : isEndMark (s.at e) with
      | true =>
        rw [exec_stepPascii_end hspan hend, exec_lnEnd]
        exact ⟨_, rfl, (hset.afterLine c e c s.yields _).inv_wait⟩
      | false =>
        have hne : e ≠ s.crcPos.toNat - 1 := by
          rintro rfl
          rw [hmark] at hend
          cases hend
        have hcur' : ((e + 1 : Nat) : Int) + 1 ≤ s.crcPos := by omega
        have hset' := hset.afterLine c e (e + 1) s.yields.tail
        rw [exec_stepPascii_go hspan hend]
        split
        · refine ⟨_, rfl, (hset' _).inv ((phaseInv_pascii ?_).mpr ⟨hframe, hascii, hcur'⟩)⟩
          exact hst
        · exact ih (s.cfg.bufCap - (e + 1)) (by omega) hst (hset' s.nProcTicks) ⟨hframe, hascii, hcur'⟩ rfl
    · rw [hascii] at hbinary
      cases hbinary

/-! ## STEP.PBIN -/

theorem len13_le (b1 b2 : Byte) : len13 b1 b2 ≤ 8191 := by
  unfold len13
  omega

theorem inv_stepPbin {s : State} (h : Inv s) (hst : s.st = .pbin) : ∃ t, exec .stepPbin s = .next t ∧ Inv t := by
  have hset := settled_of_inv h (by rw [hst]; decide)
  obtain ⟨hframe, hbinary, hcur⟩ := (phaseInv_pbin hst).mp h.phase
  have hcrc : s.crcPos ≤ 8190 := by
    obtain ⟨-, -, ⟨hascii, -⟩ | ⟨-, -, -, -, -, hlen⟩⟩ := hframe
    · rw [hbinary] at hascii
      cases hascii
    · have := len13_le (s.at 1) (s.at 2)
      omega
  obtain ⟨u, ⟨cur, code, ys, draws, tr, rfl, -⟩, hends⟩ := exec_stepPbin_cases s
  have hset' : Settled { s with
      nProcTicks := s.nProcTicks + 1, cur := cur, curCode := code, yields := ys, draws := draws, trace := tr } :=
    { hset with }
  obtain ⟨hstay, hkept⟩ | hwait | ⟨c, hraise⟩ := hends
  · refine ⟨_, hstay, hset'.inv ((phaseInv_pbin ?_).mpr ⟨hframe, hbinary, hkept hcrc hcur⟩)⟩
    exact hst
  · exact ⟨_, hwait, hset'.inv_wait⟩
  · exact ⟨_, hraise, hset'.inv_takeError c⟩

end Sys2Proof
end

section
/-! The invariant while a telegram is read, 42_frame_fsm.md R179 to R187, and with it over every activation: a tick always ends in
a next state, and every next state has the invariant. -/

namespace Sys2Proof

open Sys2Proof.Machine

/-! ## A telegram that is being read -/

/-- A state of a tick in which the telegram may go on. -/
def Reading (s : State) : Prop := Settled s ∧ s.st = .read ∧ ReadingInv s

theorem Reading.inv {s : State} (h : Reading s) : Inv s := by
  obtain ⟨hset, hst, hread⟩ := h
  exact hset.inv ((phaseInv_read hst).mpr hread)

theorem reading_of_inv {s : State} (h : Inv s) (hst : s.st = .read) : Reading s :=
  ⟨settled_of_inv h (by rw [hst]; decide), hst, (phaseInv_read hst).mp h.phase⟩

/-- A poll takes nothing of the telegram back. -/
theorem Reading.avail {s : State} (h : Reading s) : Reading (avail s).2 := by
  obtain ⟨hset, hst, hread⟩ := h
  obtain ⟨src, polls, hpoll⟩ := avail_update s
  rw [hpoll]
  exact ⟨{ hset with }, hst, hread⟩

/-- A way to go on or to end that keeps the invariant: the telegram may go on, or the tick ends in a state with `Inv`. -/
def KeepsInv : Flow → Prop
  | .go u => Reading u
  | .done (.next t) => Inv t
  | .done (.fault _) => False
  | .done (.refused _) => False

theorem KeepsInv.andThen {x : Flow} {k : State → Flow} (hx : KeepsInv x) (hk : ∀ u, Reading u → KeepsInv (k u)) :
    KeepsInv (x.andThen k) := by
  cases x with
  | go u => exact hk u hx
  | done o => exact hx

/-- A completed frame goes to the verification (R185, R186). -/
theorem Settled.inv_verify {s : State} (h : Settled s) (hframe : FrameInv s) (hcur : s.cur = 0)
    (hcode : s.curCode = Config.obisInvalid) : Inv (Machine.changeState .verify s) := by
  refine (h.changeState .verify).inv ((phaseInv_verify (changeState_st _ _)).mpr ?_)
  rw [changeState_verify]
  exact ⟨hframe, hcur, hcode⟩

/-! ## The byte just appended -/

/-- A telegram whose newest byte is `b`, before the action on it: in front of it stands a telegram that could go on. -/
structure Appended (b : Byte) (s : State) : Prop where
  settled : Settled s
  isRead : s.st = .read
  cur : s.cur = 0
  curCode : s.curCode = Config.obisInvalid
  pos : 2 ≤ s.pos
  newest : s.at (s.pos - 1) = b
  before :
    (s.fmt = .ascii ∧ s.at 0 = 0x2F#8 ∧
      (s.crcPos = 0 ∨ (2 ≤ s.crcPos ∧ s.crcPos < s.pos ∧ s.at (s.crcPos.toNat - 1) = 0x21#8))) ∨
    (s.fmt = .binary ∧ s.at 0 = 0x7E#8 ∧ (s.pos < 4 → s.crcPos = 0) ∧
      (4 ≤ s.pos → frameType (s.at 1) = 0b101#3 ∧ s.crcPos = (len13 (s.at 1) (s.at 2) : Int) - 1 ∧
        (0 < s.crcPos → (s.pos : Int) < s.crcPos + 4)))

/-- The state after `RB.APPEND` with room (R182). -/
def afterAppend (b : Byte) (rest : List Byte) (s : State) : State :=
  { s with
    src := rest, buf := Memory.write s.buf s.pos b, pos := s.pos + 1,
    trace := s.trace ++ (if s.cfg.passthrough then [.pass b] else []) }

theorem at_afterAppend {b : Byte} {rest : List Byte} {s : State} (hwf : Memory.wf s.buf = true) (a : Nat) :
    (afterAppend b rest s).at a = if a = s.pos then b else s.at a := Memory.read_write hwf s.pos a b

theorem Settled.afterAppend {s : State} (h : Settled s) (hroom : s.pos < s.cfg.bufCap) (b : Byte) (rest : List Byte) :
    Settled (afterAppend b rest s) :=
  { h with
    bufWf := Memory.wf_write s.pos b h.bufWf
    bufBelow := Memory.below_write b hroom h.bufBelow
    posBound := hroom }

theorem Reading.appended {s : State} (h : Reading s) (hroom : s.pos < s.cfg.bufCap) (b : Byte) (rest : List Byte) :
    Appended b (afterAppend b rest s) := by
  obtain ⟨hset, hst, hpos, hcur, hcode, hfmt⟩ := h
  have hold : ∀ a, a ≠ s.pos → (Sys2Proof.afterAppend b rest s).at a = s.at a := fun a ha => by
    rw [at_afterAppend hset.bufWf, if_neg ha]
  refine {
    settled := hset.afterAppend hroom b rest, isRead := hst, cur := hcur, curCode := hcode, pos := Nat.succ_le_succ hpos
    newest := by rw [at_afterAppend hset.bufWf]; exact if_pos rfl
    before := ?_ }
  rw [hold 0 (by omega)]
  obtain ⟨hascii, h0, hcrc⟩ | ⟨hbinary, h0, hshort, hlong⟩ := hfmt
  · refine .inl ⟨hascii, h0, hcrc.imp_right ?_⟩
    rintro ⟨h2, hle, hmark⟩
    exact ⟨h2, Int.lt_add_one_of_le hle, by rw [hold _ (by dsimp only [Sys2Proof.afterAppend]; omega)]; exact hmark⟩
  · refine .inr ⟨hbinary, h0, fun hlt => hshort (Nat.lt_of_succ_lt_succ hlt), fun hge => ?_⟩
    have hge : 3 ≤ s.pos := Nat.le_of_succ_le_succ hge
    obtain ⟨htype, hlen, hdue⟩ := hlong hge
    rw [hold 1 (by omega), hold 2 (by omega)]
    exact ⟨htype, hlen, fun hknown => by have := hdue hknown; dsimp only [Sys2Proof.afterAppend]; omega⟩

/-! ## The action on it -/

theorem rbClass_ascii (pos : Nat) (crcPos : Int) (b : Byte) :
    rbClass .ascii pos crcPos b =
      if b = 0x21#8 then .mark else if (0 < crcPos ∧ crcPos < pos) ∧ b = 0x0A#8 then .endA else .data := by
  simp only [rbClass, pastCrcPos, crcPosKnown, Bool.and_eq_true, decide_eq_true_eq]

theorem rbClass_binary (pos : Nat) (crcPos : Int) (b : Byte) :
    rbClass .binary pos crcPos b =
      if pos = 3 then .hdr else if 0 < crcPos ∧ (pos : Int) = crcPos + 3 then .endB else .data := by
  simp only [rbClass, endMarkerDue, crcPosKnown, Bool.and_eq_true, decide_eq_true_eq]

theorem rbAction_of_ascii {s : State} (h : s.fmt = .ascii) (b : Byte) :
    rbAction b s =
      if b = 0x21#8 then .go { s with crcPos := (s.pos : Int) }
      else if (0 < s.crcPos ∧ s.crcPos < s.pos) ∧ b = 0x0A#8 then .done (.next (changeState .verify s)) else .go s := by
  have hclass := rbClass_ascii s.pos s.crcPos b
  rw [← h] at hclass
  rw [rbAction, hclass]
  split_ifs <;> rfl

theorem rbAction_of_binary {s : State} (h : s.fmt = .binary) (b : Byte) :
    rbAction b s =
      if s.pos = 3 then rbHdr s else if 0 < s.crcPos ∧ (s.pos : Int) = s.crcPos + 3 then rbEndB b s else .go s := by
  have hclass := rbClass_binary s.pos s.crcPos b
  rw [← h] at hclass
  rw [rbAction, hclass]
  split_ifs <;> rfl

/-- A mark moves the provisional `crc_pos`, and a newline behind it completes the frame (R183, R185). -/
theorem Appended.keepsInv_of_ascii {b : Byte} {s : State} (h : Appended b s) (hascii : s.fmt = .ascii) :
    KeepsInv (rbAction b s) := by
  obtain ⟨hset, hst, hcur, hcode, hpos, hnew, ⟨-, h0, hcrc⟩ | ⟨hbinary, -⟩⟩ := h
  · rw [rbAction_of_ascii hascii]
    split_ifs with hmark hend
    · refine ⟨{ hset with }, hst, (by omega : 1 ≤ s.pos), hcur, hcode, .inl ⟨hascii, h0, .inr ⟨?_, le_refl _, ?_⟩⟩⟩
      · exact Int.ofNat_le.mpr hpos
      · rw [← hmark, ← hnew]
        rfl
    · obtain ⟨⟨hknown, hbehind⟩, hnewline⟩ := hend
      obtain hzero | ⟨-, -, hexcl⟩ := hcrc
      · omega
      · exact hset.inv_verify ⟨hknown, hbehind, .inl ⟨hascii, h0, hexcl, hnew.trans hnewline⟩⟩ hcur hcode
    · refine ⟨hset, hst, by omega, hcur, hcode, .inl ⟨hascii, h0, hcrc.imp_right ?_⟩⟩
      rintro ⟨h2, hlt, hexcl⟩
      exact ⟨h2, hlt.le, hexcl⟩
  · rw [hascii] at hbinary
    cases hbinary

/-- The third byte gives `crc_pos`, and the byte at the frame's end must be the end marker (R184, R186). -/
theorem Appended.keepsInv_of_binary {b : Byte} {s : State} (h : Appended b s) (hbinary : s.fmt = .binary) :
    KeepsInv (rbAction b s) := by
  obtain ⟨hset, hst, hcur, hcode, hpos, hnew, ⟨hascii, -⟩ | ⟨-, h0, hshort, hlong⟩⟩ := h
  · rw [hbinary] at hascii
    cases hascii
  · rw [rbAction_of_binary hbinary]
    split_ifs with hthird hend
    · have hcap : 3 ≤ s.cfg.bufCap := hthird ▸ hset.posBound
      by_cases htype : (s.at 1).toNat / 32 = 5
      · rw [rbHdr_of_type hcap htype]
        refine ⟨{ hset with }, hst, (by omega : 1 ≤ s.pos), hcur, hcode,
          .inr ⟨hbinary, h0, ?_, fun _ => ⟨(frameType_eq_five_iff _).mpr htype, rfl, ?_⟩⟩⟩
        · exact fun hlt => absurd hlt (by dsimp only; omega)
        · exact fun hknown => by dsimp only at hknown ⊢; omega
      · rw [rbHdr_of_type_ne hcap htype]
        exact hset.inv_takeError _
    · obtain ⟨hknown, hdue⟩ := hend
      unfold rbEndB
      split
      next hmark =>
        have hlast : s.at (s.crcPos.toNat + 2) = 0x7E#8 := by
          rw [show s.crcPos.toNat + 2 = s.pos - 1 by omega, hnew, hmark]
          rfl
        obtain ⟨htype, hlen, -⟩ := hlong (by omega)
        exact hset.inv_verify ⟨by omega, by omega, .inr ⟨hbinary, hdue, h0, hlast, htype, hlen⟩⟩ hcur hcode
      next => exact hset.inv_takeError _
    · refine ⟨hset, hst, by omega, hcur, hcode, .inr ⟨hbinary, h0, fun hlt => hshort (by omega), fun hge => ?_⟩⟩
      obtain ⟨htype, hlen, hdue⟩ := hlong (by omega)
      exact ⟨htype, hlen, fun hknown => by have := hdue hknown; omega⟩

/-- Only the two formats are read; in either the action keeps the invariant. -/
theorem Appended.keepsInv {b : Byte} {s : State} (h : Appended b s) : KeepsInv (rbAction b s) := by
  obtain ⟨hascii, -⟩ | ⟨hbinary, -⟩ := h.before
  · exact h.keepsInv_of_ascii hascii
  · exact h.keepsInv_of_binary hbinary

/-! ## STEP.READ and STEP.IDENT -/

theorem keepsInv_readLoop (n : Nat) {s : State} (h : Reading s) : KeepsInv (readLoop n s) := by
  induction n generalizing s with
  | zero => exact h
  | succ n ih =>
    have hpoll := h.avail
    cases ha : (avail s).1 with
    | false =>
      rw [readLoop_idle ha]
      exact hpoll
    | true =>
      obtain ⟨b, rest, hb⟩ := src_of_avail ha
      rw [readLoop_succ ha hb]
      rcases Nat.lt_or_eq_of_le hpoll.1.posBound with hroom | hfull
      · rw [rbAppend_eq hb hroom, Flow.andThen_go]
        exact (hpoll.appended hroom b rest).keepsInv.andThen fun u hu => ih hu
      · rw [rbAppend_of_full hfull, Flow.andThen_done]
        exact hpoll.1.inv_takeError _

theorem inv_stepRead {s : State} (h : Reading s) : ∃ t, exec .stepRead s = .next t ∧ Inv t := by
  obtain ⟨hset, hst, hread⟩ := h
  have hcounted : Reading { s with nReadTicks := s.nReadTicks + 1 } := ⟨{ hset with }, hst, hread⟩
  have hloop := keepsInv_readLoop (arriving s + 1) hcounted
  rw [exec_stepRead]
  generalize readLoop (arriving s + 1) { s with nReadTicks := s.nReadTicks + 1 } = x at hloop
  match x, hloop with
  | .done (.next t), ht => exact ⟨t, rfl, ht⟩
  | .go u, hu =>
    refine ⟨_, rfl, ?_⟩
    rw [readTimeout_eq]
    split
    · exact hu.1.inv_takeError _
    · exact hu.inv

/-- A lead byte begins a telegram (R179, R180). -/
theorem reading_of_lead {s : State} {b : Byte} {f : Fmt} (h : Settled s)
    (hphase : s.pos = 0 ∧ s.crcPos = 0 ∧ s.cur = 0 ∧ s.curCode = Config.obisInvalid)
    (hlead : f = .ascii ∧ b = 0x2F#8 ∨ f = .binary ∧ b = 0x7E#8) (src rest : List Byte) (polls : List (List Byte)) :
    Reading { afterAppend b rest { s with src := src, polls := polls } with st := .read, fmt := f, tRead := s.now } := by
  obtain ⟨hpos, hcrc, hcur, hcode⟩ := hphase
  have hroom : s.pos < s.cfg.bufCap := by
    obtain ⟨hcap, -, -⟩ := (legal_iff s.cfg).mp h.cfgLegal
    omega
  have hset : Settled { s with src := src, polls := polls } := { h with }
  have hset' := hset.afterAppend hroom b rest
  have hfirst : (Sys2Proof.afterAppend b rest { s with src := src, polls := polls }).at 0 = b := by
    rw [at_afterAppend hset.bufWf]
    exact if_pos hpos.symm
  refine ⟨{ hset' with }, rfl, Nat.le_add_left 1 s.pos, hcur, hcode, ?_⟩
  obtain ⟨rfl, rfl⟩ | ⟨rfl, rfl⟩ := hlead
  · exact .inl ⟨rfl, hfirst, .inl hcrc⟩
  · refine .inr ⟨rfl, hfirst, fun _ => hcrc, fun hge => absurd hge ?_⟩
    dsimp only [Sys2Proof.afterAppend]
    omega

theorem inv_stepIdent {s : State} (h : Inv s) (hst : s.st = .ident) : ∃ t, exec .stepIdent s = .next t ∧ Inv t := by
  have hset := settled_of_inv h (by rw [hst]; decide)
  have hphase := (phaseInv_ident hst).mp h.phase
  have hroom : s.pos < s.cfg.bufCap := by
    obtain ⟨hcap, -, -⟩ := (legal_iff s.cfg).mp h.cfgLegal
    omega
  obtain ⟨src, polls, hpoll⟩ := avail_update s
  have hpolled : Settled { s with src := src, polls := polls } := { hset with }
  cases ha : (avail s).1 with
  | false =>
    refine ⟨_, exec_stepIdent_idle ha, ?_⟩
    rw [hpoll]
    dsimp only
    split
    · exact hpolled.inv_takeError _
    · exact { h with }
  | true =>
    obtain ⟨b, rest, hb⟩ := src_of_avail ha
    by_cases hascii : b = 0x2F#8
    · rw [exec_stepIdent_legal hb (f := .ascii) (fun u => by rw [hascii]; rfl) hroom, hpoll]
      exact inv_stepRead (reading_of_lead hset hphase (.inl ⟨rfl, hascii⟩) src rest polls)
    · by_cases hbinary : b = 0x7E#8
      · rw [exec_stepIdent_legal hb (f := .binary) (fun u => by rw [hbinary]; rfl) hroom, hpoll]
        exact inv_stepRead (reading_of_lead hset hphase (.inr ⟨rfl, hbinary⟩) src rest polls)
      · refine ⟨_, by rw [exec_stepIdent_lead hb, lbAction_of_illegal hascii hbinary]; rfl, ?_⟩
        refine Settled.inv_takeError ?_ _
        rw [passByte_eq, hpoll]
        exact { hset with }

/-! ## Every activation -/

/-- A tick after which the first has passed answers a next state with the invariant, whatever `st` selects (R170, R278). -/
theorem inv_tick {s : State} (h : Inv s) (hticked : s.ticked = true) : ∃ t, exec s.st.instr s = .next t ∧ Inv t := by
  cases hst : s.st with
  | ident => exact inv_stepIdent h hst
  | read => exact inv_stepRead (reading_of_inv h hst)
  | verify => exact inv_stepVerify h hst
  | pascii => exact inv_stepPascii h hst
  | pbin => exact inv_stepPbin h hst
  | wait => exact inv_stepWait h hst
  | err => exact inv_stepErr h hst hticked

/-- The inputs of a tick are no part of the invariant; behind the first tick nothing is asked of a state held since reset. -/
theorem inv_ticked {s : State} (h : Inv s) (now : Time) (src : List Byte) (polls : List (List Byte)) (yields : List Bool)
    (sched : List Activation) :
    Inv { s with now := now, src := src, polls := polls, yields := yields, sched := sched, ticked := true } :=
  { h with boot := fun hno => Bool.noConfusion hno, phase := h.phase }

theorem inv_hostCall {s t : State} (h : Inv s) (ht : HostCall s t) : Inv t := by
  obtain ⟨a, x, d, r, reg, tr, rfl, hA, hX, -, -, hwf, hfind⟩ := ht
  exact { h with
    regWf := hwf h.regWf
    regSentinel := hfind.trans h.regSentinel
    noAcc := ⟨hA h.noAcc.1, hX h.noAcc.2⟩
    phase := h.phase }

theorem inv_resetWith {s : State} (t0 tIdent tRead : Time) {buf : List Host.Cell} (hcfg : s.cfg.legal = true)
    (hreg : Registry.wf s.registry = true) (hsentinel : Registry.find s.registry Config.obisInvalid = none)
    (hwf : Memory.wf buf = true) (hbelow : Memory.below s.cfg.bufCap buf = true) :
    Inv (s.resetWith t0 tIdent tRead buf) where
  cfgLegal := hcfg
  bufWf := hwf
  bufBelow := hbelow
  regWf := hreg
  regSentinel := hsentinel
  posBound := Nat.zero_le _
  dlogEmpty _ := rfl
  dlogBound := Nat.zero_le _
  noAcc := ⟨rfl, rfl⟩
  boot _ := ⟨rfl, rfl, rfl⟩
  phase := phaseInv_err rfl

/-- A configuration is taken before the first tick only, when the machine stands in ERROR_RECOVERY with nothing read (R300). -/
theorem inv_configure {s : State} (h : Inv s) (hboot : s.ticked = false) {c : Conf} (hc : c.legal = true)
    (sched : List Activation) : Inv { s with sched := sched, cfg := c, buf := Memory.restrict c.bufCap s.buf } := by
  obtain ⟨herr, hpos, hlog⟩ := h.boot hboot
  exact { h with
    cfgLegal := hc
    bufWf := Memory.wf_restrict _ h.bufWf
    bufBelow := Memory.below_restrict _ _
    posBound := by rw [hpos]; exact Nat.zero_le _
    dlogBound := by rw [hlog]; exact Nat.zero_le _
    phase := phaseInv_err herr }

/-- Settles O2: the buffer of a reset is listed in order below the capacity, and every other part is a constant or kept. -/
theorem resetMeetsTheInvariant : Obligations.ResetMeetsTheInvariant :=
  ⟨inv_resetWith _ _ _ (by decide) rfl rfl rfl rfl, fun s _ _ _ bytes h =>
    inv_resetWith _ _ _ h.cfgLegal h.regWf h.regSentinel (Memory.wf_ofBytes _ bytes) (Memory.below_ofBytes _ bytes)⟩

/-- Settles O4: before the first tick `st` is ERROR_RECOVERY, whose step always completes; behind it every step does. -/
theorem everyTickCompletes : Obligations.EveryTickCompletes := by
  intro s h
  refine ⟨?_, fun htick => ?_⟩
  · cases hticked : s.ticked with
    | true =>
      obtain ⟨t, ht, -⟩ := inv_tick h hticked
      exact ⟨t, ht⟩
    | false =>
      obtain ⟨herr, -, -⟩ := h.boot hticked
      obtain ⟨t, ht, -⟩ := recoveryNeverRaises s
      exact ⟨t, by rw [herr]; exact ht⟩
  · obtain ⟨now, src, polls, yields, sched, hstep⟩ := step_of_nextIsTick htick
    obtain ⟨t, ht, -⟩ := inv_tick (inv_ticked h now src polls yields sched) rfl
    obtain ⟨-, -, hticked⟩ := keepsSetup_tick ht
    exact ⟨t, hstep.trans ht, hticked⟩

/-- Settles O3: the invariant of each activation, a tick's by the step it runs. -/
theorem everyStepKeepsTheInvariant : Obligations.EveryStepKeepsTheInvariant := by
  intro s t h hstep
  have htick : nextIsTick s = true → Inv t := fun htick => by
    obtain ⟨now, src, polls, yields, sched, hrun⟩ := step_of_nextIsTick htick
    obtain ⟨u, hu, hinv⟩ := inv_tick (inv_ticked h now src polls yields sched) rfl
    obtain rfl := Host.Outcome.next.inj ((hstep.symm.trans hrun).trans hu)
    exact hinv
  cases hsched : s.sched with
  | nil => exact htick (by rw [nextIsTick, hsched])
  | cons a rest =>
    have hrest : Inv { s with sched := rest } := { h with phase := h.phase }
    cases a with
    | tick now arrived polls yields => exact htick (by rw [nextIsTick, hsched])
    | call index args =>
      cases hdec : decode (.fu index args) with
      | ok i =>
        rw [step_of_call hsched hdec] at hstep
        exact inv_hostCall hrest (hostCall_exec (tableFormat_of_decode_fu hdec) hstep)
      | error e =>
        rw [step_of_call_error hsched hdec] at hstep
        cases hstep
    | configure c =>
      cases hticked : s.ticked with
      | true =>
        rw [step_of_configure_ticked hsched hticked] at hstep
        cases hstep
      | false =>
        rw [step_of_configure_boot hsched hticked] at hstep
        split at hstep
        next hc =>
          obtain rfl := Host.Outcome.next.inj hstep
          exact inv_configure h hticked hc rest
        next => cases hstep
    | reset t0 tIdent tRead bytes =>
      rw [step_of_reset hsched] at hstep
      obtain rfl := Host.Outcome.next.inj hstep
      exact inv_resetWith t0 tIdent tRead hrest.cfgLegal hrest.regWf hrest.regSentinel (Memory.wf_ofBytes _ bytes)
        (Memory.below_ofBytes _ bytes)

end Sys2Proof
end

section
/-! A run of data bytes in one tick of `STEP.READ`, 42_frame_fsm.md R181 to R183: they are stored in order, and a byte behind a full
buffer raises. -/

namespace Sys2Proof

open Sys2Proof.Machine

/-! ## A memory after a run of writes -/

theorem read_writes_of_outside {m : List Host.Cell} (hm : Memory.wf m = true) (bs : List Byte) {a i : Nat}
    (h : i < a ∨ a + bs.length ≤ i) : Memory.read (Memory.writes m a bs) i = Memory.read m i := by
  induction bs generalizing m a with
  | nil => rfl
  | cons b bs ih =>
    rw [List.length_cons] at h
    rw [Memory.writes, ih (Memory.wf_write a b hm) (by omega), Memory.read_write hm, if_neg (by omega)]

theorem read_writes_getElem {m : List Host.Cell} (hm : Memory.wf m = true) (bs : List Byte) (a : Nat) {k : Nat}
    (h : k < bs.length) : Memory.read (Memory.writes m a bs) (a + k) = bs[k] := by
  induction bs generalizing m a k with
  | nil => cases h
  | cons b bs ih =>
    cases k with
    | zero =>
      rw [Memory.writes, read_writes_of_outside (Memory.wf_write a b hm) bs (by omega), Memory.read_write hm]
      exact if_pos rfl
    | succ k =>
      rw [Memory.writes, show a + (k + 1) = a + 1 + k by omega]
      exact ih (Memory.wf_write a b hm) (a + 1) (Nat.lt_of_succ_lt_succ h)

/-! ## Data bytes -/

/-- A telegram in ASCII before its first mark, with all the bytes of the tick in the source and none passed through. -/
structure BeforeMark (s : State) : Prop where
  polls : s.polls = []
  fmt : s.fmt = .ascii
  crcPos : s.crcPos = 0
  quiet : s.cfg.passthrough = false

theorem BeforeMark.avail {s : State} (h : BeforeMark s) : avail s = (!s.src.isEmpty, s) := by
  rw [Machine.avail, h.polls]

theorem BeforeMark.avail_cons {s : State} (h : BeforeMark s) {b : Byte} {rest : List Byte} (hsrc : s.src = b :: rest) :
    Machine.avail s = (true, s) := by
  rw [h.avail, hsrc]
  rfl

/-- A byte that is no mark is stored, and the rest of the tick is the same step again (R182). -/
theorem BeforeMark.exec_stepRead_cons {s : State} (h : BeforeMark s) {b : Byte} {rest : List Byte} (hsrc : s.src = b :: rest)
    (hb : b ≠ 0x21#8) (hroom : s.pos < s.cfg.bufCap) :
    exec .stepRead s =
      exec .stepRead { s with src := rest, buf := Memory.write s.buf s.pos b, pos := s.pos + 1 } := by
  have happ : exec (.rbAppend b) { s with nReadTicks := s.nReadTicks + 1 } =
      .next { s with
        nReadTicks := s.nReadTicks + 1, src := rest, buf := Memory.write s.buf s.pos b, pos := s.pos + 1 } := by
    rw [exec_rbAppend, rbAppend_eq (s := { s with nReadTicks := s.nReadTicks + 1 }) hsrc hroom, Flow.out_go]
    simp [h.quiet]
  refine exec_stepRead_of_go (c := s.crcPos) (h.avail_cons hsrc) hsrc hroom happ ?_
  have hbefore : ¬((0 < s.crcPos ∧ s.crcPos < (s.pos + 1 : Nat)) ∧ b = 0x0A#8) := by
    rw [h.crcPos]
    exact fun hend => absurd hend.1.1 (by decide)
  exact (rbAction_of_ascii (s := { s with
    nReadTicks := s.nReadTicks + 1, src := rest, buf := Memory.write s.buf s.pos b, pos := s.pos + 1 }) h.fmt b).trans
      ((if_neg hb).trans (if_neg hbefore))

/-- A run of such bytes that fits is stored in order. -/
theorem BeforeMark.exec_stepRead_append {s : State} (h : BeforeMark s) (bs rest : List Byte) (hsrc : s.src = bs ++ rest)
    (hbs : ∀ b ∈ bs, b ≠ 0x21#8) (hroom : s.pos + bs.length ≤ s.cfg.bufCap) :
    exec .stepRead s =
      exec .stepRead { s with src := rest, buf := Memory.writes s.buf s.pos bs, pos := s.pos + bs.length } := by
  induction bs generalizing s with
  | nil => exact congrArg (fun src => exec .stepRead { s with src := src }) hsrc
  | cons b bs ih =>
    obtain ⟨hb, hbs⟩ := List.forall_mem_cons.mp hbs
    rw [List.length_cons] at hroom
    rw [h.exec_stepRead_cons hsrc hb (by omega)]
    refine (ih (s := { s with src := bs ++ rest, buf := Memory.write s.buf s.pos b, pos := s.pos + 1 })
      ⟨h.polls, h.fmt, h.crcPos, h.quiet⟩ rfl hbs (by dsimp only; omega)).trans ?_
    dsimp only
    rw [Nat.add_assoc, Nat.add_comm 1]
    rfl

/-- Settles O30: the whole source is one run of data bytes, and then no byte is available. -/
theorem readAppendsEveryDataByte : Obligations.ReadAppendsEveryDataByte := by
  intro s hwf hpolls hascii hcrc hquiet hdata hroom htime
  have hbefore : BeforeMark s := ⟨hpolls, hascii, hcrc, hquiet⟩
  have hafter : BeforeMark
      { s with src := [], buf := Memory.writes s.buf s.pos s.src, pos := s.pos + s.src.length } :=
    ⟨hpolls, hascii, hcrc, hquiet⟩
  refine ⟨Memory.writes s.buf s.pos s.src, ?_, fun k hk => read_writes_getElem hwf s.src s.pos hk,
    fun a ha => read_writes_of_outside hwf s.src ha⟩
  rw [hbefore.exec_stepRead_append s.src [] (List.append_nil _).symm hdata hroom,
    exec_stepRead_idle (by rw [hafter.avail]; rfl), hafter.avail, readTimeout_eq]
  exact congrArg Host.Outcome.next (if_neg (Nat.not_lt.mpr htime))

/-- Settles O31: the bytes that fit are one run of data bytes, and behind them a byte finds the buffer full. -/
theorem overrunIsRaisedBeforeAnyWrite : Obligations.OverrunIsRaisedBeforeAnyWrite := by
  intro s hwf hpolls hascii hcrc hquiet hdata hpos hover
  have hlen : (s.src.take (s.cfg.bufCap - s.pos)).length = s.cfg.bufCap - s.pos := by
    rw [List.length_take]
    omega
  have hfull : s.pos + (s.src.take (s.cfg.bufCap - s.pos)).length = s.cfg.bufCap := by omega
  have hbefore : BeforeMark s := ⟨hpolls, hascii, hcrc, hquiet⟩
  have hafter : BeforeMark { s with
      src := s.src.drop (s.cfg.bufCap - s.pos), pos := s.cfg.bufCap,
      buf := Memory.writes s.buf s.pos (s.src.take (s.cfg.bufCap - s.pos)) } := ⟨hpolls, hascii, hcrc, hquiet⟩
  obtain ⟨b, rest, hleft⟩ : ∃ b rest, s.src.drop (s.cfg.bufCap - s.pos) = b :: rest :=
    List.exists_cons_of_length_pos (by rw [List.length_drop]; omega)
  refine ⟨Memory.writes s.buf s.pos (s.src.take (s.cfg.bufCap - s.pos)), ?_, fun k hk hfits => ?_, fun a ha => ?_⟩
  · rw [hbefore.exec_stepRead_append _ _ (List.take_append_drop _ _).symm (fun b hb => hdata b (List.mem_of_mem_take hb))
      hfull.le, hfull, exec_stepRead_full (hafter.avail_cons hleft) hleft rfl, takeError_eq]
  · rw [read_writes_getElem hwf _ s.pos (by omega), List.getElem_take]
  · exact read_writes_of_outside hwf _ (by omega)

end Sys2Proof
end
